-- ==== Sys2Proof/Word.lean ====
section
/-! DEFINITION. The word types of the block: bytes of the streams and buffers, and the 32-bit words of the
bit count, the period and the engine (spec 00_scope.md R7). -/

namespace Sys2Proof

/-- A byte of a stream or of a buffer. -/
abbrev Byte := BitVec 8

/-- A 32-bit register or engine word. -/
abbrev Word := BitVec 32

end Sys2Proof
end

