-- ==== Sys2Proof/Config.lean ====
section
/-! DEFINITION. What an implementation fixes (spec 00_scope.md R5, R6, R38) and the free values: the TDO levels that the
target drives (R12). -/

namespace Sys2Proof

/-- The build-time parameters of R5 that vary between implementations; a model takes each as an argument fixed for a
run (assumption log 19). `CHUNK` and `INFO` are fixed by R5 and are constants where they are used. -/
structure Params where
  /-- `CAPACITY`: bytes of `SCRATCH`; any even integer >= 2 (D18). -/
  capacity : Nat
  /-- `TDO_FAIL_VALUE`: the bit recorded when a TDO read fails (D12). -/
  tdoFail : Bool
  deriving DecidableEq, Repr

/-- The reference configuration: `CAPACITY = 2048`, `TDO_FAIL_VALUE = 0` (R5). -/
def Params.reference : Params := { capacity := 2048, tdoFail := false }

/-- The legal capacities (R5, D18). No definition of the machine needs it. -/
def Params.legal (p : Params) : Bool := decide (2 ≤ p.capacity) && decide (p.capacity % 2 = 0)

/-- `MAX_NBYTES = CAPACITY / 2`, the largest accepted `byte_length` and the size of `RESULT` (R6, R46). -/
def Params.maxNbytes (p : Params) : Nat := p.capacity / 2

/-- `MAX_LEN = 8 * MAX_NBYTES`, the largest accepted bit count (R6). -/
def Params.maxLen (p : Params) : Nat := 8 * p.maxNbytes

/-- The least number of bits that hold the number `n` (for the register widths R30 and R40 give through parameters). -/
def widthHolding (n : Nat) : Nat := Nat.log2 n + 1

/-- What one TDO sample meets: the level of `jtag_tdo` and whether the read fails (`link_rd_fail`) (R21, R137). -/
structure TdoDraw where
  level : Bool
  fail  : Bool
  deriving DecidableEq, Repr, Inhabited

/-- FREE VALUE (R12, 93_implementation_defined.md #11; assumption log 8): what sample number `k` of a run meets, where the
state lists no draw for it. It has no body, so nothing can be proved of it. -/
opaque Config.freeTdo : Nat → TdoDraw

end Sys2Proof
end

