-- ==== Sys2Proof/Syntax.lean ====
section
/-! DEFINITION. The commands of the opcode table, one constructor per row (spec 30_encoding.md R81, R82, R84, R85). -/

namespace Sys2Proof

/-- One XVC command with every byte a client sends for it, but for its token, which is the constructor. -/
inductive Instr where
  /-- GETINFO (R82): the six remainder bytes, which the block does not check (R87). -/
  | getinfo (rem6 : List Byte)
  /-- SETTCK (R84): the five unchecked remainder bytes and the period, its first byte in bits 7..0 (R86). -/
  | settck (rem5 : List Byte) (period : Word)
  /-- SHIFT (R85): the four unchecked remainder bytes, the bit count, and the TMS and TDI vectors. Both vectors are empty
  in a SHIFT whose vectors the capacity check keeps out of the stream (R85, R113). -/
  | shift (rem4 : List Byte) (len : Word) (tms tdi : List Byte)
  deriving DecidableEq, Repr

end Sys2Proof
end

