-- ==== Sys2Proof/WellFormed.lean ====
section
/-! DEFINITION. Which commands are byte strings of the protocol: the field sizes of spec 30_encoding.md R82, R84, R85. -/

namespace Sys2Proof

/-- The mathematical `ceil(len / 8)` (R8, R83), on unbounded naturals. -/
def ceilBytes (len : Word) : Nat := (len.toNat + 7) / 8

/-- The fields of `i` have the sizes of R82, R84, R85, in an implementation with `cap` bytes of scratch: the vectors of a
SHIFT have `ceil(len / 8)` bytes each when `2n <= CAPACITY` and are absent otherwise. -/
def Instr.wellFormed (cap : Nat) : Instr → Bool
  | .getinfo rem6 => decide (rem6.length = 6)
  | .settck rem5 _ => decide (rem5.length = 5)
  | .shift rem4 len tms tdi =>
    decide (rem4.length = 4) &&
      if 2 * ceilBytes len ≤ cap then decide (tms.length = ceilBytes len) && decide (tdi.length = ceilBytes len)
      else tms.isEmpty && tdi.isEmpty

end Sys2Proof
end

