-- ==== Sys2Proof/Decode.lean ====
section
/-! DEFINITION. The byte-order helpers of the wire (spec 20_memory.md R64, 00_scope.md R9), the decoder of commands, total on
any bytes (30_encoding.md R80 to R90, R94), the encoder, and the decoder of an opcode-table word. -/

namespace Sys2Proof

/-- `LE32(b0 b1 b2 b3)` (R9): the first byte in bits 7..0. -/
def le32 (b0 b1 b2 b3 : Byte) : Word := b3 ++ b2 ++ b1 ++ b0

/-- `v[8j+7 : 8j]` of a 32-bit word. -/
def byteOf (w : Word) (j : Nat) : Byte := w.extractLsb' (8 * j) 8

/-- `w` with `w[8j+7 : 8j] <- b`. -/
def setByte (w : Word) (j : Nat) (b : Byte) : Word :=
  (w &&& ~~~ ((0xFF : Word) <<< (8 * j))) ||| (b.setWidth 32 <<< (8 * j))

/-- `{byte0, byte1}`, the token value of R81: the first byte in bits 15 to 8. -/
def tokenOf (b0 b1 : Byte) : BitVec 16 := b0 ++ b1

/-- The token of GETINFO, `"ge"` (R81). -/
def tokenGetinfo : BitVec 16 := 0x6765
/-- The token of SETTCK, `"se"` (R81). -/
def tokenSettck : BitVec 16 := 0x7365
/-- The token of SHIFT, `"sh"` (R81). -/
def tokenShift : BitVec 16 := 0x7368

/-- The byte length of a shift, exact in 30 bits (R83, R112): `zext_30(LEN[31:3]) + (LEN[2:0] != 0 ? 1 : 0)`. -/
def nbytesOf (len : Word) : BitVec 30 :=
  (len.extractLsb' 3 29).setWidth 30 + (if len.extractLsb' 0 3 = 0 then 0 else 1)

/-- The capacity check of R113 passes: `2 * NBYTES <= CAPACITY`, compared without wrap (R83). -/
def fitsCapacity (cap : Nat) (n : BitVec 30) : Bool := decide (2 * n.toNat ≤ cap)

/-- Why bytes are not a command. -/
inductive DecodeError where
  /-- The bytes end inside a command (a short read, if the stream ends there: R103, R164). -/
  | truncated
  /-- The token is none of R81 (R88). -/
  | illegalToken (t : BitVec 16)
  deriving DecidableEq, Repr

/-- The first `n` bytes and the rest, or nothing if there are fewer. -/
def takeBytes : Nat → List Byte → Option (List Byte × List Byte)
  | 0, bs => some ([], bs)
  | _ + 1, [] => none
  | n + 1, b :: bs =>
    match takeBytes n bs with
    | some (taken, rest) => some (b :: taken, rest)
    | none => none

/-- The four bytes of a little-endian field as a word, and the rest. -/
def takeWord : List Byte → Option (Word × List Byte)
  | b0 :: b1 :: b2 :: b3 :: rest => some (le32 b0 b1 b2 b3, rest)
  | _ => none

/-- The fields of GETINFO after its token (R82). -/
def decodeGetinfo (bs : List Byte) : Option (Instr × List Byte) :=
  match takeBytes 6 bs with
  | some (rem6, rest) => some (.getinfo rem6, rest)
  | none => none

/-- The fields of SETTCK after its token (R84). -/
def decodeSettck (bs : List Byte) : Option (Instr × List Byte) :=
  match takeBytes 5 bs with
  | some (rem5, bs1) =>
    match takeWord bs1 with
    | some (period, rest) => some (.settck rem5 period, rest)
    | none => none
  | none => none

/-- The fields of SHIFT after its token (R85): the vectors follow only when the capacity check passes. -/
def decodeShift (cap : Nat) (bs : List Byte) : Option (Instr × List Byte) :=
  match takeBytes 4 bs with
  | some (rem4, bs1) =>
    match takeWord bs1 with
    | some (len, bs2) =>
      if fitsCapacity cap (nbytesOf len) then
        match takeBytes (nbytesOf len).toNat bs2 with
        | some (tms, bs3) =>
          match takeBytes (nbytesOf len).toNat bs3 with
          | some (tdi, rest) => some (.shift rem4 len tms tdi, rest)
          | none => none
        | none => none
      else some (.shift rem4 len [] [], bs2)
    | none => none
  | none => none

/-- The command at the front of a stream and the bytes after it (R80, R90, R94). -/
def decode (cap : Nat) : List Byte → Except DecodeError (Instr × List Byte)
  | b0 :: b1 :: bs =>
    let fields :=
      if tokenOf b0 b1 = tokenGetinfo then some (decodeGetinfo bs)
      else if tokenOf b0 b1 = tokenSettck then some (decodeSettck bs)
      else if tokenOf b0 b1 = tokenShift then some (decodeShift cap bs)
      else none
    match fields with
    | some (some r) => .ok r
    | some none => .error .truncated
    | none => .error (.illegalToken (tokenOf b0 b1))
  | _ => .error .truncated

/-- The two bytes of a token, in stream order (R81). -/
def tokenBytes (t : BitVec 16) : List Byte := [t.extractLsb' 8 8, t.extractLsb' 0 8]

/-- The four bytes of a little-endian field, in stream order (R64). -/
def wordBytes (w : Word) : List Byte := [byteOf w 0, byteOf w 1, byteOf w 2, byteOf w 3]

/-- The bytes of a command, in stream order (R82, R84, R85). -/
def encode : Instr → List Byte
  | .getinfo rem6 => tokenBytes tokenGetinfo ++ rem6
  | .settck rem5 period => tokenBytes tokenSettck ++ rem5 ++ wordBytes period
  | .shift rem4 len tms tdi => tokenBytes tokenShift ++ rem4 ++ wordBytes len ++ tms ++ tdi

/-- The bytes of an opcode-table word of `nbits` bits: the table's 16-bit token value has the first byte in bits 15 to 8
(R81, R94); byte `k` after the token is bits `8k+7..8k` (assumption log 23). -/
def tableWordBytes (nbits w : Nat) : List Byte :=
  tokenBytes (BitVec.ofNat 16 (w % 2 ^ nbits)) ++
    (List.range (nbits / 8 - 2)).map fun k => BitVec.ofNat 8 ((w % 2 ^ nbits) >>> (8 * (k + 2)))

/-- Those bytes followed by zeros, up to the longest command of the reference configuration (`10 + CAPACITY` bytes, R85). -/
def paddedTableBytes (nbits w : Nat) : List Byte :=
  tableWordBytes nbits w ++ List.replicate (10 + Params.reference.capacity - nbits / 8) 0

/-- The command the decoder reads from an opcode-table word, the bits above `nbits` zero. -/
def decodeTableWord (nbits w : Nat) : Option Instr :=
  match decode Params.reference.capacity (paddedTableBytes nbits w) with
  | .ok (i, _) => some i
  | .error _ => none

/-- The bytes a client sends for an opcode-table word: exactly those of its command; the word's own bytes if it is none. -/
def tableStream (nbits w : Nat) : List Byte :=
  match decodeTableWord nbits w with
  | some i => encode i
  | none => tableWordBytes nbits w

end Sys2Proof
end

