-- ==== Sys2Proof/Machine/State.lean ====
section
/-! DEFINITION. The state of the block (spec 10_state.md), the host's and the target's side of its ports as plain data
(60_exceptions.md R175, 00_scope.md R12), the event trace (R11), and the state right after reset (R50). -/

namespace Sys2Proof.Machine

/-- The framer sequencer states of R24. The encoding is free, so they are names (93_implementation_defined.md #13). -/
inductive Fst where
  | init | idle | tok | giSkip | giReply | stRead | stReply
  | shSkip | shLen | shCheck | shBody | shRun | shReply | done | halt | fatal
  deriving DecidableEq, Repr

/-- The engine states: `E_IDLE` and the busy states (R40 leaves these free; assumption log 9). A busy state is named after
the action the engine makes next. -/
inductive Est where
  /-- `E_IDLE`: no shift in progress. -/
  | eIdle
  /-- Started by the framer; the first pin write comes next (R132, R143). -/
  | eStart
  /-- The TCK-low write of a step comes next, when the delay has run out (R139). -/
  | eLow
  /-- The TCK-high write of a step comes next, when the delay has run out (R139). -/
  | eHigh
  /-- The TDO sample comes at the next edge (R137). -/
  | eSample
  /-- The rest write comes next, when the delay has run out (R142). -/
  | eRest
  /-- The completion report comes next, when the delay has run out (R142). -/
  | eFinish
  deriving DecidableEq, Repr

/-- The outcomes of a command cycle (R162). -/
inductive CmdOutcome where
  | cont | close | closeError | shutdown
  deriving DecidableEq, Repr

/-- The causes of R161. -/
inductive Cause where
  | none | eof | shortRead | readError | badToken | oversize | writeError | shutdown | setupFail | badDelay
  deriving DecidableEq, Repr

/-- The events of R11. `reset` records none (R190). -/
inductive Event where
  | consume (b : Byte)
  | emit (b : Byte)
  | write (tck tms tdi : Bool)
  | sample (v : Bool)
  | done (outcome : CmdOutcome) (cause : Cause)
  | halt
  | fatal (cause : Cause)
  deriving DecidableEq, Repr

/-- What the host drives on the input ports of R21 at one rising edge, but for the stream's bytes (`State.stream`) and the
target's TDO (`State.tdoDraws`). -/
structure Levels where
  rst          : Bool
  cfgDelay     : Word
  linkAcquired : Bool
  /-- The host offers the next byte of the stream if there is one: then `rx_valid = 1`. -/
  rxOffer      : Bool
  rxEof        : Bool
  rxErr        : Bool
  txReady      : Bool
  txErr        : Bool
  cmdGo        : Bool
  shutdown     : Bool
  deriving DecidableEq, Repr

/-- The host's turn before one rising edge: the levels it drives from then on, and the stream it attaches, if any (R175). -/
structure HostTurn where
  levels : Levels
  attach : Option (List Byte)
  deriving DecidableEq, Repr

/-- A buffer: the bytes that have been written, as (address, byte) pairs, addresses strictly rising. -/
abbrev Memory := List Host.Cell

/-- The two buffers (R45, R46). -/
inductive Buf where
  | scratch | result
  deriving DecidableEq, Repr

/-- What stops the model with a fault. -/
inductive Fault where
  /-- A buffer byte that nothing has written is read (R50, R51; 93_implementation_defined.md #12 asks for this fault). Raised
  by the engine's reads of SCRATCH and the reply's reads of RESULT. Safe: the model stops. -/
  | unwrittenRead (buf : Buf) (addr : Nat)
  /-- An access at or above the buffer's size (R62: "a model may fault if it is"). Raised by the body's and the engine's
  writes and by every buffer read. Safe: the model stops. -/
  | outOfRange (buf : Buf) (addr : Nat)
  deriving DecidableEq, Repr

/-- What the model gives no meaning to. -/
inductive Refusal where
  /-- An instruction whose meaning is not written, raised by `exec` only. Safe. -/
  | notModelled (mnemonic : String)
  /-- The host attaches another stream inside a command cycle (R123; 93_implementation_defined.md #16). Raised by the host's
  turn. Safe: the model stops. -/
  | streamChanged
  /-- The host clears `shutdown` after raising it, without a reset (R175; 93_implementation_defined.md #19). Raised by the
  host's turn. Safe: the model stops. -/
  | shutdownCleared
  /-- `CAUSE_R` holds a reserved code, 10 to 15, in DONE (R161; 93_implementation_defined.md #14). Raised by the edge that
  leaves DONE. Safe. -/
  | reservedCause
  deriving DecidableEq, Repr

/-- The whole machine: the block's registers and buffers (10_state.md), its parameters, the host's and the target's side of
its ports, and the events so far. -/
structure State where
  /-- `FST` (R24). -/
  fst      : Fst
  /-- `CNT_R`, bytes of the current field consumed or emitted (R30). -/
  cntR     : Nat
  /-- `TOK_R[15:0]` (R31). -/
  tokR     : BitVec 16
  /-- `LEN_R[31:0]` (R32). -/
  lenR     : Word
  /-- `NBYTES_R[29:0]` (R33). -/
  nbytesR  : BitVec 30
  /-- `ECHO_R[31:0]` (R34). -/
  echoR    : Word
  /-- `OUTCOME_R[1:0]` (R35). -/
  outcomeR : BitVec 2
  /-- `CAUSE_R[3:0]` (R35). -/
  causeR   : BitVec 4
  /-- `DELAY_R[31:0]` (R37). -/
  delayR   : Word
  /-- `EST` (R40). -/
  est      : Est
  /-- `TMS_W` (R40). -/
  tmsW     : Word
  /-- `TDI_W` (R40). -/
  tdiW     : Word
  /-- `TDO_W` (R40). -/
  tdoW     : Word
  /-- `STEP_R`, steps done in the current chunk (R40). -/
  stepR    : BitVec 6
  /-- `NSTEP_R`, steps in the current chunk (R40). -/
  nstepR   : BitVec 6
  /-- `OFF_R`, byte offset of the current chunk (R40). -/
  offR     : Nat
  /-- `BLEFT_R`, bits not yet processed (R40). -/
  bleftR   : Nat
  /-- `DLY_CNT` (R40, R138). -/
  dlyCnt   : Word
  /-- `TCK_Q` (R41). -/
  tckQ     : Bool
  /-- `TMS_Q` (R41). -/
  tmsQ     : Bool
  /-- `TDI_Q` (R41). -/
  tdiQ     : Bool
  /-- `SCRATCH` (R45). -/
  scratch  : Memory
  /-- `RESULT` (R46). -/
  result   : Memory
  /-- The build-time parameters (R5, R38). -/
  params   : Params
  /-- The model's own: the levels the host drives now (R21). -/
  levels   : Levels
  /-- The model's own: the bytes of the attached input stream not yet consumed (R60). -/
  stream   : List Byte
  /-- The model's own: the host's coming turns, next first; when there is none the levels hold (assumption log 1). -/
  script   : List HostTurn
  /-- The model's own: what the coming TDO samples meet, next first (R12; assumption log 8). -/
  tdoDraws : List TdoDraw
  /-- The model's own: how many TDO samples have been made; it numbers the free values (assumption log 8). -/
  draws    : Nat
  /-- The model's own: the events so far, oldest first (R11). -/
  trace    : List Event
  deriving DecidableEq, Repr

/-- The host's levels at `State.reset`: reset released, the delay coefficient at its default, the lines acquired, bytes
offered as soon as there are some, replies taken, everything else low (assumption log 7). -/
def Levels.atReset : Levels :=
  { rst := false, cfgDelay := 40, linkAcquired := true, rxOffer := true, rxEof := false, rxErr := false,
    txReady := true, txErr := false, cmdGo := false, shutdown := false }

/-- The machine right after reset (R50, R190): `INIT`, the lines at rest, `DELAY_R = cfg_delay = 40`; the registers that R50
leaves unspecified are 0 (assumption log 4), the buffers hold no value (log 5); no stream, no event. -/
def State.reset : State :=
  { fst := .init, cntR := 0, tokR := 0, lenR := 0, nbytesR := 0, echoR := 0, outcomeR := 0, causeR := 0, delayR := 40,
    est := .eIdle, tmsW := 0, tdiW := 0, tdoW := 0, stepR := 0, nstepR := 0, offR := 0, bleftR := 0, dlyCnt := 0,
    tckQ := false, tmsQ := true, tdiQ := false, scratch := [], result := [], params := Params.reference,
    levels := Levels.atReset, stream := [], script := [], tdoDraws := [], draws := 0, trace := [] }

end Sys2Proof.Machine
end

