-- ==== Sys2Proof/Machine/Flags.lean ====
section
/-! DEFINITION. The codes of outcomes and causes (spec 60_exceptions.md R161, R162), the groups of framer states (10_state.md
R24), the input ports as one edge sees them (R21), and the status outputs (R22, R36). The block has no condition codes (R36). -/

namespace Sys2Proof.Machine

/-- The outcome codes on `cmd_outcome` (R162). -/
def CmdOutcome.code : CmdOutcome → BitVec 2
  | .cont => 0
  | .close => 1
  | .closeError => 2
  | .shutdown => 3

/-- The cause codes on `cmd_cause` (R161). -/
def Cause.code : Cause → BitVec 4
  | .none => 0
  | .eof => 1
  | .shortRead => 2
  | .readError => 3
  | .badToken => 4
  | .oversize => 5
  | .writeError => 6
  | .shutdown => 7
  | .setupFail => 8
  | .badDelay => 9

/-- The terminal conditions of R163 to R169. -/
inductive Cond where
  | cleanClose | shortRead | readError | badToken | oversize | writeError | shutdown
  deriving DecidableEq, Repr

/-- The cause a condition reports (R161). -/
def Cond.cause : Cond → Cause
  | .cleanClose => .eof
  | .shortRead => .shortRead
  | .readError => .readError
  | .badToken => .badToken
  | .oversize => .oversize
  | .writeError => .writeError
  | .shutdown => .shutdown

/-- The outcome a condition reports (R161). -/
def Cond.outcome : Cond → CmdOutcome
  | .cleanClose => .close
  | .shutdown => .shutdown
  | .shortRead | .readError | .badToken | .oversize | .writeError => .closeError

/-- The read states (R24). -/
def Fst.isRead : Fst → Bool
  | .tok | .giSkip | .stRead | .shSkip | .shLen | .shBody => true
  | .init | .idle | .giReply | .stReply | .shCheck | .shRun | .shReply | .done | .halt | .fatal => false

/-- The reply states (R24). -/
def Fst.isReply : Fst → Bool
  | .giReply | .stReply | .shReply => true
  | .init | .idle | .tok | .giSkip | .stRead | .shSkip | .shLen | .shCheck | .shBody | .shRun | .done | .halt | .fatal => false

/-- `busy = 1` exactly when `FST` is neither INIT, IDLE, HALT nor FATAL (R22). -/
def Fst.isBusy : Fst → Bool
  | .init | .idle | .halt | .fatal => false
  | .tok | .giSkip | .giReply | .stRead | .stReply | .shSkip | .shLen | .shCheck | .shBody | .shRun | .shReply | .done => true

/-- A command cycle is in progress (R22). -/
def State.busy (s : State) : Bool := s.fst.isBusy

/-- `rx_valid`: the host offers a byte of the attached stream (R21). -/
def State.rxValid (s : State) : Bool := s.levels.rxOffer && !s.stream.isEmpty

/-- TDO sample number `k` from now: the listed draw, or the free value past the list (R12; assumption log 8). -/
def State.draw (s : State) (k : Nat) : TdoDraw :=
  match s.tdoDraws[k]? with
  | some d => d
  | none => Config.freeTdo (s.draws + k)

/-- The value that draw gives a sample: the level read, or `TDO_FAIL_VALUE` for a failed read (R137, R145). -/
def State.drawValue (s : State) (k : Nat) : Bool :=
  if (s.draw k).fail then s.params.tdoFail else (s.draw k).level

/-- `rx_ready` (R100): in a read state, exactly when `shutdown = 0` and `rx_err = 0`. -/
def State.rxReady (s : State) : Bool := s.fst.isRead && !s.levels.shutdown && !s.levels.rxErr

/-- `halted` (R22, R177). -/
def State.halted (s : State) : Bool := decide (s.fst = .halt)

/-- `fatal` (R22, R178). -/
def State.fatal (s : State) : Bool := decide (s.fst = .fatal)

/-- `link_release = halted OR fatal` (R22). -/
def State.linkRelease (s : State) : Bool := s.halted || s.fatal

/-- `cmd_done` (R22). -/
def State.cmdDone (s : State) : Bool := decide (s.fst = .done)

/-- `cmd_outcome`: `OUTCOME_R` in DONE, 0 in every other state (R22). -/
def State.cmdOutcome (s : State) : BitVec 2 := if s.cmdDone then s.outcomeR else 0

/-- `cmd_cause`: `CAUSE_R` in DONE, 0 in every other state (R22). -/
def State.cmdCause (s : State) : BitVec 4 := if s.cmdDone then s.causeR else 0

/-- `jtag_tck`, `jtag_tms`, `jtag_tdi` (R22, R41). -/
def State.lines (s : State) : Bool × Bool × Bool := (s.tckQ, s.tmsQ, s.tdiQ)

/-- The rest state of the lines: TCK low, TMS high, TDI low (R13, R142). -/
def restLines : Bool × Bool × Bool := (false, true, false)

end Sys2Proof.Machine
end

