-- ==== Sys2Proof/Machine/Operands.lean ====
section
/-! DEFINITION. The operands of the commands: the fixed reply of GETINFO (spec 30_encoding.md R91), the echoed period (R86, R107),
the vectors' bits (20_memory.md R63) and the partition of a shift into chunks (41_shift_engine.md R133 to R135). -/

namespace Sys2Proof.Machine

/-- `INFO`, the 20 reply bytes of GETINFO: `"xvcServer_v1.0:2048\n"` (R5, R91). -/
def infoBytes : List Byte :=
  [0x78, 0x76, 0x63, 0x53, 0x65, 0x72, 0x76, 0x65, 0x72, 0x5F, 0x76, 0x31, 0x2E, 0x30, 0x3A, 0x32, 0x30, 0x34, 0x38, 0x0A]

/-- `NBYTES_R` as a number of bytes. -/
def State.nBytes (s : State) : Nat := s.nbytesR.toNat

/-- Bit `i` of a vector: bit `i mod 8` of byte `floor(i / 8)` (R9, R63). A bit past the vector's bytes reads as false; no
definition of the machine reads one. -/
def vectorBit (v : List Byte) (i : Nat) : Bool := (v.getD (i / 8) 0).getLsbD (i % 8)

/-- The steps of the chunk that starts with `bleft` bits left: 32, or what is left for the tail (R131, R133). -/
def chunkSteps (bleft : Nat) : Nat := if 32 ≤ bleft then 32 else bleft

/-- The bytes of that chunk in each vector: 4, or `ceil(bleft / 8)` for the tail (R131, R133, R135). -/
def chunkBytes (bleft : Nat) : Nat := if 32 ≤ bleft then 4 else (bleft + 7) / 8

end Sys2Proof.Machine
end

