-- ==== Sys2Proof/Machine/Ops.lean ====
section
/-! DEFINITION. The named operations of the block: buffer accesses (spec 20_memory.md R62), the end of a command cycle by a
condition or normally and the return from it (60_exceptions.md R160, R174; 40_framer.md R119), reset (R190), the stream
primitives (R100, R101), and the engine's primitives (41_shift_engine.md R136 to R138). -/

namespace Sys2Proof.Machine

/-- The outcomes of a step of this machine. -/
abbrev Result := Host.Outcome State Fault Refusal

/-- An operation that may fault, as a step. -/
def Result.ofExcept : Except Fault State → Result
  | .ok s => .next s
  | .error f => .fault f

/-! ### Buffers -/

/-- What an address that the buffer does not list reads as: no value (R50; 93_implementation_defined.md #12; assumption
log 5). -/
def Memory.unlisted : Option Byte := none

/-- The byte at `a`, if one has been written. -/
def Memory.read : Memory → Nat → Option Byte
  | [], _ => Memory.unlisted
  | (k, b) :: m, a => if k = a then some b else Memory.read m a

/-- `m` with the byte at `a` set to `b`, the addresses kept in rising order. -/
def Memory.write : Memory → Nat → Byte → Memory
  | [], a, b => [(a, b)]
  | (k, c) :: m, a, b =>
    if a < k then (a, b) :: (k, c) :: m
    else if a = k then (a, b) :: m
    else (k, c) :: Memory.write m a b

/-- The canonical form: addresses strictly rising. No entry can equal what an unlisted address reads as, since that is no
byte. -/
def Memory.wf : Memory → Bool
  | [] => true
  | [_] => true
  | (k, _) :: (k', b') :: m => decide (k < k') && Memory.wf ((k', b') :: m)

/-- Every listed address is below `size`. -/
def Memory.below (m : Memory) (size : Nat) : Bool := m.all fun c => decide (c.1 < size)

/-- The contents of a buffer (R45, R46). -/
def State.buf (s : State) : Buf → Memory
  | .scratch => s.scratch
  | .result => s.result

/-- The size of a buffer: `CAPACITY` and `MAX_NBYTES` (R45, R46). -/
def State.bufSize (s : State) : Buf → Nat
  | .scratch => s.params.capacity
  | .result => s.params.maxNbytes

/-- One byte of a buffer; a fault where nothing has been written or the address is beyond the buffer. -/
def readByte (buf : Buf) (a : Nat) (s : State) : Except Fault Byte :=
  if a < s.bufSize buf then
    match Memory.read (s.buf buf) a with
    | some b => .ok b
    | none => .error (.unwrittenRead buf a)
  else .error (.outOfRange buf a)

/-- The contents of SCRATCH set. -/
def setScratch (m : Memory) (s : State) : State := { s with scratch := m }

/-- The contents of RESULT set. -/
def setResult (m : Memory) (s : State) : State := { s with result := m }

/-- One byte of a buffer set; a fault beyond the buffer. -/
def writeByte (buf : Buf) (a : Nat) (b : Byte) (s : State) : Except Fault State :=
  if a < s.bufSize buf then
    match buf with
    | .scratch => .ok (setScratch (s.scratch.write a b) s)
    | .result => .ok (setResult (s.result.write a b) s)
  else .error (.outOfRange buf a)

/-- `MemRead(buf, a, k)` (R62): `k` bytes, little-endian, zero-extended to 32 bits. -/
def memRead (buf : Buf) (a : Nat) : Nat → State → Except Fault Word
  | 0, _ => .ok 0
  | k + 1, s =>
    match readByte buf a s with
    | .ok b =>
      match memRead buf (a + 1) k s with
      | .ok w => .ok (w <<< 8 ||| b.setWidth 32)
      | .error f => .error f
    | .error f => .error f

/-- `MemWrite(buf, a, k, v)` (R62): the low `k` bytes of `v`, little-endian, and no other byte. -/
def memWrite (buf : Buf) (a : Nat) : Nat → Word → State → Except Fault State
  | 0, _, s => .ok s
  | k + 1, v, s =>
    match writeByte buf a (byteOf v 0) s with
    | .ok s1 => memWrite buf (a + 1) k (v >>> 8) s1
    | .error f => .error f

/-! ### Events, the end of a command cycle, reset -/

/-- An event recorded (R11). -/
def record (e : Event) (s : State) : State := { s with trace := s.trace ++ [e] }

/-- The bytes of the attached stream set. -/
def setStream (q : List Byte) (s : State) : State := { s with stream := q }

/-- `FST <- f` (R10). -/
def setFst (f : Fst) (s : State) : State := { s with fst := f }

/-- `CNT_R <- n`. -/
def setCnt (n : Nat) (s : State) : State := { s with cntR := n }

/-- `FST <- f` with `CNT_R <- 0`, the entry to a read or reply state (R30). -/
def enter (f : Fst) (s : State) : State := setCnt 0 (setFst f s)

/-- `finish(outcome, cause)` (R119): the codes written, `FST <- DONE`, the event `Done` recorded for DONE's one cycle
(assumption log 10). -/
def finish (o : CmdOutcome) (c : Cause) (s : State) : State :=
  record (.done o c) { s with outcomeR := o.code, causeR := c.code, fst := .done }

/-- `raise X` (R160), the one way a command cycle ends by a condition: the outcome and cause of R161, then as `finish`. -/
def raiseCond (x : Cond) (s : State) : State := finish x.outcome x.cause s

/-- The host closes the connection on CLOSE and CLOSE_ERROR and discards its unread bytes (R174, R175; assumption log 16). -/
def hostCloses (s : State) : State :=
  if s.outcomeR = CmdOutcome.close.code ∨ s.outcomeR = CmdOutcome.closeError.code then setStream [] s else s

/-- The return from DONE (R119, R174): HALT after SHUTDOWN, with the event `Halt` (R177), otherwise IDLE. A reserved cause
code is refused (R161; 93_implementation_defined.md #14). -/
def leaveDone (s : State) : Result :=
  if (10 : BitVec 4) ≤ s.causeR then .refused .reservedCause
  else if s.outcomeR = CmdOutcome.shutdown.code then .next (record .halt (setFst .halt s))
  else .next (hostCloses (setFst .idle s))

/-- A rising edge with `rst = 1` (R190): every register takes its reset value, `DELAY_R` the level of `cfg_delay`; no event is
recorded, and no stream is attached afterwards (R192). The registers that R50 leaves unspecified take the values of
`State.reset` (assumption log 6). The host's levels and script, the target and the events so far are not the block's to reset. -/
def resetEdge (s : State) : State :=
  { State.reset with
    delayR := s.levels.cfgDelay, params := s.params, levels := s.levels, script := s.script, tdoDraws := s.tdoDraws,
    draws := s.draws, trace := s.trace }

/-! ### Stream primitives -/

/-- The transfer of a byte from the stream, `rest` its bytes after that (R100): `Consume(b)`, `CNT_R <- CNT_R + 1`. -/
def consumeByte (b : Byte) (rest : List Byte) (s : State) : State :=
  record (.consume b) { s with stream := rest, cntR := s.cntR + 1 }

/-- The transfer of a byte to the output stream (R101): `Emit(b)`, `CNT_R <- CNT_R + 1`. -/
def emitByte (b : Byte) (s : State) : State := record (.emit b) { s with cntR := s.cntR + 1 }

/-- What one attempt at `RxByte()` gives. -/
inductive RxResult where
  /-- A condition is raised. -/
  | raise (x : Cond)
  /-- A byte transfers. -/
  | byte (b : Byte) (s : State)
  /-- No register changes; the read is tried again at the next edge. -/
  | wait
  deriving DecidableEq, Repr

/-- One attempt at `RxByte()` (R100), in the order `shutdown`, `rx_err`, byte, `rx_eof` (R172). -/
def rxByte (s : State) : RxResult :=
  if s.levels.shutdown then .raise .shutdown
  else if s.levels.rxErr then .raise .readError
  else
    match s.levels.rxOffer, s.stream with
    | true, b :: rest => .byte b (consumeByte b rest s)
    | _, _ =>
      if s.levels.rxEof then
        if s.fst = .tok ∧ s.cntR = 0 then .raise .cleanClose else .raise .shortRead
      else .wait

/-- An edge in a read state: the condition raised, the wait, or what the state does with the byte (R100). -/
def readEdge (onByte : Byte → State → Except Fault State) (s : State) : Except Fault State :=
  match rxByte s with
  | .raise x => .ok (raiseCond x s)
  | .wait => .ok s
  | .byte b s1 => onByte b s1

/-- An edge in a reply state that offers `TxByte(b)`, the byte number `CNT_R` of `total` (R101): `tx_err`, then `tx_ready`, else
the wait. The last byte finishes the command (R119, R161). A reply with no byte left to offer finishes at once: it makes no
`TxByte` (R116, R117 (a); assumption log 12). -/
def replyEdge (total : Nat) (byteAt : State → Except Fault Byte) (s : State) : Except Fault State :=
  if total ≤ s.cntR then .ok (finish .cont .none s)
  else if s.levels.txErr then .ok (raiseCond .writeError s)
  else if s.levels.txReady then
    match byteAt s with
    | .ok b =>
      if s.cntR + 1 = total then .ok (finish .cont .none (emitByte b s))
      else .ok (emitByte b s)
    | .error f => .error f
  else .ok s

/-! ### Engine primitives -/

/-- `PinWrite(tck, tms, tdi)` (R136): all three line registers at one edge, and the event, even when it repeats the levels. -/
def pinWrite (tck tms tdi : Bool) (s : State) : State :=
  record (.write tck tms tdi) { s with tckQ := tck, tmsQ := tms, tdiQ := tdi }

/-- The start of `Delay()` at the edge of a pin write: `DLY_CNT <- DELAY_R` (R138). -/
def startDelay (s : State) : State := { s with dlyCnt := s.delayR }

/-- One edge of `Delay()`: `DLY_CNT` decrements until it is 0 (R138). -/
def tickDelay (s : State) : State := { s with dlyCnt := if s.dlyCnt = 0 then 0 else s.dlyCnt - 1 }

/-- The edge acts when the delay has run out, and otherwise only counts (R138). -/
def afterDelay (act : State → Except Fault State) (s : State) : Except Fault State :=
  if s.dlyCnt = 0 then act s else .ok (tickDelay s)

/-- `w` with bit `i` set to `v`. -/
def setBit (w : Word) (i : Nat) (v : Bool) : Word :=
  if v then w ||| ((1 : Word) <<< i) else w &&& ~~~ ((1 : Word) <<< i)

/-- `TDO_W[STEP_R] <- TdoSample()` (R137, R139, R145): the next draw is used up, its value recorded; no line changes. -/
def sampleTdo (s : State) : State :=
  record (.sample (s.drawValue 0))
    { s with tdoW := setBit s.tdoW s.stepR.toNat (s.drawValue 0), tdoDraws := s.tdoDraws.tail, draws := s.draws + 1 }

end Sys2Proof.Machine
end

