-- ==== Sys2Proof/Machine/Framer.lean ====
section
/-! DEFINITION. The framer outside the commands: setup (spec 60_exceptions.md R170, 70_reset_and_hazards.md R191), IDLE
(40_framer.md R102), the token fetch and the dispatch (R103, R104, R118). -/

namespace Sys2Proof.Machine

/-- The edge in INIT with `rst = 0`: the setup checks of R170, `SETUP_FAIL` before `BAD_DELAY` (R172). -/
def initEdge (s : State) : State :=
  if s.levels.linkAcquired = false then record (.fatal .setupFail) (setFst .fatal s)
  else if s.delayR = 0 then record (.fatal .badDelay) (setFst .fatal s)
  else setFst .idle s

/-- The edge in IDLE (R102): `shutdown` before `cmd_go`. -/
def idleEdge (s : State) : State :=
  if s.levels.shutdown then record .halt (setFst .halt s)
  else if s.levels.cmdGo then enter .tok s
  else s

/-- `TOK_R <- t` (R31). -/
def setTok (t : BitVec 16) (s : State) : State := { s with tokR := t }

/-- Dispatch on the token in `TOK_R`, with `CNT_R <- 0` (R104); every other token raises `BadToken` (R118). -/
def dispatchToken (s : State) : State :=
  if s.tokR = tokenGetinfo then enter .giSkip s
  else if s.tokR = tokenSettck then enter .stRead s
  else if s.tokR = tokenShift then enter .shSkip s
  else raiseCond .badToken (setCnt 0 s)

/-- What TOK does with a byte (R103): the first goes to `TOK_R[15:8]`, the second to `TOK_R[7:0]`, and the dispatch follows
at the same edge (assumption log 18). -/
def tokByte (b : Byte) (s : State) : Except Fault State :=
  if s.cntR = 1 then .ok (setTok (b ++ s.tokR.extractLsb' 0 8) s)
  else .ok (dispatchToken (setTok (s.tokR.extractLsb' 8 8 ++ b) s))

/-- The edge in TOK (R103). -/
def tokEdge (s : State) : Except Fault State := readEdge tokByte s

end Sys2Proof.Machine
end

