-- ==== Sys2Proof/Machine/Getinfo.lean ====
section
/-! DEFINITION. The states of GETINFO (spec 40_framer.md R105, R106). -/

namespace Sys2Proof.Machine

/-- GI_SKIP discards six bytes unchecked (R87, R105). -/
def giSkipByte (_ : Byte) (s : State) : Except Fault State :=
  if 6 ≤ s.cntR then .ok (enter .giReply s) else .ok s

/-- The edge in GI_SKIP. -/
def giSkipEdge (s : State) : Except Fault State := readEdge giSkipByte s

/-- Reply byte `CNT_R` of GETINFO, `INFO[j]` (R91, R105). -/
def giReplyByte (s : State) : Except Fault Byte := .ok (infoBytes.getD s.cntR 0)

/-- The edge in GI_REPLY: the 20 bytes, then `finish(CONTINUE, NONE)` (R105). -/
def giReplyEdge (s : State) : Except Fault State := replyEdge infoBytes.length giReplyByte s

end Sys2Proof.Machine
end

