-- ==== Sys2Proof/Machine/Settck.lean ====
section
/-! DEFINITION. The states of SETTCK (spec 40_framer.md R107, R108). -/

namespace Sys2Proof.Machine

/-- `ECHO_R[8j+7 : 8j] <- b` (R107). -/
def setEchoByte (j : Nat) (b : Byte) (s : State) : State := { s with echoR := setByte s.echoR j b }

/-- ST_READ discards five bytes unchecked and puts the next four into `ECHO_R`, first byte in bits 7..0 (R87, R107). `CNT_R`
has already counted the byte. -/
def stReadByte (b : Byte) (s : State) : Except Fault State :=
  if s.cntR ≤ 5 then .ok s
  else if s.cntR < 9 then .ok (setEchoByte (s.cntR - 6) b s)
  else .ok (enter .stReply (setEchoByte 3 b s))

/-- The edge in ST_READ. -/
def stReadEdge (s : State) : Except Fault State := readEdge stReadByte s

/-- Reply byte `CNT_R` of SETTCK, `ECHO_R[8j+7 : 8j]` (R107). -/
def stReplyByte (s : State) : Except Fault Byte := .ok (byteOf s.echoR s.cntR)

/-- The edge in ST_REPLY: the same four bytes in the same order, then `finish(CONTINUE, NONE)` (R107). -/
def stReplyEdge (s : State) : Except Fault State := replyEdge 4 stReplyByte s

end Sys2Proof.Machine
end

