-- ==== Sys2Proof/Machine/Engine.lean ====
section
/-! DEFINITION. The bit-bang shift engine (spec 41_shift_engine.md R130 to R153), one rising edge at a time. The engine reads
no stream input, no `cmd_go` and not `shutdown` (R130, R146). Chunk loads and stores fall within the delay cycles and add none
(R138; assumption log 9). -/

namespace Sys2Proof.Machine

/-- `EST <- e`. -/
def setEst (e : Est) (s : State) : State := { s with est := e }

/-- The registers of a chunk at its load (R134, R135): the words, `TDO_W <- 0`, the step counters. -/
def startChunk (tmsW tdiW : Word) (s : State) : State :=
  { s with tmsW := tmsW, tdiW := tdiW, tdoW := 0, stepR := 0, nstepR := BitVec.ofNat 6 (chunkSteps s.bleftR) }

/-- The offset and the count after a chunk's store (R131, R140, R141). -/
def advanceChunk (s : State) : State :=
  { s with offR := s.offR + chunkBytes s.bleftR, bleftR := s.bleftR - s.nstepR.toNat }

/-- CHUNK LOAD, full (R134) or tail (R135): the words of the chunk at `OFF_R`, `TDO_W <- 0`, the step counters. -/
def chunkLoad (s : State) : Except Fault State :=
  match memRead .scratch s.offR (chunkBytes s.bleftR) s with
  | .ok tmsW =>
    match memRead .scratch (s.nBytes + s.offR) (chunkBytes s.bleftR) s with
    | .ok tdiW => .ok (startChunk tmsW tdiW s)
    | .error f => .error f
  | .error f => .error f

/-- CHUNK STORE, full (R140) or tail (R141): the low bytes of `TDO_W` to `RESULT[OFF_R ..]`, then the offset and the count. -/
def chunkStore (s : State) : Except Fault State :=
  match memWrite .result s.offR (chunkBytes s.bleftR) s.tdoW s with
  | .ok s1 => .ok (advanceChunk s1)
  | .error f => .error f

/-- The words shifted right by one and the step counted (R139). -/
def nextStep (s : State) : State :=
  { s with tmsW := s.tmsW >>> 1, tdiW := s.tdiW >>> 1, stepR := s.stepR + 1 }

/-- REST (R142): the rest write and the delay that follows it. -/
def restWrite (s : State) : State := setEst .eFinish (startDelay (pinWrite false true false s))

/-- `OFF_R <- 0; BLEFT_R <- len` (R131). -/
def beginShift (s : State) : State := { s with offR := 0, bleftR := s.lenR.toNat }

/-- The engine's first edge (R131): SETUP with the first bits of the vectors when `len > 0` (R132), the first chunk loaded; the
rest write at once when `len = 0` (R143). -/
def engineStart (s : State) : Except Fault State :=
  if s.lenR = 0 then .ok (restWrite (beginShift s))
  else
    match readByte .scratch 0 s with
    | .ok tms0 =>
      match readByte .scratch s.nBytes s with
      | .ok tdi0 =>
        match chunkLoad (startDelay (pinWrite false (tms0.getLsbD 0) (tdi0.getLsbD 0) (beginShift s))) with
        | .ok s1 => .ok (setEst .eLow s1)
        | .error f => .error f
      | .error f => .error f
    | .error f => .error f

/-- The TCK-low write of a step, TMS and TDI at this bit (R139). -/
def lowWrite (s : State) : State :=
  setEst .eHigh (startDelay (pinWrite false (s.tmsW.getLsbD 0) (s.tdiW.getLsbD 0) s))

/-- The TCK-high write of a step, the rising edge (R139). -/
def highWrite (s : State) : State :=
  setEst .eSample (startDelay (pinWrite true (s.tmsW.getLsbD 0) (s.tdiW.getLsbD 0) s))

/-- The end of a chunk (R131): the store, then the next chunk's load, or REST when no bit is left. -/
def chunkEnd (s : State) : Except Fault State :=
  match chunkStore s with
  | .ok s1 =>
    if 0 < s1.bleftR then
      match chunkLoad s1 with
      | .ok s2 => .ok (setEst .eLow s2)
      | .error f => .error f
    else .ok (setEst .eRest s1)
  | .error f => .error f

/-- The sample, the first cycle of the delay, and the words shifted (R137 to R139). -/
def sampleAndShift (s : State) : State := nextStep (tickDelay (sampleTdo s))

/-- The first edge after the rising write (R137): the sample; after the chunk's last step the chunk ends (R139). -/
def sampleEdge (s : State) : Except Fault State :=
  if s.nstepR ≤ s.stepR + 1 then chunkEnd (sampleAndShift s) else .ok (setEst .eLow (sampleAndShift s))

/-- Completion reported to the framer, which goes to SH_REPLY (R115, R131). -/
def engineDone (s : State) : State := enter .shReply (setEst .eIdle s)

/-- The edge in SH_RUN (R115, R131). -/
def engineEdge (s : State) : Except Fault State :=
  match s.est with
  | .eIdle => engineStart s
  | .eStart => engineStart s
  | .eLow => afterDelay (fun s => .ok (lowWrite s)) s
  | .eHigh => afterDelay (fun s => .ok (highWrite s)) s
  | .eSample => sampleEdge s
  | .eRest => afterDelay (fun s => .ok (restWrite s)) s
  | .eFinish => afterDelay (fun s => .ok (engineDone s)) s

end Sys2Proof.Machine
end

