-- ==== Sys2Proof/Machine/Shift.lean ====
section
/-! DEFINITION. The framer's states of SHIFT (spec 40_framer.md R109 to R117). -/

namespace Sys2Proof.Machine

/-- SH_SKIP discards four bytes unchecked (R87, R110). -/
def shSkipByte (_ : Byte) (s : State) : Except Fault State :=
  if 4 ≤ s.cntR then .ok (enter .shLen s) else .ok s

/-- The edge in SH_SKIP. -/
def shSkipEdge (s : State) : Except Fault State := readEdge shSkipByte s

/-- `LEN_R[8j+7 : 8j] <- b` (R111). -/
def setLenByte (j : Nat) (b : Byte) (s : State) : State := { s with lenR := setByte s.lenR j b }

/-- `NBYTES_R <- ceil(LEN_R / 8)` (R112): in SH_LEN, once `LEN_R` is whole (R51), and again in SH_CHECK (R109, R112), the same
value. That it is written at both edges is the model's choice (assumption log 28). -/
def latchBytes (s : State) : State := { s with nbytesR := nbytesOf s.lenR }

/-- SH_LEN puts four bytes into `LEN_R`, first byte in bits 7..0 (R111), and with the fourth writes `NBYTES_R` too (R51). `CNT_R`
has already counted the byte. -/
def shLenByte (b : Byte) (s : State) : Except Fault State :=
  if s.cntR < 4 then .ok (setLenByte (s.cntR - 1) b s)
  else .ok (setFst .shCheck (latchBytes (setLenByte 3 b s)))

/-- The edge in SH_LEN. -/
def shLenEdge (s : State) : Except Fault State := readEdge shLenByte s

/-- The framer starts the engine (R115). -/
def startEngine (s : State) : State := setEst .eStart (setFst .shRun s)

/-- The edge in SH_CHECK: the byte length (R112; assumption log 28) and the capacity check (R113). With no body the framer goes straight to SH_RUN
(R114; assumption log 11). -/
def shCheckEdge (s : State) : State :=
  if fitsCapacity s.params.capacity (nbytesOf s.lenR) = false then raiseCond .oversize (latchBytes s)
  else if nbytesOf s.lenR = 0 then startEngine (setCnt 0 (latchBytes s))
  else enter .shBody (latchBytes s)

/-- SH_BODY stores body byte `j` in `SCRATCH[j]`, `2n` bytes, and starts the engine after the last (R114, R115). `CNT_R` has
already counted the byte. -/
def shBodyByte (b : Byte) (s : State) : Except Fault State :=
  match writeByte .scratch (s.cntR - 1) b s with
  | .ok s1 => if 2 * s1.nBytes ≤ s1.cntR then .ok (startEngine s1) else .ok s1
  | .error f => .error f

/-- The edge in SH_BODY. -/
def shBodyEdge (s : State) : Except Fault State := readEdge shBodyByte s

/-- Reply byte `CNT_R` of SHIFT, `RESULT[j]` (R116). -/
def shReplyByte (s : State) : Except Fault Byte := readByte .result s.cntR s

/-- The edge in SH_REPLY: `RESULT[0 .. n-1]`, then `finish(CONTINUE, NONE)` (R116). -/
def shReplyEdge (s : State) : Except Fault State := replyEdge s.nBytes shReplyByte s

end Sys2Proof.Machine
end

