-- ==== Sys2Proof/Machine/Clock.lean ====
section
/-! DEFINITION. One rising edge of the whole block (spec 10_state.md R20, R24), the reply ports (40_framer.md R101), the host's
turn between edges (60_exceptions.md R175), and a command cycle as the run of edges from `cmd_go` to the return to IDLE
(40_framer.md R102, R119). -/

namespace Sys2Proof.Machine

/-- One rising edge of `clk` (R20): reset first (R190), otherwise the rule of the framer state. HALT and FATAL change nothing
(R177, R178). -/
def edge (s : State) : Result :=
  if s.levels.rst then .next (resetEdge s)
  else
    match s.fst with
    | .init => .next (initEdge s)
    | .idle => .next (idleEdge s)
    | .tok => .ofExcept (tokEdge s)
    | .giSkip => .ofExcept (giSkipEdge s)
    | .giReply => .ofExcept (giReplyEdge s)
    | .stRead => .ofExcept (stReadEdge s)
    | .stReply => .ofExcept (stReplyEdge s)
    | .shSkip => .ofExcept (shSkipEdge s)
    | .shLen => .ofExcept (shLenEdge s)
    | .shCheck => .next (shCheckEdge s)
    | .shBody => .ofExcept (shBodyEdge s)
    | .shRun => .ofExcept (engineEdge s)
    | .shReply => .ofExcept (shReplyEdge s)
    | .done => leaveDone s
    | .halt => .next s
    | .fatal => .next s

/-- How many bytes the reply of the present state has (R91). -/
def State.replyTotal (s : State) : Nat :=
  match s.fst with
  | .giReply => infoBytes.length
  | .stReply => 4
  | .shReply => s.nBytes
  | .init | .idle | .tok | .giSkip | .stRead | .shSkip | .shLen | .shCheck | .shBody | .shRun | .done | .halt | .fatal => 0

/-- `tx_valid` (R101): in a reply state with a byte left to offer. -/
def State.txValid (s : State) : Bool := s.fst.isReply && decide (s.cntR < s.replyTotal)

/-- `tx_data` (R101): the byte offered, 0 in every other state; nothing where the byte offered has never been written. -/
def State.txData (s : State) : Option Byte :=
  if s.txValid then
    match s.fst with
    | .giReply => (giReplyByte s).toOption
    | .stReply => (stReplyByte s).toOption
    | _ => (shReplyByte s).toOption
  else some 0

/-- The output ports of R21. -/
structure OutPorts where
  linkRelease : Bool
  halted      : Bool
  fatal       : Bool
  rxReady     : Bool
  txValid     : Bool
  txData      : Option Byte
  cmdDone     : Bool
  cmdOutcome  : BitVec 2
  cmdCause    : BitVec 4
  busy        : Bool
  jtagTck     : Bool
  jtagTms     : Bool
  jtagTdi     : Bool
  deriving DecidableEq, Repr

/-- The levels of the output ports, functions of the registers and, for `rx_ready`, of inputs in the same cycle (R22, R100,
R101). -/
def State.outputs (s : State) : OutPorts :=
  { linkRelease := s.linkRelease, halted := s.halted, fatal := s.fatal, rxReady := s.rxReady, txValid := s.txValid,
    txData := s.txData, cmdDone := s.cmdDone, cmdOutcome := s.cmdOutcome, cmdCause := s.cmdCause, busy := s.busy,
    jtagTck := s.tckQ, jtagTms := s.tmsQ, jtagTdi := s.tdiQ }

/-- No line of R100 or R101 applies at the next edge with the present levels: the block waits for the host. -/
def State.waiting (s : State) : Bool :=
  !s.levels.rst &&
    ((s.fst.isRead && !s.levels.shutdown && !s.levels.rxErr && !s.rxValid && !s.levels.rxEof) ||
      (s.txValid && !s.levels.txErr && !s.levels.txReady))

/-- The block waits and the host has no further turn: a hang that the block does have (R175; 93_implementation_defined.md #17,
#18; assumption log 14). -/
def State.hung (s : State) : Bool := s.script.isEmpty && s.waiting

/-- The host's side after its turn `h`, `rest` the turns after it. -/
def takeTurn (h : HostTurn) (rest : List HostTurn) (s : State) : State :=
  { s with levels := h.levels, script := rest, stream := h.attach.getD s.stream }

/-- `h` clears `shutdown` after it was raised, with no reset at the edge just taken nor at the coming one (R175 "until reset",
R192; assumption log 15). `l` holds the levels of the edge just taken. -/
def clearsShutdown (l : Levels) (h : HostTurn) : Bool :=
  !l.rst && !h.levels.rst && l.shutdown && !h.levels.shutdown

/-- The host's turn before an edge: its next levels, and the stream it attaches; with no turn left the levels hold (assumption
log 1). It may not clear `shutdown` before a reset (R175) nor change the stream inside a command cycle (R123). -/
def hostTurn (s : State) : Result :=
  match s.script with
  | [] => .next s
  | h :: rest =>
    if clearsShutdown s.levels h then .refused .shutdownCleared
    else if !h.levels.rst && s.busy && h.attach.isSome then .refused .streamChanged
    else .next (takeTurn h rest s)

/-- The host's turn and the edge after it. -/
def tick (s : State) : Result :=
  match hostTurn s with
  | .next s1 => edge s1
  | .fault f => .fault f
  | .refused r => .refused r

/-- Turns of the clock while a command cycle is in progress, at most `fuel` of them; it stops at a hang, which no further turn
would change. -/
def runCommand : Nat → State → Result
  | 0, s => .next s
  | fuel + 1, s =>
    if s.busy && !s.hung then
      match tick s with
      | .next s1 => runCommand fuel s1
      | .fault f => .fault f
      | .refused r => .refused r
    else .next s

/-- More edges than a command cycle takes that waits for nothing (R200, R201). -/
def cycleEdges (s : State) : Nat :=
  64 + 3 * s.params.capacity + (8 * s.params.capacity + 8) * (s.delayR.toNat + 2)

/-- The block takes `cmd_go` at the edge with the present levels (R102). -/
def State.startsCommand (s : State) : Bool :=
  decide (s.fst = .idle) && !s.levels.rst && !s.levels.shutdown && s.levels.cmdGo

/-- One command cycle on the attached stream (R102, R119): the edge that takes `cmd_go`, then the clock until the block is in
IDLE, HALT or INIT again, or hangs. -/
def commandCycle (s : State) : Result :=
  match edge s with
  | .next s1 => runCommand (s.script.length + cycleEdges s) s1
  | .fault f => .fault f
  | .refused r => .refused r

end Sys2Proof.Machine
end

