-- ==== Sys2Proof/Machine/Commands.lean ====
section
/-! DEFINITION. The meaning of each command: one command cycle (spec 40_framer.md R105, R107, R109, R119) with the command's
bytes (30_encoding.md R82, R84, R85) next on the attached stream. What the block does with them, edge by edge, is in
Machine/Framer.lean, Getinfo.lean, Settck.lean, Shift.lean and Engine.lean. Beside it, taking the next command from the stream and
putting an opcode-table word there. -/

namespace Sys2Proof.Machine

/-- The command at the front of the attached stream, and the state past its bytes (R80, R90); nothing where the bytes are no
whole command. -/
def nextCommand (s : State) : Option (Instr × State) :=
  match decode s.params.capacity s.stream with
  | .ok (i, rest) => some (i, setStream rest s)
  | .error _ => none

/-- `s` with the command of an opcode-table word on the attached stream, in IDLE, and a host that raises `cmd_go`, offers the
bytes and takes the reply (assumption log 3). -/
def placeWord (nbits w : Nat) (s : State) : State :=
  { s with
    fst := .idle, stream := tableStream nbits w, script := [],
    levels := { s.levels with
      rst := false, rxOffer := true, rxEof := false, rxErr := false, txReady := true, txErr := false, cmdGo := true,
      shutdown := false } }

/-- The state with the bytes of `i` next on the stream. -/
def offerCommand (i : Instr) (s : State) : State := setStream (encode i ++ s.stream) s

/-- GETINFO (R105): six bytes discarded, the 20-byte reply. -/
def execGetinfo (rem6 : List Byte) (s : State) : Result := commandCycle (offerCommand (.getinfo rem6) s)

/-- SETTCK (R107): five bytes discarded, the period's four bytes echoed. -/
def execSettck (rem5 : List Byte) (period : Word) (s : State) : Result :=
  commandCycle (offerCommand (.settck rem5 period) s)

/-- SHIFT (R109): the capacity check, the body, the engine, the TDO vector as reply; `Oversize` where the check fails (R113). -/
def execShift (rem4 : List Byte) (len : Word) (tms tdi : List Byte) (s : State) : Result :=
  commandCycle (offerCommand (.shift rem4 len tms tdi) s)

end Sys2Proof.Machine
end

