-- ==== Sys2Proof/Machine/Dispatch.lean ====
section
/-! DEFINITION. The meaning of every command of the opcode table. -/

namespace Sys2Proof.Machine

def exec (i : Instr) (s : State) : Host.Outcome State Fault Refusal :=
  match i with
  | .getinfo rem6 => Sys2Proof.Machine.execGetinfo rem6 s
  | .settck rem5 period => Sys2Proof.Machine.execSettck rem5 period s
  | .shift rem4 len tms tdi => Sys2Proof.Machine.execShift rem4 len tms tdi s

end Sys2Proof.Machine
end

