-- ==== Sys2Proof/Machine/Step.lean ====
section
/-! DEFINITION. One step of the machine: a whole command cycle where the block takes `cmd_go` (spec 40_framer.md R102), one
rising edge everywhere else (assumption log 2). -/

namespace Sys2Proof.Machine

/-- The step after the host's turn. Where a command cycle starts, the command at the front of the stream runs; bytes that are no
whole command go through the framer as they are (R103, R118, R164). -/
def stepAfterTurn (s : State) : Host.Outcome State Fault Refusal :=
  if s.startsCommand then
    match nextCommand s with
    | some (i, s1) => exec i s1
    | none => commandCycle s
  else edge s

/-- One step: the host's turn, then the command cycle or the edge. -/
def step (s : State) : Host.Outcome State Fault Refusal :=
  match hostTurn s with
  | .next s1 => stepAfterTurn s1
  | .fault f => .fault f
  | .refused r => .refused r

/-- `s` with the command of an opcode-table word placed so that the next step runs it (assumption log 3). -/
def State.withFetchWord (s : State) (nbits w : Nat) : State := placeWord nbits w s

end Sys2Proof.Machine
end

