-- ==== Sys2Proof/Safety.lean ====
section
/-! DEFINITION. The terms in which claims speak of runs: hosts that serve the block (spec 60_exceptions.md R175), the flat form
of a shift (41_shift_engine.md R153), several turns of the clock, the invariant of the block (10_state.md R49, R51;
41_shift_engine.md R152) and the state that later behaviour reads between commands (10_state.md R48). -/

namespace Sys2Proof.Machine

/-! ### Hosts -/

/-- The levels with which the host serves a read and a reply at every edge, and raises no condition: bytes offered, replies
taken, no reset, error or shutdown. -/
def Levels.serving (l : Levels) : Bool :=
  l.rxOffer && l.txReady && !l.rst && !l.rxErr && !l.txErr && !l.shutdown

/-- The host holds serving levels and has no further turn. -/
def State.steady (s : State) : Bool := s.script.isEmpty && s.levels.serving

/-- A turn that may make the block wait but raises nothing: no reset, error, shutdown or change of stream, and no end of stream
while no byte is offered. -/
def HostTurn.smooth (h : HostTurn) : Bool :=
  !h.levels.rst && !h.levels.rxErr && !h.levels.txErr && !h.levels.shutdown && h.attach.isNone &&
    (!h.levels.rxEof || h.levels.rxOffer)

/-- The levels that hold once the script is used up. -/
def State.lastLevels (s : State) : Levels :=
  match s.script.getLast? with
  | some h => h.levels
  | none => s.levels

/-- The host makes the block wait at will, raises nothing, and serves it in the end. -/
def State.patient (s : State) : Bool := s.script.all HostTurn.smooth && s.lastLevels.serving

/-- The host's duties of R123 and R175 in its coming turns, `l` the levels of the edge just taken: no stream attached, and
`shutdown` kept at 1 once raised, until a reset. -/
def dutiful : Levels → List HostTurn → Bool
  | _, [] => true
  | l, h :: rest => !clearsShutdown l h && h.attach.isNone && dutiful h.levels rest

/-- The host's turns that lead from `s` to `t`. -/
def turnsTaken (s t : State) : List HostTurn := s.script.take (s.script.length - t.script.length)

/-- No edge from now on has `rst = 1`. -/
def State.noReset (s : State) : Bool := !s.levels.rst && s.script.all fun h => !h.levels.rst

/-! ### The clock -/

/-- `k` turns of the clock. -/
def ticks : Nat → State → Result
  | 0, s => .next s
  | k + 1, s =>
    match tick s with
    | .next s1 => ticks k s1
    | .fault f => .fault f
    | .refused r => .refused r

/-- The next state changed by `f`, a stop left as it is. -/
def Result.map (f : State → State) : Result → Result
  | .next s => .next (f s)
  | .fault e => .fault e
  | .refused r => .refused r

/-- The level of `cmd_go` set. -/
def setGo (b : Bool) (s : State) : State := { s with levels := { s.levels with cmdGo := b } }

/-- The level of `shutdown` set. -/
def setShutdown (b : Bool) (s : State) : State := { s with levels := { s.levels with shutdown := b } }

/-- The host's levels and the attached stream set. -/
def setHostSide (l : Levels) (q : List Byte) (s : State) : State := { s with levels := l, stream := q }

/-- `s` with a host that serves the command at once: the levels that would hold in the end, and no turn before. -/
def State.served (s : State) : State := { s with script := [], levels := { s.lastLevels with cmdGo := true } }

/-! ### The flat form of a shift (R153) -/

/-- The events of one step with the bit's TMS and TDI and the value sampled (R139, R144). -/
def stepEvents (tms tdi v : Bool) : List Event := [.write false tms tdi, .write true tms tdi, .sample v]

/-- The events of a shift of `len` bits, `v i` the value sample `i` returns (R144, R153). -/
def shiftEvents (len : Nat) (tms tdi : List Byte) (v : Nat → Bool) : List Event :=
  (if len = 0 then [] else [.write false (vectorBit tms 0) (vectorBit tdi 0)]) ++
    ((List.range len).flatMap fun i => stepEvents (vectorBit tms i) (vectorBit tdi i) (v i)) ++
    [.write false true false]

/-- Byte `j` of the TDO vector: the samples, and 0 in the bits past `len` (R149, R151, R153). -/
def tdoByte (len : Nat) (v : Nat → Bool) (j : Nat) : Byte :=
  BitVec.ofFnLE fun i : Fin 8 => decide (8 * j + i < len) && v (8 * j + i)

/-- The TDO vector, `ceil(len / 8)` bytes (R91, R149). -/
def tdoVector (len : Nat) (v : Nat → Bool) : List Byte := (List.range ((len + 7) / 8)).map (tdoByte len v)

/-- A pin write (R136). -/
def Event.isWrite : Event → Bool
  | .write _ _ _ => true
  | .consume _ | .emit _ | .sample _ | .done _ _ | .halt | .fatal _ => false

/-- A TDO sample (R137). -/
def Event.isSample : Event → Bool
  | .sample _ => true
  | .consume _ | .emit _ | .write _ _ _ | .done _ _ | .halt | .fatal _ => false

/-- The framer states that may follow a state inside a command cycle, with no reset (R25, R102 to R119, R160). -/
def Fst.next : Fst → List Fst
  | .tok => [.tok, .giSkip, .stRead, .shSkip, .done]
  | .giSkip => [.giSkip, .giReply, .done]
  | .giReply => [.giReply, .done]
  | .stRead => [.stRead, .stReply, .done]
  | .stReply => [.stReply, .done]
  | .shSkip => [.shSkip, .shLen, .done]
  | .shLen => [.shLen, .shCheck, .done]
  | .shCheck => [.shBody, .shRun, .done]
  | .shBody => [.shBody, .shRun, .done]
  | .shRun => [.shRun, .shReply]
  | .shReply => [.shReply, .done]
  | .done => [.idle, .halt]
  | .init => [.idle, .fatal]
  | .idle => [.idle, .tok, .halt]
  | .halt => [.halt]
  | .fatal => [.fatal]

/-- The engine side is untouched: the engine registers, the line registers, and every byte of both buffers. -/
def engineSideKept (s t : State) : Prop :=
  t.est = s.est ∧ t.tmsW = s.tmsW ∧ t.tdiW = s.tdiW ∧ t.tdoW = s.tdoW ∧ t.stepR = s.stepR ∧ t.nstepR = s.nstepR ∧
    t.offR = s.offR ∧ t.bleftR = s.bleftR ∧ t.dlyCnt = s.dlyCnt ∧ t.lines = s.lines ∧
    (∀ a, t.scratch.read a = s.scratch.read a) ∧ (∀ a, t.result.read a = s.result.read a) ∧
    t.tdoDraws = s.tdoDraws ∧ t.draws = s.draws

/-! ### The invariant -/

/-- Both buffers are in canonical form and within their sizes (R45, R46). -/
abbrev State.BuffersOk (s : State) : Prop :=
  s.scratch.wf = true ∧ s.scratch.below s.params.capacity = true ∧
    s.result.wf = true ∧ s.result.below s.params.maxNbytes = true

/-- The outcome and cause registers hold a pair of R161 that a command cycle shows. -/
abbrev State.CodesOk (s : State) : Prop :=
  (s.outcomeR, s.causeR) ∈
    ([(0, 0), (1, 1), (2, 2), (2, 3), (2, 4), (2, 5), (2, 6), (3, 7)] : List (BitVec 2 × BitVec 4))

/-- The counters are within the widths of R30 and R40. -/
abbrev State.CountersOk (s : State) : Prop :=
  s.cntR ≤ max s.params.capacity 20 ∧ s.offR ≤ s.params.maxNbytes ∧ s.bleftR ≤ s.params.maxLen

/-- `CNT_R` within the field of the present state (R30). -/
abbrev State.FieldOk (s : State) : Prop :=
  match s.fst with
  | .tok => s.cntR < 2
  | .giSkip => s.cntR < 6
  | .giReply => s.cntR < 20
  | .stRead => s.cntR < 9
  | .stReply => s.cntR < 4
  | .shSkip => s.cntR < 4
  | .shLen => s.cntR < 4
  | .shBody => s.cntR < 2 * s.nBytes
  | .shReply => s.cntR ≤ s.nBytes
  | .init | .idle | .shCheck | .shRun | .done | .halt | .fatal => True

/-- A served block has a positive delay coefficient (R37, R170). -/
abbrev State.DelayOk (s : State) : Prop := s.fst ≠ .init → s.fst ≠ .fatal → s.delayR ≠ 0

/-- Outside SH_RUN the engine is idle and the lines are at rest (R49, R173). -/
abbrev State.RestOk (s : State) : Prop :=
  s.fst ≠ .shRun → s.lines = restLines ∧ s.est = .eIdle ∧ s.dlyCnt = 0

/-- Every byte of a buffer below `n` has been written. -/
abbrev Memory.filled (m : Memory) (n : Nat) : Prop := ∀ j < n, (m.read j).isSome = true

/-- `NBYTES_R` holds the byte length from the entry to SH_CHECK on (R51), and the shift fits while the framer reads the body,
runs the engine or replies (R112, R113). -/
abbrev State.AcceptedOk (s : State) : Prop :=
  ((s.fst = .shCheck ∨ s.fst = .shBody ∨ s.fst = .shRun ∨ s.fst = .shReply) → s.nbytesR = nbytesOf s.lenR) ∧
    ((s.fst = .shBody ∨ s.fst = .shRun ∨ s.fst = .shReply) → 2 * s.nBytes ≤ s.params.capacity)

/-- The body bytes read so far are in SCRATCH (R114). -/
abbrev State.BodyOk (s : State) : Prop :=
  (s.fst = .shBody → s.scratch.filled s.cntR) ∧ (s.fst = .shRun → s.scratch.filled (2 * s.nBytes))

/-- Within a chunk: `OFF_R` and `BLEFT_R` say how far the shift has come, in whole chunks, and the TDO bytes before the chunk
are in RESULT (R131, R133). -/
abbrev State.ChunkOk (s : State) : Prop :=
  0 < s.bleftR ∧ s.bleftR ≤ s.lenR.toNat ∧ (s.lenR.toNat - s.bleftR) % 32 = 0 ∧
    8 * s.offR = s.lenR.toNat - s.bleftR ∧ s.nstepR.toNat = chunkSteps s.bleftR ∧ s.stepR.toNat < s.nstepR.toNat ∧
    s.result.filled s.offR

/-- What holds in each engine state (R131, R139, R142). -/
abbrev State.EngineOk (s : State) : Prop :=
  s.fst = .shRun →
    s.dlyCnt ≤ s.delayR ∧
      match s.est with
      | .eIdle => False
      | .eStart => s.lines = restLines
      | .eLow => s.ChunkOk
      | .eHigh => s.ChunkOk ∧ s.lines = (false, s.tmsW.getLsbD 0, s.tdiW.getLsbD 0)
      | .eSample => s.ChunkOk ∧ s.lines = (true, s.tmsW.getLsbD 0, s.tdiW.getLsbD 0)
      | .eRest => s.bleftR = 0 ∧ s.result.filled s.nBytes
      | .eFinish => s.bleftR = 0 ∧ s.result.filled s.nBytes ∧ s.lines = restLines

/-- The TDO vector is in RESULT while the framer replies (R116). -/
abbrev State.ReplyOk (s : State) : Prop := s.fst = .shReply → s.result.filled s.nBytes

/-- The invariant of the block. -/
abbrev State.Inv (s : State) : Prop :=
  s.BuffersOk ∧ s.CodesOk ∧ s.CountersOk ∧ s.FieldOk ∧ s.DelayOk ∧ s.RestOk ∧ s.AcceptedOk ∧ s.BodyOk ∧ s.EngineOk ∧
    s.ReplyOk

/-! ### Between commands -/

/-- `s` and `t` agree in all that later behaviour reads at IDLE (R48), the parameters and both sides of the ports included;
they may differ in every dead register, in both buffers and in the past. -/
def sameLive (s t : State) : Prop :=
  s.fst = t.fst ∧ s.delayR = t.delayR ∧ s.lines = t.lines ∧ s.params = t.params ∧ s.levels = t.levels ∧
    s.stream = t.stream ∧ s.script = t.script ∧ s.tdoDraws = t.tdoDraws ∧ s.draws = t.draws

/-- The events `t` has recorded after those of `s`. -/
def eventsSince (s t : State) : List Event := t.trace.drop s.trace.length

end Sys2Proof.Machine
end

