-- ==== Sys2Proof/Certificates/Slice0/Obligations.lean ====
section
/-! DEFINITION. The statements about the model, each from the rules of the spec its docstring names. -/

open Sys2Proof Sys2Proof.Machine

/-! ### Encoding -/

/-- R83: the byte length is the exact ceiling for every 32-bit bit count, at most 2^29, and the capacity check compares
without wrap. -/
def Obligations.ByteLengthIsExactCeiling : Prop :=
  ∀ (len : Word) (cap : Nat),
    (nbytesOf len).toNat = ceilBytes len ∧ (nbytesOf len).toNat ≤ 2 ^ 29 ∧
      (fitsCapacity cap (nbytesOf len) = true ↔ 2 * ceilBytes len ≤ cap)

/-- Decoding the bytes of a well-formed command, whatever follows them, gives the command and what follows. -/
def Obligations.DecodeOfEncode : Prop :=
  ∀ (cap : Nat) (i : Instr) (rest : List Byte), i.wellFormed cap = true → decode cap (encode i ++ rest) = .ok (i, rest)

/-- What the decoder reads is a well-formed command whose bytes, put back before the rest, are the bytes read. -/
def Obligations.EncodeOfDecode : Prop :=
  ∀ (cap : Nat) (bs : List Byte) (i : Instr) (rest : List Byte),
    decode cap bs = .ok (i, rest) → encode i ++ rest = bs ∧ i.wellFormed cap = true

/-- R81, R88, R89: two bytes are rejected as an illegal token exactly when they are none of the three tokens. -/
def Obligations.IllegalTokensRejected : Prop :=
  ∀ (cap : Nat) (b0 b1 : Byte) (bs : List Byte),
    decode cap (b0 :: b1 :: bs) = .error (.illegalToken (tokenOf b0 b1)) ↔
      (b0, b1) ≠ (0x67, 0x65) ∧ (b0, b1) ≠ (0x73, 0x65) ∧ (b0, b1) ≠ (0x73, 0x68)

/-- R90: the lengths of the commands. -/
def Obligations.CommandLengths : Prop :=
  ∀ (cap : Nat) (i : Instr), i.wellFormed cap = true →
    (encode i).length =
      match i with
      | .getinfo _ => 8
      | .settck _ _ => 11
      | .shift _ len _ _ => if 2 * ceilBytes len ≤ cap then 10 + 2 * ceilBytes len else 10

/-- The token words of the opcode table and the three commands of the spec's assembly notation decode to their commands (R81,
R92). -/
def Obligations.SpecWordsDecode : Prop :=
  decodeTableWord 16 0x6765 = some (.getinfo [0, 0, 0, 0, 0, 0]) ∧
    decodeTableWord 16 0x7365 = some (.settck [0, 0, 0, 0, 0] 0) ∧
    decodeTableWord 16 0x7368 = some (.shift [0, 0, 0, 0] 0 [] []) ∧
    decode 2048 [0x67, 0x65, 0x74, 0x69, 0x6E, 0x66, 0x6F, 0x3A] =
      .ok (.getinfo [0x74, 0x69, 0x6E, 0x66, 0x6F, 0x3A], []) ∧
    decode 2048 [0x73, 0x65, 0x74, 0x74, 0x63, 0x6B, 0x3A, 0x64, 0x00, 0x00, 0x00] =
      .ok (.settck [0x74, 0x74, 0x63, 0x6B, 0x3A] 100, []) ∧
    decode 2048 [0x73, 0x68, 0x69, 0x66, 0x74, 0x3A, 0x08, 0x00, 0x00, 0x00, 0x00, 0xA5] =
      .ok (.shift [0x69, 0x66, 0x74, 0x3A] 8 [0x00] [0xA5], [])

/-! ### Reset, setup, IDLE, the terminal states -/

/-- R190: a rising edge with `rst = 1` in any state. The lines' change is no event. -/
def Obligations.ResetEdgeResetsEveryState : Prop :=
  ∀ s : State, s.levels.rst = true →
    ∃ t, edge s = .next t ∧ t.fst = .init ∧ t.est = .eIdle ∧ t.delayR = s.levels.cfgDelay ∧ t.lines = (false, true, false) ∧
      t.outcomeR = 0 ∧ t.causeR = 0 ∧ t.cntR = 0 ∧ t.dlyCnt = 0 ∧ t.trace = s.trace

/-- The state after reset (R50, R192) and its outputs. That `cfg_delay` is 40 and the lines are acquired there is the model's
choice (assumption log 7). -/
def Obligations.StateAtReset : Prop :=
  State.reset.fst = .init ∧ State.reset.cntR = 0 ∧ State.reset.outcomeR = 0 ∧ State.reset.causeR = 0 ∧
    State.reset.delayR = State.reset.levels.cfgDelay ∧ State.reset.delayR = 40 ∧ State.reset.est = .eIdle ∧
    State.reset.dlyCnt = 0 ∧ State.reset.lines = (false, true, false) ∧ State.reset.stream = [] ∧ State.reset.trace = [] ∧
    State.reset.outputs =
      { linkRelease := false, halted := false, fatal := false, rxReady := false, txValid := false, txData := some 0,
        cmdDone := false, cmdOutcome := 0, cmdCause := 0, busy := false, jtagTck := false, jtagTms := true, jtagTdi := false }

/-- R170: the setup checks at the first edge after reset is released. -/
def Obligations.SetupChecks : Prop :=
  ∀ s : State, s.fst = .init → s.levels.rst = false →
    edge s =
      .next
        (if s.levels.linkAcquired = false then { s with fst := .fatal, trace := s.trace ++ [.fatal .setupFail] }
        else if s.delayR = 0 then { s with fst := .fatal, trace := s.trace ++ [.fatal .badDelay] }
        else { s with fst := .idle })

/-- R102: the edge in IDLE. -/
def Obligations.IdleEdge : Prop :=
  ∀ s : State, s.fst = .idle → s.levels.rst = false →
    edge s =
      .next
        (if s.levels.shutdown = true then { s with fst := .halt, trace := s.trace ++ [.halt] }
        else if s.levels.cmdGo = true then { s with fst := .tok, cntR := 0 }
        else s)

/-- R177, R178: in HALT and FATAL no input but `rst` has any effect on the block, and the outputs are as stated. -/
def Obligations.TerminalStatesStay : Prop :=
  ∀ s t : State, (s.fst = .halt ∨ s.fst = .fatal) → tick s = .next t → t.levels.rst = false →
    t = { s with levels := t.levels, script := t.script, stream := t.stream } ∧
      t.outputs.linkRelease = true ∧ t.outputs.rxReady = false ∧ t.outputs.txValid = false ∧ t.outputs.cmdDone = false ∧
      t.outputs.busy = false ∧ t.outputs.halted = decide (s.fst = .halt) ∧ t.outputs.fatal = decide (s.fst = .fatal)

/-- R22, R100, R101: the output ports as functions of the registers; in a reply state with a byte left that byte is offered. -/
def Obligations.OutputPortLevels : Prop :=
  ∀ s : State,
    s.outputs.jtagTck = s.tckQ ∧ s.outputs.jtagTms = s.tmsQ ∧ s.outputs.jtagTdi = s.tdiQ ∧
      (s.outputs.busy = true ↔ s.fst ≠ .init ∧ s.fst ≠ .idle ∧ s.fst ≠ .halt ∧ s.fst ≠ .fatal) ∧
      (s.outputs.cmdDone = true ↔ s.fst = .done) ∧
      (s.fst = .done → s.outputs.cmdOutcome = s.outcomeR ∧ s.outputs.cmdCause = s.causeR) ∧
      (s.fst ≠ .done → s.outputs.cmdOutcome = 0 ∧ s.outputs.cmdCause = 0) ∧
      (s.outputs.halted = true ↔ s.fst = .halt) ∧ (s.outputs.fatal = true ↔ s.fst = .fatal) ∧
      s.outputs.linkRelease = (s.outputs.halted || s.outputs.fatal) ∧
      (s.outputs.rxReady = true ↔ s.fst.isRead = true ∧ s.levels.shutdown = false ∧ s.levels.rxErr = false) ∧
      (s.outputs.txValid = true → s.fst.isReply = true) ∧ (s.fst.isReply = false → s.outputs.txData = some 0) ∧
      (s.fst = .giReply → s.cntR < 20 → s.outputs.txValid = true ∧ s.outputs.txData = infoBytes[s.cntR]?) ∧
      (s.fst = .stReply → s.cntR < 4 → s.outputs.txValid = true ∧ s.outputs.txData = some (byteOf s.echoR s.cntR)) ∧
      (s.fst = .shReply → s.cntR < s.nBytes →
        s.outputs.txValid = true ∧ (s.nBytes ≤ s.params.maxNbytes → s.outputs.txData = s.result.read s.cntR))

/-- R179: INIT is entered only by reset, HALT only from IDLE or DONE, FATAL only from INIT, and serving only from INIT. -/
def Obligations.PhaseOrder : Prop :=
  ∀ s t : State, edge s = .next t → t.fst ≠ s.fst →
    (t.fst = .init → s.levels.rst = true) ∧ (t.fst = .halt → s.fst = .idle ∨ s.fst = .done) ∧
      (t.fst = .fatal → s.fst = .init) ∧ ((s.fst = .halt ∨ s.fst = .fatal) → t.fst = .init)

/-- R25: without a reset the framer moves forward through one command's states, then to DONE, then to IDLE or HALT. -/
def Obligations.FramerStateOrder : Prop :=
  ∀ s t : State, s.levels.rst = false → edge s = .next t → t.fst ∈ s.fst.next

/-! ### The stream primitives and the conditions -/

/-- R30, R100, R163 to R165, R169, R172: an edge in a read state. That the dispatch, and with it the end by an illegal token, is
made at the second token byte's edge is the model's choice (assumption log 18). -/
def Obligations.ReadEdgeOrder : Prop :=
  ∀ s : State, s.fst.isRead = true → s.levels.rst = false →
    (s.levels.shutdown = true → edge s = .next (raiseCond .shutdown s)) ∧
      (s.levels.shutdown = false → s.levels.rxErr = true → edge s = .next (raiseCond .readError s)) ∧
      (s.levels.shutdown = false → s.levels.rxErr = false → s.rxValid = true →
        ∃ b rest, s.stream = b :: rest ∧
          ∀ t, edge s = .next t →
            t.stream = rest ∧ (t.fst = s.fst → t.cntR = s.cntR + 1) ∧
              (t.fst ≠ s.fst → (t.fst.isRead || t.fst.isReply) = true → t.cntR = 0) ∧
              if s.fst = .tok ∧ s.cntR ≠ 0 ∧
                  tokenOf (s.tokR.extractLsb' 8 8) b ∉ [tokenGetinfo, tokenSettck, tokenShift] then
                t.fst = .done ∧ t.trace = s.trace ++ [.consume b, .done .closeError .badToken]
              else t.fst ≠ .done ∧ t.trace = s.trace ++ [.consume b]) ∧
      (s.levels.shutdown = false → s.levels.rxErr = false → s.rxValid = false → s.levels.rxEof = true →
        edge s = .next (raiseCond (if s.fst = .tok ∧ s.cntR = 0 then .cleanClose else .shortRead) s)) ∧
      (s.levels.shutdown = false → s.levels.rxErr = false → s.rxValid = false → s.levels.rxEof = false → edge s = .next s)

/-- R101, R116, R168: an edge in a reply state with a byte left, and with the byte offered written. `shutdown` has no part. -/
def Obligations.ReplyEdgeOrder : Prop :=
  ∀ (s : State) (b : Byte), s.levels.rst = false → s.txValid = true → s.txData = some b →
    edge s =
      .next
        (if s.levels.txErr = true then raiseCond .writeError s
        else if s.levels.txReady = true then
          if s.cntR + 1 = s.replyTotal then finish .cont .none (emitByte b s) else emitByte b s
        else s)

/-- R103, R104, R118: the two bytes of the token and the dispatch. That it takes one edge a byte and dispatches at the second
byte's edge is the model's choice (assumption log 18). -/
def Obligations.TokenDispatch : Prop :=
  ∀ (s : State) (b0 b1 : Byte) (rest : List Byte), s.fst = .tok → s.cntR = 0 → s.steady = true →
    s.stream = b0 :: b1 :: rest →
    ticks 2 s =
      .next
        (let u := { s with tokR := tokenOf b0 b1, cntR := 0, stream := rest, trace := s.trace ++ [.consume b0, .consume b1] }
        if tokenOf b0 b1 = 0x6765 then { u with fst := .giSkip }
        else if tokenOf b0 b1 = 0x7365 then { u with fst := .stRead }
        else if tokenOf b0 b1 = 0x7368 then { u with fst := .shSkip }
        else raiseCond .badToken u)

/-- R160 to R162: what raising a condition leaves in the registers and on the ports, for every condition of R161. -/
def Obligations.ConditionCodes : Prop :=
  (∀ (x : Cond) (s : State),
    raiseCond x s =
        { s with fst := .done, outcomeR := x.outcome.code, causeR := x.cause.code,
                 trace := s.trace ++ [.done x.outcome x.cause] } ∧
      (raiseCond x s).outputs.cmdDone = true ∧ (raiseCond x s).outputs.cmdOutcome = x.outcome.code ∧
      (raiseCond x s).outputs.cmdCause = x.cause.code) ∧
    ([Cond.cleanClose, .shortRead, .readError, .badToken, .oversize, .writeError, .shutdown].map
        fun x => (x.outcome.code.toNat, x.cause.code.toNat)) =
      [(1, 1), (2, 2), (2, 3), (2, 4), (2, 5), (2, 6), (3, 7)]

/-- R119, R174: DONE lasts one cycle; then HALT after SHUTDOWN, else IDLE. On CLOSE and CLOSE_ERROR the host drops the unread
bytes (R175; assumption log 16). -/
def Obligations.ReturnFromDone : Prop :=
  ∀ s : State, s.fst = .done → s.levels.rst = false → s.causeR.toNat < 10 →
    edge s =
      .next
        (if s.outcomeR = 3 then { s with fst := .halt, trace := s.trace ++ [.halt] }
        else if s.outcomeR = 0 then { s with fst := .idle }
        else { s with fst := .idle, stream := [] })

/-- R100, R175: a hang is one: a block that waits for a host with no further turn does not change. -/
def Obligations.HangStays : Prop := ∀ s : State, s.hung = true → tick s = .next s

/-- R123, R175: a change of stream inside a command cycle and a cleared `shutdown` are refused, unless the block is reset; and
after a reset edge `shutdown` may be cleared, so that the setup checks follow (R191, R192). -/
def Obligations.HostDutyBreachRefused : Prop :=
  ∀ (s : State) (h : HostTurn) (rest : List HostTurn), s.script = h :: rest → h.levels.rst = false →
    (s.levels.rst = false → s.levels.shutdown = true → h.levels.shutdown = false → step s = .refused .shutdownCleared) ∧
      ((s.levels.shutdown = true → h.levels.shutdown = true) → s.busy = true → h.attach.isSome = true →
        step s = .refused .streamChanged) ∧
      (s.levels.rst = true → s.fst = .init → step s = edge (takeTurn h rest s))

/-! ### The commands -/

/-- A step where a command cycle starts is `exec` of the command decoded from the stream, in the state after the host's turn
and past the command's bytes. -/
def Obligations.StepRunsDecodedCommand : Prop :=
  ∀ (s s1 : State) (i : Instr) (rest : List Byte), hostTurn s = .next s1 → s1.startsCommand = true →
    decode s1.params.capacity s1.stream = .ok (i, rest) → step s = exec i { s1 with stream := rest }

/-- Decoding a whole command and running it is what the framer does byte by byte: a step where a command cycle starts is the
command cycle on the stream as it is. -/
def Obligations.StepIsFramerRun : Prop :=
  ∀ s s1 : State, hostTurn s = .next s1 → s1.startsCommand = true → step s = commandCycle s1

/-- R105, R106: GETINFO with a serving host, whatever its six bytes are. -/
def Obligations.GetinfoCompletes : Prop :=
  ∀ (s : State) (rem6 : List Byte), s.startsCommand = true → s.steady = true → rem6.length = 6 →
    exec (.getinfo rem6) s =
      .next
        { s with
          cntR := 20, tokR := 0x6765, outcomeR := 0, causeR := 0,
          trace := s.trace ++ (encode (.getinfo rem6)).map .consume ++ infoBytes.map .emit ++ [.done .cont .none] }

/-- R107, R108: SETTCK with a serving host, for every period; `DELAY_R` and everything else but the registers named is
unchanged. -/
def Obligations.SettckCompletes : Prop :=
  ∀ (s : State) (rem5 : List Byte) (period : Word), s.startsCommand = true → s.steady = true → rem5.length = 5 →
    exec (.settck rem5 period) s =
      .next
        { s with
          cntR := 4, tokR := 0x7365, echoR := period, outcomeR := 0, causeR := 0,
          trace :=
            s.trace ++ (encode (.settck rem5 period)).map .consume ++ (wordBytes period).map .emit ++ [.done .cont .none] }

/-- R109, R114 to R116, R131, R153: an accepted SHIFT with a serving host. The events are those of the flat form, the reply is
the TDO vector of the samples drawn, and both buffers hold the vectors. -/
def Obligations.ShiftCompletes : Prop :=
  ∀ (s : State) (rem4 : List Byte) (len : Word) (tms tdi : List Byte), s.startsCommand = true → s.steady = true →
    (Instr.shift rem4 len tms tdi).wellFormed s.params.capacity = true → 2 * ceilBytes len ≤ s.params.capacity →
    ∃ t, exec (.shift rem4 len tms tdi) s = .next t ∧ t.fst = .idle ∧
      t.trace =
        s.trace ++ (encode (.shift rem4 len tms tdi)).map .consume ++ shiftEvents len.toNat tms tdi s.drawValue ++
          (tdoVector len.toNat s.drawValue).map .emit ++ [.done .cont .none] ∧
      t.tokR = 0x7368 ∧ t.lenR = len ∧ t.nbytesR = nbytesOf len ∧ t.outcomeR = 0 ∧ t.causeR = 0 ∧ t.est = .eIdle ∧
      t.lines = (false, true, false) ∧ t.dlyCnt = 0 ∧
      (∀ a, t.scratch.read a =
        if a < ceilBytes len then tms[a]? else if a < 2 * ceilBytes len then tdi[a - ceilBytes len]? else s.scratch.read a) ∧
      (∀ a, t.result.read a = if a < ceilBytes len then (tdoVector len.toNat s.drawValue)[a]? else s.result.read a) ∧
      t.echoR = s.echoR ∧ t.delayR = s.delayR ∧ t.params = s.params ∧ t.levels = s.levels ∧ t.stream = s.stream ∧
      t.script = s.script ∧ t.tdoDraws = s.tdoDraws.drop len.toNat ∧ t.draws = s.draws + len.toNat

/-- R113, R167: a SHIFT that does not fit with a serving host: ten bytes consumed, nothing emitted, no line changed, and the
connection closed. -/
def Obligations.OversizeShiftEndsCommand : Prop :=
  ∀ (s : State) (rem4 : List Byte) (len : Word), s.startsCommand = true → s.steady = true → rem4.length = 4 →
    s.params.capacity < 2 * ceilBytes len →
    exec (.shift rem4 len [] []) s =
      .next
        { s with
          cntR := 4, tokR := 0x7368, lenR := len, nbytesR := nbytesOf len, outcomeR := 2, causeR := 5, stream := [],
          trace := s.trace ++ (encode (.shift rem4 len [] [])).map .consume ++ [.done .closeError .oversize] }

/-- R117 (a), R143: a SHIFT of no bits with a serving host makes the rest write only and replies nothing. -/
def Obligations.ZeroLengthShiftCompletes : Prop :=
  ∀ (s : State) (rem4 : List Byte), s.startsCommand = true → s.steady = true → rem4.length = 4 →
    exec (.shift rem4 0 [] []) s =
      .next
        { s with
          cntR := 0, tokR := 0x7368, lenR := 0, nbytesR := 0, outcomeR := 0, causeR := 0, est := .eIdle, offR := 0,
          bleftR := 0, dlyCnt := 0, tckQ := false, tmsQ := true, tdiQ := false,
          trace :=
            s.trace ++ (encode (.shift rem4 0 [] [])).map .consume ++ [.write false true false, .done .cont .none] }

/-- R118, R166: a step on a stream that begins with an illegal token, with a serving host. -/
def Obligations.IllegalTokenEndsCommand : Prop :=
  ∀ (s : State) (b0 b1 : Byte) (rest : List Byte), s.startsCommand = true → s.steady = true → s.stream = b0 :: b1 :: rest →
    (b0, b1) ≠ (0x67, 0x65) → (b0, b1) ≠ (0x73, 0x65) → (b0, b1) ≠ (0x73, 0x68) →
    step s =
      .next
        { s with
          cntR := 0, tokR := tokenOf b0 b1, outcomeR := 2, causeR := 4, stream := [],
          trace := s.trace ++ [.consume b0, .consume b1, .done .closeError .badToken] }

/-- R105: what GETINFO leaves as it was, whatever the host does but a reset. -/
def Obligations.GetinfoFrame : Prop :=
  ∀ (s t : State) (rem6 : List Byte), s.startsCommand = true → s.noReset = true → exec (.getinfo rem6) s = .next t →
    rem6.length = 6 →
    engineSideKept s t ∧ t.lenR = s.lenR ∧ t.nbytesR = s.nbytesR ∧ t.echoR = s.echoR ∧ t.delayR = s.delayR ∧
      t.params = s.params

/-- R107, R108: what SETTCK leaves as it was, whatever the host does but a reset; `ECHO_R` is its one destination. -/
def Obligations.SettckFrame : Prop :=
  ∀ (s t : State) (rem5 : List Byte) (period : Word), s.startsCommand = true → s.noReset = true →
    exec (.settck rem5 period) s = .next t → rem5.length = 5 →
    engineSideKept s t ∧ t.lenR = s.lenR ∧ t.nbytesR = s.nbytesR ∧ t.delayR = s.delayR ∧ t.params = s.params

/-- R109, R113, R114, R152: what SHIFT leaves as it was, whatever the host does but a reset: SCRATCH at and above `2n`, RESULT
at and above `n`, and the whole engine side where the capacity check fails. -/
def Obligations.ShiftFrame : Prop :=
  ∀ (s t : State) (rem4 : List Byte) (len : Word) (tms tdi : List Byte), s.startsCommand = true → s.noReset = true →
    (Instr.shift rem4 len tms tdi).wellFormed s.params.capacity = true →
    exec (.shift rem4 len tms tdi) s = .next t →
    t.echoR = s.echoR ∧ t.delayR = s.delayR ∧ t.params = s.params ∧
      (∀ a, 2 * (nbytesOf len).toNat ≤ a → t.scratch.read a = s.scratch.read a) ∧
      (∀ a, (nbytesOf len).toNat ≤ a → t.result.read a = s.result.read a) ∧
      (fitsCapacity s.params.capacity (nbytesOf len) = false → engineSideKept s t)

/-- R144: the pin writes and samples of an accepted SHIFT, in their order and in number. -/
def Obligations.ShiftEventCount : Prop :=
  ∀ (s : State) (rem4 : List Byte) (len : Word) (tms tdi : List Byte), s.startsCommand = true → s.steady = true →
    (Instr.shift rem4 len tms tdi).wellFormed s.params.capacity = true → 2 * ceilBytes len ≤ s.params.capacity →
    ∃ t, exec (.shift rem4 len tms tdi) s = .next t ∧
      ((eventsSince s t).filter fun e => e.isWrite || e.isSample) = shiftEvents len.toNat tms tdi s.drawValue ∧
      (eventsSince s t).countP Event.isWrite = (if len = 0 then 1 else 2 * len.toNat + 2) ∧
      (eventsSince s t).countP Event.isSample = len.toNat

/-- R149, R151: the reply's bit `i` is what sample `i` returned, and 0 past the bit count. -/
def Obligations.ReplyBitsAreSamples : Prop :=
  ∀ (s : State) (rem4 : List Byte) (len : Word) (tms tdi : List Byte), s.startsCommand = true → s.steady = true →
    (Instr.shift rem4 len tms tdi).wellFormed s.params.capacity = true → 2 * ceilBytes len ≤ s.params.capacity →
    ∃ t before reply, exec (.shift rem4 len tms tdi) s = .next t ∧
      t.trace = before ++ reply.map .emit ++ [.done .cont .none] ∧ reply.length = ceilBytes len ∧
      ∀ i < 8 * ceilBytes len, vectorBit reply i = (decide (i < len.toNat) && s.drawValue i)

/-- R150: with a target that returns each TDI bit, the reply is the TDI vector in every bit below the bit count, and byte for
byte when the unused TDI bits are 0. -/
def Obligations.IdentityTarget : Prop :=
  ∀ (s : State) (rem4 : List Byte) (len : Word) (tms tdi : List Byte), s.startsCommand = true → s.steady = true →
    (Instr.shift rem4 len tms tdi).wellFormed s.params.capacity = true → 2 * ceilBytes len ≤ s.params.capacity →
    (∀ i < len.toNat, s.drawValue i = vectorBit tdi i) →
    ∃ t before reply, exec (.shift rem4 len tms tdi) s = .next t ∧
      t.trace = before ++ reply.map .emit ++ [.done .cont .none] ∧ reply.length = ceilBytes len ∧
      (∀ i < len.toNat, vectorBit reply i = vectorBit tdi i) ∧
      ((∀ i, len.toNat ≤ i → i < 8 * ceilBytes len → vectorBit tdi i = false) → reply = tdi)

/-- R72, R73: the events of a command cycle, whatever the host does: bytes consumed in stream order, then the engine's writes and
samples (none but for a shift), then the reply's bytes, then `Done`, then `Halt` after a shutdown. -/
def Obligations.EventOrderInACommand : Prop :=
  ∀ (s t : State) (i : Instr), s.startsCommand = true → exec i s = .next t →
    ∃ (consumed emitted : List Byte) (engine last : List Event),
      t.trace = s.trace ++ consumed.map .consume ++ engine ++ emitted.map .emit ++ last ∧
        consumed <+: encode i ++ s.stream ∧ (engine.all fun e => e.isWrite || e.isSample) = true ∧
        (match i with
          | .getinfo _ | .settck _ _ => engine = []
          | .shift _ _ _ _ => True) ∧
        (last = [] ∨ (∃ o c, last = [.done o c]) ∨ last = [.done .shutdown .shutdown, .halt])

/-! ### The framer's check, the engine -/

/-- R51, R111 to R113: the edge in SH_LEN that takes the last length byte and writes `NBYTES_R`, and the edge in SH_CHECK. With no
body the framer goes straight to SH_RUN (R114; assumption log 11). That `NBYTES_R` is written at both edges is the model's choice
(assumption log 28). -/
def Obligations.CapacityCheckEdge : Prop :=
  ∀ s : State, s.levels.rst = false →
    (∀ (b : Byte) (rest : List Byte) (len : Word), s.fst = .shLen → s.cntR = 3 → s.levels.serving = true →
      s.stream = b :: rest → len = le32 (byteOf s.lenR 0) (byteOf s.lenR 1) (byteOf s.lenR 2) b →
      edge s =
        .next
          { s with
            stream := rest, cntR := 4, lenR := len, nbytesR := nbytesOf len, fst := .shCheck,
            trace := s.trace ++ [.consume b] }) ∧
      (s.fst = .shCheck →
        edge s =
          .next
            (if s.params.capacity < 2 * ceilBytes s.lenR then raiseCond .oversize { s with nbytesR := nbytesOf s.lenR }
            else if s.lenR = 0 then { s with nbytesR := nbytesOf s.lenR, cntR := 0, fst := .shRun, est := .eStart }
            else { s with nbytesR := nbytesOf s.lenR, cntR := 0, fst := .shBody }))

/-- R41: the line registers are written only by a pin write, all three at the same edge and with its event, and by reset;
otherwise they hold their values. They drive the line ports. -/
def Obligations.LinesChangeOnlyByPinWrites : Prop :=
  ∀ s t : State, edge s = .next t →
    (if s.levels.rst = true then t.lines = (false, true, false)
    else
      (∃ tck tms tdi, t.lines = (tck, tms, tdi) ∧ t.trace = s.trace ++ [.write tck tms tdi]) ∨
        (t.lines = s.lines ∧ ∃ more, t.trace = s.trace ++ more ∧ (more.any Event.isWrite) = false)) ∧
      (t.outputs.jtagTck, t.outputs.jtagTms, t.outputs.jtagTdi) = t.lines

/-- R148 (a), (b): TCK rises only at the TCK-high write of a step, and TMS and TDI keep their levels at every edge after which TCK is
high. -/
def Obligations.LineDiscipline : Prop :=
  ∀ s t : State, s.Inv → s.levels.rst = false → edge s = .next t →
    (s.tckQ = false → t.tckQ = true → s.fst = .shRun ∧ s.est = .eHigh) ∧
      (t.tckQ = true → t.tmsQ = s.tmsQ ∧ t.tdiQ = s.tdiQ)

/-- R137, R139, R145: the sample edge of every step records the draw's value, or `TDO_FAIL_VALUE` for a failed read, changes no
line and raises nothing. In a step that is not its chunk's last the value goes to bit `STEP_R` of `TDO_W` and the shift goes on
in the chunk. That the words shift, and a chunk ends, at this edge is the model's choice (assumption log 9). -/
def Obligations.SampleTakesTheDraw : Prop :=
  ∀ (s : State) (v : Bool), s.fst = .shRun → s.est = .eSample → s.levels.rst = false →
    v = (if (s.draw 0).fail then s.params.tdoFail else (s.draw 0).level) →
    (∀ t, edge s = .next t →
      t.trace = s.trace ++ [.sample v] ∧ t.lines = s.lines ∧ t.fst = .shRun ∧ (t.est = .eLow ∨ t.est = .eRest) ∧
        t.draws = s.draws + 1 ∧ ∀ k, t.draw k = s.draw (k + 1)) ∧
      (s.stepR.toNat + 1 < s.nstepR.toNat → s.nstepR.toNat ≤ 32 →
        ∃ t, edge s = .next t ∧ (∀ i < 32, t.tdoW.getLsbD i = if i = s.stepR.toNat then v else s.tdoW.getLsbD i) ∧
          t.est = .eLow ∧ t.stepR.toNat = s.stepR.toNat + 1 ∧ t.tmsW = s.tmsW >>> 1 ∧ t.tdiW = s.tdiW >>> 1)

/-- R138: while a delay runs, `DLY_CNT` edges change nothing but `DLY_CNT`, and the engine acts at the edge after them: so after
a TCK-low write and after the rest write (`DLY_CNT = DELAY_R`) the next action comes `DELAY_R + 1` edges later. After a TCK-high
write the next edge samples (R137), the edges after it only count, and the next write again comes `DELAY_R + 1` edges after the
TCK-high write, whether the step is its chunk's last or not. That the edges of a delay change nothing but `DLY_CNT`, with every
word shift, chunk store and chunk load made at the edge of the SETUP write or of a sample, where R138 only says that stores and
loads fall within these cycles, is the model's choice (assumption log 9). -/
def Obligations.ActionsAreDelayApart : Prop :=
  ∀ s : State, s.fst = .shRun → s.script = [] → s.levels.rst = false →
    ((s.est = .eLow ∨ s.est = .eHigh ∨ s.est = .eRest ∨ s.est = .eFinish) →
      (∀ k ≤ s.dlyCnt.toNat, ticks k s = .next { s with dlyCnt := s.dlyCnt - BitVec.ofNat 32 k }) ∧
        ticks (s.dlyCnt.toNat + 1) s =
          .next
            (let u := { s with dlyCnt := 0 }
            match s.est with
            | .eLow => lowWrite u
            | .eHigh => highWrite u
            | .eRest => restWrite u
            | .eIdle | .eStart | .eSample | .eFinish => engineDone u)) ∧
      (s.est = .eSample → s.dlyCnt = s.delayR → s.delayR ≠ 0 →
        ∀ t, tick s = .next t →
          t.trace = s.trace ++ [.sample (s.drawValue 0)] ∧ t.lines = s.lines ∧
            (∀ k < s.delayR.toNat, ticks (k + 1) s = .next { t with dlyCnt := s.delayR - BitVec.ofNat 32 (k + 1) }) ∧
            ticks (s.delayR.toNat + 1) s =
              .next (if t.est = .eLow then lowWrite { t with dlyCnt := 0 } else restWrite { t with dlyCnt := 0 }))

/-- R131, R139: one whole step of a shift, from the edge at which its TCK-low write is due to the edge at which the next write is
due, and that write. In a chunk's last step the store, and the next chunk's load or the turn to REST, fall within the same
`2 * (DELAY_R + 1)` edges and add none (R138). -/
def Obligations.StepOfAShift : Prop :=
  ∀ s u : State, s.fst = .shRun → s.est = .eLow → s.script = [] → s.levels.rst = false → s.dlyCnt = 0 → s.delayR ≠ 0 →
    u = { s with
          tckQ := true, tmsQ := s.tmsW.getLsbD 0, tdiQ := s.tdiW.getLsbD 0, tmsW := s.tmsW >>> 1, tdiW := s.tdiW >>> 1,
          tdoW := setBit s.tdoW s.stepR.toNat (s.drawValue 0), stepR := s.stepR + 1, tdoDraws := s.tdoDraws.tail,
          draws := s.draws + 1,
          trace := s.trace ++ stepEvents (s.tmsW.getLsbD 0) (s.tdiW.getLsbD 0) (s.drawValue 0) } →
    (s.stepR.toNat + 1 < s.nstepR.toNat →
      ticks (2 * (s.delayR.toNat + 1)) s = .next u ∧ ticks (2 * (s.delayR.toNat + 1) + 1) s = .next (lowWrite u)) ∧
      (s.stepR.toNat + 1 = s.nstepR.toNat →
        ∀ s1, chunkStore u = .ok s1 →
          (∀ s2, 0 < s1.bleftR → chunkLoad s1 = .ok s2 →
            ticks (2 * (s.delayR.toNat + 1)) s = .next (setEst .eLow s2) ∧
              ticks (2 * (s.delayR.toNat + 1) + 1) s = .next (lowWrite (setEst .eLow s2))) ∧
            (s1.bleftR = 0 →
              ticks (2 * (s.delayR.toNat + 1)) s = .next (setEst .eRest s1) ∧
                ticks (2 * (s.delayR.toNat + 1) + 1) s = .next (restWrite (setEst .eRest s1))))

/-- R148 (c), R199: the lines in every step of every shift, a chunk's last one among them, counted from the edge at which the
TCK-low write is due: TCK low for `DELAY_R + 1` cycles, then high for exactly `DELAY_R + 1` cycles, then low again, with TMS and
TDI at the step's bits all the while TCK keeps its level. -/
def Obligations.LineLevelsInAStep : Prop :=
  ∀ s : State, s.Inv → s.fst = .shRun → s.est = .eLow → s.script = [] → s.levels.rst = false → s.dlyCnt = 0 →
    (∀ k, 1 ≤ k → k ≤ s.delayR.toNat + 1 →
      ∃ t, ticks k s = .next t ∧ t.lines = (false, s.tmsW.getLsbD 0, s.tdiW.getLsbD 0)) ∧
      (∀ k, s.delayR.toNat + 2 ≤ k → k ≤ 2 * (s.delayR.toNat + 1) →
        ∃ t, ticks k s = .next t ∧ t.lines = (true, s.tmsW.getLsbD 0, s.tdiW.getLsbD 0)) ∧
      ∃ t, ticks (2 * (s.delayR.toNat + 1) + 1) s = .next t ∧ t.tckQ = false

/-- R146, R201: from the first write of a started shift, made between `s` and `s1`, to the completion report takes exactly the
edges of R201, whatever the host does but a reset; at every edge before, the block is in SH_RUN. That the first write is made at
the first edge in SH_RUN and SH_REPLY entered at the edge of the report, which R200 leaves free, is the model's choice
(assumption log 18). -/
def Obligations.ShiftDuration : Prop :=
  ∀ s s1 : State, s.Inv → s.fst = .shRun → s.est = .eStart → s.noReset = true →
    dutiful s.levels s.script = true → tick s = .next s1 →
    (∃ w : Event, w.isWrite = true ∧ s1.trace = s.trace ++ [w]) ∧
      ∃ t,
        ticks ((if s.lenR = 0 then 1 else 2 * s.lenR.toNat + 2) * (s.delayR.toNat + 1)) s1 = .next t ∧ t.fst = .shReply ∧
        t.est = .eIdle ∧
        ∀ k < (if s.lenR = 0 then 1 else 2 * s.lenR.toNat + 2) * (s.delayR.toNat + 1),
          ∃ u, ticks k s1 = .next u ∧ u.fst = .shRun

/-- R134, R135: a chunk's load, the bytes little-endian and zero-extended, TMS at `OFF_R` and TDI at `n + OFF_R`. -/
def Obligations.ChunkLoadIsLittleEndian : Prop :=
  ∀ s : State, 0 < s.bleftR → s.offR + chunkBytes s.bleftR ≤ s.nBytes → 2 * s.nBytes ≤ s.params.capacity →
    s.scratch.filled (2 * s.nBytes) →
    ∃ t, chunkLoad s = .ok t ∧ t.tdoW = 0 ∧ t.stepR = 0 ∧ t.nstepR.toNat = min 32 s.bleftR ∧
      (∀ i < 32, t.tmsW.getLsbD i =
        (decide (i < 8 * chunkBytes s.bleftR) && ((s.scratch.read (s.offR + i / 8)).getD 0).getLsbD (i % 8))) ∧
      (∀ i < 32, t.tdiW.getLsbD i =
        (decide (i < 8 * chunkBytes s.bleftR) && ((s.scratch.read (s.nBytes + s.offR + i / 8)).getD 0).getLsbD (i % 8))) ∧
      t.trace = s.trace ∧ t.lines = s.lines ∧ t.scratch = s.scratch ∧ t.result = s.result

/-- R140, R141: a chunk's store, the low bytes of `TDO_W` little-endian at `OFF_R`, and no other byte. -/
def Obligations.ChunkStoreIsLittleEndian : Prop :=
  ∀ s : State, s.offR + chunkBytes s.bleftR ≤ s.params.maxNbytes →
    ∃ t, chunkStore s = .ok t ∧ t.offR = s.offR + chunkBytes s.bleftR ∧ t.bleftR = s.bleftR - s.nstepR.toNat ∧
      (∀ j < chunkBytes s.bleftR, t.result.read (s.offR + j) = some (byteOf s.tdoW j)) ∧
      (∀ a, (a < s.offR ∨ s.offR + chunkBytes s.bleftR ≤ a) → t.result.read a = s.result.read a) ∧
      t.trace = s.trace ∧ t.lines = s.lines ∧ t.scratch = s.scratch

/-- R62: MemRead of 1 to 4 bytes gives their little-endian value; MemWrite of 1 to 4 bytes sets those bytes and no other. -/
def Obligations.MemReadAndMemWrite : Prop :=
  ∀ (s : State) (buf : Buf) (a k : Nat), 1 ≤ k → k ≤ 4 → a + k ≤ s.bufSize buf →
    (∀ f : Nat → Byte, (∀ j < k, (s.buf buf).read (a + j) = some (f j)) →
      ∃ w, memRead buf a k s = .ok w ∧ w.toNat = ((List.range k).map fun j => (f j).toNat * 256 ^ j).sum) ∧
      ∀ v : Word,
        ∃ t, memWrite buf a k v s = .ok t ∧ (∀ j < k, (t.buf buf).read (a + j) = some (byteOf v j)) ∧
          (∀ x, (x < a ∨ a + k ≤ x) → (t.buf buf).read x = (s.buf buf).read x) ∧
          (∀ b, b ≠ buf → t.buf b = s.buf b) ∧ t.trace = s.trace

/-! ### The whole machine -/

/-- The invariant holds right after reset. -/
def Obligations.InvariantAtReset : Prop := State.reset.Inv

/-- Every step keeps the invariant: the buffers' form, the counters' ranges, the lines at rest outside a shift (R49), the accepted
shift's bounds (R152), and the bytes written before they are read (R51). -/
def Obligations.StepKeepsInvariant : Prop := ∀ s t : State, s.Inv → step s = .next t → t.Inv

/-- R51, R152: no step from a state of the invariant meets a byte nothing has written or an address beyond a buffer. -/
def Obligations.StepNeverFaults : Prop := ∀ (s : State) (f : Fault), s.Inv → step s ≠ .fault f

/-- R49: in the invariant the lines are at rest in every state but SH_RUN, IDLE among them. -/
def Obligations.LinesAtRestAfterEveryStep : Prop :=
  ∀ s t : State, s.Inv → step s = .next t → t.fst ≠ .shRun → t.lines = (false, true, false)

/-- R30, R40: the counters fit the widths that the parameters give their registers. -/
def Obligations.CountersFitTheirWidths : Prop :=
  ∀ s t : State, s.Inv → step s = .next t →
    t.cntR < 2 ^ widthHolding (max t.params.capacity 20) ∧ t.offR < 2 ^ widthHolding t.params.maxNbytes ∧
      t.bleftR < 2 ^ widthHolding t.params.maxLen

/-- Every step keeps both buffers in canonical form and within their sizes, from any state whose buffers are. -/
def Obligations.BuffersKeepTheirForm : Prop := ∀ s t : State, s.BuffersOk → step s = .next t → t.BuffersOk

/-- R37, R38, R203: `DELAY_R` takes `cfg_delay` at an edge with `rst = 1` and is kept at every other edge, and so by every step
none of whose edges has `rst = 1`; nothing changes the parameters. -/
def Obligations.DelayAndParametersFixed : Prop :=
  (∀ s t : State, edge s = .next t →
    t.params = s.params ∧ t.delayR = if s.levels.rst = true then s.levels.cfgDelay else s.delayR) ∧
    ∀ s t : State, step s = .next t →
      t.params = s.params ∧
        ((s.script = [] → s.levels.rst = false) → ((turnsTaken s t).all fun h => !h.levels.rst) = true → t.delayR = s.delayR)

/-- R20, R115, R119, R146, R175: with a host that does its duty, every command cycle, on whatever bytes, comes to an end or to a hang
that only the host can end; it meets no fault and no refusal. -/
def Obligations.DutifulHostCommandEnds : Prop :=
  ∀ (s : State) (i : Instr), s.startsCommand = true → dutiful s.levels s.script = true →
    ∃ t, exec i s = .next t ∧ (t.busy = false ∨ t.hung = true)

/-- R121: a host that only makes the block wait changes nothing: the command leaves the same registers, buffers and events as with
a host that serves it at once. -/
def Obligations.FragmentationHasNoEffect : Prop :=
  ∀ (s : State) (i : Instr), s.startsCommand = true → s.patient = true → i.wellFormed s.params.capacity = true →
    ∃ t u, exec i s = .next t ∧ exec i s.served = .next u ∧ t = { u with levels := t.levels, script := t.script }

/-- R48, R122, R186: a command's events and what it leaves for later behaviour do not depend on any dead register, on the
buffers' contents or on the past. -/
def Obligations.CommandsAreIndependent : Prop :=
  ∀ (s s' t : State) (i : Instr), s.startsCommand = true → sameLive s s' → exec i s = .next t →
    ∃ t', exec i s' = .next t' ∧ eventsSince s' t' = eventsSince s t ∧ sameLive t t'

/-- R120: a busy block ignores `cmd_go`. -/
def Obligations.BusyBlockIgnoresCmdGo : Prop :=
  ∀ (s : State) (b : Bool), s.busy = true → edge (setGo b s) = (edge s).map (setGo b)

/-- R130, R146: in SH_RUN the block examines no level but `rst`, and no byte of the stream. -/
def Obligations.EngineIgnoresTheHost : Prop :=
  ∀ (s : State) (l : Levels) (q : List Byte), s.fst = .shRun → s.levels.rst = false → l.rst = false →
    edge (setHostSide l q s) = (edge s).map (setHostSide l q)

/-- R176: `shutdown` is examined only in IDLE and in the read states. -/
def Obligations.ShutdownExaminedOnlyInIdleAndReads : Prop :=
  ∀ (s : State) (b : Bool), s.fst ≠ .idle → s.fst.isRead = false → edge (setShutdown b s) = (edge s).map (setShutdown b)
end

