-- ==== Sys2Proof/Laws/State.lean ====
section
/-! SUPPORT. One lemma per field and named operation that always answers a state: what the field holds afterwards. -/

namespace Sys2Proof.Machine

/-! ### setScratch -/

@[simp] theorem setScratch_fst (m : Memory) (s : State) : (setScratch m s).fst = s.fst := rfl
@[simp] theorem setScratch_cntR (m : Memory) (s : State) : (setScratch m s).cntR = s.cntR := rfl
@[simp] theorem setScratch_tokR (m : Memory) (s : State) : (setScratch m s).tokR = s.tokR := rfl
@[simp] theorem setScratch_lenR (m : Memory) (s : State) : (setScratch m s).lenR = s.lenR := rfl
@[simp] theorem setScratch_nbytesR (m : Memory) (s : State) : (setScratch m s).nbytesR = s.nbytesR := rfl
@[simp] theorem setScratch_echoR (m : Memory) (s : State) : (setScratch m s).echoR = s.echoR := rfl
@[simp] theorem setScratch_outcomeR (m : Memory) (s : State) : (setScratch m s).outcomeR = s.outcomeR := rfl
@[simp] theorem setScratch_causeR (m : Memory) (s : State) : (setScratch m s).causeR = s.causeR := rfl
@[simp] theorem setScratch_delayR (m : Memory) (s : State) : (setScratch m s).delayR = s.delayR := rfl
@[simp] theorem setScratch_est (m : Memory) (s : State) : (setScratch m s).est = s.est := rfl
@[simp] theorem setScratch_tmsW (m : Memory) (s : State) : (setScratch m s).tmsW = s.tmsW := rfl
@[simp] theorem setScratch_tdiW (m : Memory) (s : State) : (setScratch m s).tdiW = s.tdiW := rfl
@[simp] theorem setScratch_tdoW (m : Memory) (s : State) : (setScratch m s).tdoW = s.tdoW := rfl
@[simp] theorem setScratch_stepR (m : Memory) (s : State) : (setScratch m s).stepR = s.stepR := rfl
@[simp] theorem setScratch_nstepR (m : Memory) (s : State) : (setScratch m s).nstepR = s.nstepR := rfl
@[simp] theorem setScratch_offR (m : Memory) (s : State) : (setScratch m s).offR = s.offR := rfl
@[simp] theorem setScratch_bleftR (m : Memory) (s : State) : (setScratch m s).bleftR = s.bleftR := rfl
@[simp] theorem setScratch_dlyCnt (m : Memory) (s : State) : (setScratch m s).dlyCnt = s.dlyCnt := rfl
@[simp] theorem setScratch_tckQ (m : Memory) (s : State) : (setScratch m s).tckQ = s.tckQ := rfl
@[simp] theorem setScratch_tmsQ (m : Memory) (s : State) : (setScratch m s).tmsQ = s.tmsQ := rfl
@[simp] theorem setScratch_tdiQ (m : Memory) (s : State) : (setScratch m s).tdiQ = s.tdiQ := rfl
@[simp] theorem setScratch_scratch (m : Memory) (s : State) : (setScratch m s).scratch = m := rfl
@[simp] theorem setScratch_result (m : Memory) (s : State) : (setScratch m s).result = s.result := rfl
@[simp] theorem setScratch_params (m : Memory) (s : State) : (setScratch m s).params = s.params := rfl
@[simp] theorem setScratch_levels (m : Memory) (s : State) : (setScratch m s).levels = s.levels := rfl
@[simp] theorem setScratch_stream (m : Memory) (s : State) : (setScratch m s).stream = s.stream := rfl
@[simp] theorem setScratch_script (m : Memory) (s : State) : (setScratch m s).script = s.script := rfl
@[simp] theorem setScratch_tdoDraws (m : Memory) (s : State) : (setScratch m s).tdoDraws = s.tdoDraws := rfl
@[simp] theorem setScratch_draws (m : Memory) (s : State) : (setScratch m s).draws = s.draws := rfl
@[simp] theorem setScratch_trace (m : Memory) (s : State) : (setScratch m s).trace = s.trace := rfl
@[simp] theorem setScratch_nBytes (m : Memory) (s : State) : (setScratch m s).nBytes = s.nBytes := rfl

/-! ### setResult -/

@[simp] theorem setResult_fst (m : Memory) (s : State) : (setResult m s).fst = s.fst := rfl
@[simp] theorem setResult_cntR (m : Memory) (s : State) : (setResult m s).cntR = s.cntR := rfl
@[simp] theorem setResult_tokR (m : Memory) (s : State) : (setResult m s).tokR = s.tokR := rfl
@[simp] theorem setResult_lenR (m : Memory) (s : State) : (setResult m s).lenR = s.lenR := rfl
@[simp] theorem setResult_nbytesR (m : Memory) (s : State) : (setResult m s).nbytesR = s.nbytesR := rfl
@[simp] theorem setResult_echoR (m : Memory) (s : State) : (setResult m s).echoR = s.echoR := rfl
@[simp] theorem setResult_outcomeR (m : Memory) (s : State) : (setResult m s).outcomeR = s.outcomeR := rfl
@[simp] theorem setResult_causeR (m : Memory) (s : State) : (setResult m s).causeR = s.causeR := rfl
@[simp] theorem setResult_delayR (m : Memory) (s : State) : (setResult m s).delayR = s.delayR := rfl
@[simp] theorem setResult_est (m : Memory) (s : State) : (setResult m s).est = s.est := rfl
@[simp] theorem setResult_tmsW (m : Memory) (s : State) : (setResult m s).tmsW = s.tmsW := rfl
@[simp] theorem setResult_tdiW (m : Memory) (s : State) : (setResult m s).tdiW = s.tdiW := rfl
@[simp] theorem setResult_tdoW (m : Memory) (s : State) : (setResult m s).tdoW = s.tdoW := rfl
@[simp] theorem setResult_stepR (m : Memory) (s : State) : (setResult m s).stepR = s.stepR := rfl
@[simp] theorem setResult_nstepR (m : Memory) (s : State) : (setResult m s).nstepR = s.nstepR := rfl
@[simp] theorem setResult_offR (m : Memory) (s : State) : (setResult m s).offR = s.offR := rfl
@[simp] theorem setResult_bleftR (m : Memory) (s : State) : (setResult m s).bleftR = s.bleftR := rfl
@[simp] theorem setResult_dlyCnt (m : Memory) (s : State) : (setResult m s).dlyCnt = s.dlyCnt := rfl
@[simp] theorem setResult_tckQ (m : Memory) (s : State) : (setResult m s).tckQ = s.tckQ := rfl
@[simp] theorem setResult_tmsQ (m : Memory) (s : State) : (setResult m s).tmsQ = s.tmsQ := rfl
@[simp] theorem setResult_tdiQ (m : Memory) (s : State) : (setResult m s).tdiQ = s.tdiQ := rfl
@[simp] theorem setResult_scratch (m : Memory) (s : State) : (setResult m s).scratch = s.scratch := rfl
@[simp] theorem setResult_result (m : Memory) (s : State) : (setResult m s).result = m := rfl
@[simp] theorem setResult_params (m : Memory) (s : State) : (setResult m s).params = s.params := rfl
@[simp] theorem setResult_levels (m : Memory) (s : State) : (setResult m s).levels = s.levels := rfl
@[simp] theorem setResult_stream (m : Memory) (s : State) : (setResult m s).stream = s.stream := rfl
@[simp] theorem setResult_script (m : Memory) (s : State) : (setResult m s).script = s.script := rfl
@[simp] theorem setResult_tdoDraws (m : Memory) (s : State) : (setResult m s).tdoDraws = s.tdoDraws := rfl
@[simp] theorem setResult_draws (m : Memory) (s : State) : (setResult m s).draws = s.draws := rfl
@[simp] theorem setResult_trace (m : Memory) (s : State) : (setResult m s).trace = s.trace := rfl
@[simp] theorem setResult_nBytes (m : Memory) (s : State) : (setResult m s).nBytes = s.nBytes := rfl

/-! ### setStream -/

@[simp] theorem setStream_fst (q : List Byte) (s : State) : (setStream q s).fst = s.fst := rfl
@[simp] theorem setStream_cntR (q : List Byte) (s : State) : (setStream q s).cntR = s.cntR := rfl
@[simp] theorem setStream_tokR (q : List Byte) (s : State) : (setStream q s).tokR = s.tokR := rfl
@[simp] theorem setStream_lenR (q : List Byte) (s : State) : (setStream q s).lenR = s.lenR := rfl
@[simp] theorem setStream_nbytesR (q : List Byte) (s : State) : (setStream q s).nbytesR = s.nbytesR := rfl
@[simp] theorem setStream_echoR (q : List Byte) (s : State) : (setStream q s).echoR = s.echoR := rfl
@[simp] theorem setStream_outcomeR (q : List Byte) (s : State) : (setStream q s).outcomeR = s.outcomeR := rfl
@[simp] theorem setStream_causeR (q : List Byte) (s : State) : (setStream q s).causeR = s.causeR := rfl
@[simp] theorem setStream_delayR (q : List Byte) (s : State) : (setStream q s).delayR = s.delayR := rfl
@[simp] theorem setStream_est (q : List Byte) (s : State) : (setStream q s).est = s.est := rfl
@[simp] theorem setStream_tmsW (q : List Byte) (s : State) : (setStream q s).tmsW = s.tmsW := rfl
@[simp] theorem setStream_tdiW (q : List Byte) (s : State) : (setStream q s).tdiW = s.tdiW := rfl
@[simp] theorem setStream_tdoW (q : List Byte) (s : State) : (setStream q s).tdoW = s.tdoW := rfl
@[simp] theorem setStream_stepR (q : List Byte) (s : State) : (setStream q s).stepR = s.stepR := rfl
@[simp] theorem setStream_nstepR (q : List Byte) (s : State) : (setStream q s).nstepR = s.nstepR := rfl
@[simp] theorem setStream_offR (q : List Byte) (s : State) : (setStream q s).offR = s.offR := rfl
@[simp] theorem setStream_bleftR (q : List Byte) (s : State) : (setStream q s).bleftR = s.bleftR := rfl
@[simp] theorem setStream_dlyCnt (q : List Byte) (s : State) : (setStream q s).dlyCnt = s.dlyCnt := rfl
@[simp] theorem setStream_tckQ (q : List Byte) (s : State) : (setStream q s).tckQ = s.tckQ := rfl
@[simp] theorem setStream_tmsQ (q : List Byte) (s : State) : (setStream q s).tmsQ = s.tmsQ := rfl
@[simp] theorem setStream_tdiQ (q : List Byte) (s : State) : (setStream q s).tdiQ = s.tdiQ := rfl
@[simp] theorem setStream_scratch (q : List Byte) (s : State) : (setStream q s).scratch = s.scratch := rfl
@[simp] theorem setStream_result (q : List Byte) (s : State) : (setStream q s).result = s.result := rfl
@[simp] theorem setStream_params (q : List Byte) (s : State) : (setStream q s).params = s.params := rfl
@[simp] theorem setStream_levels (q : List Byte) (s : State) : (setStream q s).levels = s.levels := rfl
@[simp] theorem setStream_stream (q : List Byte) (s : State) : (setStream q s).stream = q := rfl
@[simp] theorem setStream_script (q : List Byte) (s : State) : (setStream q s).script = s.script := rfl
@[simp] theorem setStream_tdoDraws (q : List Byte) (s : State) : (setStream q s).tdoDraws = s.tdoDraws := rfl
@[simp] theorem setStream_draws (q : List Byte) (s : State) : (setStream q s).draws = s.draws := rfl
@[simp] theorem setStream_trace (q : List Byte) (s : State) : (setStream q s).trace = s.trace := rfl
@[simp] theorem setStream_nBytes (q : List Byte) (s : State) : (setStream q s).nBytes = s.nBytes := rfl

/-! ### record -/

@[simp] theorem record_fst (e : Event) (s : State) : (record e s).fst = s.fst := rfl
@[simp] theorem record_cntR (e : Event) (s : State) : (record e s).cntR = s.cntR := rfl
@[simp] theorem record_tokR (e : Event) (s : State) : (record e s).tokR = s.tokR := rfl
@[simp] theorem record_lenR (e : Event) (s : State) : (record e s).lenR = s.lenR := rfl
@[simp] theorem record_nbytesR (e : Event) (s : State) : (record e s).nbytesR = s.nbytesR := rfl
@[simp] theorem record_echoR (e : Event) (s : State) : (record e s).echoR = s.echoR := rfl
@[simp] theorem record_outcomeR (e : Event) (s : State) : (record e s).outcomeR = s.outcomeR := rfl
@[simp] theorem record_causeR (e : Event) (s : State) : (record e s).causeR = s.causeR := rfl
@[simp] theorem record_delayR (e : Event) (s : State) : (record e s).delayR = s.delayR := rfl
@[simp] theorem record_est (e : Event) (s : State) : (record e s).est = s.est := rfl
@[simp] theorem record_tmsW (e : Event) (s : State) : (record e s).tmsW = s.tmsW := rfl
@[simp] theorem record_tdiW (e : Event) (s : State) : (record e s).tdiW = s.tdiW := rfl
@[simp] theorem record_tdoW (e : Event) (s : State) : (record e s).tdoW = s.tdoW := rfl
@[simp] theorem record_stepR (e : Event) (s : State) : (record e s).stepR = s.stepR := rfl
@[simp] theorem record_nstepR (e : Event) (s : State) : (record e s).nstepR = s.nstepR := rfl
@[simp] theorem record_offR (e : Event) (s : State) : (record e s).offR = s.offR := rfl
@[simp] theorem record_bleftR (e : Event) (s : State) : (record e s).bleftR = s.bleftR := rfl
@[simp] theorem record_dlyCnt (e : Event) (s : State) : (record e s).dlyCnt = s.dlyCnt := rfl
@[simp] theorem record_tckQ (e : Event) (s : State) : (record e s).tckQ = s.tckQ := rfl
@[simp] theorem record_tmsQ (e : Event) (s : State) : (record e s).tmsQ = s.tmsQ := rfl
@[simp] theorem record_tdiQ (e : Event) (s : State) : (record e s).tdiQ = s.tdiQ := rfl
@[simp] theorem record_scratch (e : Event) (s : State) : (record e s).scratch = s.scratch := rfl
@[simp] theorem record_result (e : Event) (s : State) : (record e s).result = s.result := rfl
@[simp] theorem record_params (e : Event) (s : State) : (record e s).params = s.params := rfl
@[simp] theorem record_levels (e : Event) (s : State) : (record e s).levels = s.levels := rfl
@[simp] theorem record_stream (e : Event) (s : State) : (record e s).stream = s.stream := rfl
@[simp] theorem record_script (e : Event) (s : State) : (record e s).script = s.script := rfl
@[simp] theorem record_tdoDraws (e : Event) (s : State) : (record e s).tdoDraws = s.tdoDraws := rfl
@[simp] theorem record_draws (e : Event) (s : State) : (record e s).draws = s.draws := rfl
@[simp] theorem record_trace (e : Event) (s : State) : (record e s).trace = s.trace ++ [e] := rfl
@[simp] theorem record_nBytes (e : Event) (s : State) : (record e s).nBytes = s.nBytes := rfl

/-! ### setFst -/

@[simp] theorem setFst_fst (f : Fst) (s : State) : (setFst f s).fst = f := rfl
@[simp] theorem setFst_cntR (f : Fst) (s : State) : (setFst f s).cntR = s.cntR := rfl
@[simp] theorem setFst_tokR (f : Fst) (s : State) : (setFst f s).tokR = s.tokR := rfl
@[simp] theorem setFst_lenR (f : Fst) (s : State) : (setFst f s).lenR = s.lenR := rfl
@[simp] theorem setFst_nbytesR (f : Fst) (s : State) : (setFst f s).nbytesR = s.nbytesR := rfl
@[simp] theorem setFst_echoR (f : Fst) (s : State) : (setFst f s).echoR = s.echoR := rfl
@[simp] theorem setFst_outcomeR (f : Fst) (s : State) : (setFst f s).outcomeR = s.outcomeR := rfl
@[simp] theorem setFst_causeR (f : Fst) (s : State) : (setFst f s).causeR = s.causeR := rfl
@[simp] theorem setFst_delayR (f : Fst) (s : State) : (setFst f s).delayR = s.delayR := rfl
@[simp] theorem setFst_est (f : Fst) (s : State) : (setFst f s).est = s.est := rfl
@[simp] theorem setFst_tmsW (f : Fst) (s : State) : (setFst f s).tmsW = s.tmsW := rfl
@[simp] theorem setFst_tdiW (f : Fst) (s : State) : (setFst f s).tdiW = s.tdiW := rfl
@[simp] theorem setFst_tdoW (f : Fst) (s : State) : (setFst f s).tdoW = s.tdoW := rfl
@[simp] theorem setFst_stepR (f : Fst) (s : State) : (setFst f s).stepR = s.stepR := rfl
@[simp] theorem setFst_nstepR (f : Fst) (s : State) : (setFst f s).nstepR = s.nstepR := rfl
@[simp] theorem setFst_offR (f : Fst) (s : State) : (setFst f s).offR = s.offR := rfl
@[simp] theorem setFst_bleftR (f : Fst) (s : State) : (setFst f s).bleftR = s.bleftR := rfl
@[simp] theorem setFst_dlyCnt (f : Fst) (s : State) : (setFst f s).dlyCnt = s.dlyCnt := rfl
@[simp] theorem setFst_tckQ (f : Fst) (s : State) : (setFst f s).tckQ = s.tckQ := rfl
@[simp] theorem setFst_tmsQ (f : Fst) (s : State) : (setFst f s).tmsQ = s.tmsQ := rfl
@[simp] theorem setFst_tdiQ (f : Fst) (s : State) : (setFst f s).tdiQ = s.tdiQ := rfl
@[simp] theorem setFst_scratch (f : Fst) (s : State) : (setFst f s).scratch = s.scratch := rfl
@[simp] theorem setFst_result (f : Fst) (s : State) : (setFst f s).result = s.result := rfl
@[simp] theorem setFst_params (f : Fst) (s : State) : (setFst f s).params = s.params := rfl
@[simp] theorem setFst_levels (f : Fst) (s : State) : (setFst f s).levels = s.levels := rfl
@[simp] theorem setFst_stream (f : Fst) (s : State) : (setFst f s).stream = s.stream := rfl
@[simp] theorem setFst_script (f : Fst) (s : State) : (setFst f s).script = s.script := rfl
@[simp] theorem setFst_tdoDraws (f : Fst) (s : State) : (setFst f s).tdoDraws = s.tdoDraws := rfl
@[simp] theorem setFst_draws (f : Fst) (s : State) : (setFst f s).draws = s.draws := rfl
@[simp] theorem setFst_trace (f : Fst) (s : State) : (setFst f s).trace = s.trace := rfl
@[simp] theorem setFst_nBytes (f : Fst) (s : State) : (setFst f s).nBytes = s.nBytes := rfl

/-! ### setCnt -/

@[simp] theorem setCnt_fst (n : Nat) (s : State) : (setCnt n s).fst = s.fst := rfl
@[simp] theorem setCnt_cntR (n : Nat) (s : State) : (setCnt n s).cntR = n := rfl
@[simp] theorem setCnt_tokR (n : Nat) (s : State) : (setCnt n s).tokR = s.tokR := rfl
@[simp] theorem setCnt_lenR (n : Nat) (s : State) : (setCnt n s).lenR = s.lenR := rfl
@[simp] theorem setCnt_nbytesR (n : Nat) (s : State) : (setCnt n s).nbytesR = s.nbytesR := rfl
@[simp] theorem setCnt_echoR (n : Nat) (s : State) : (setCnt n s).echoR = s.echoR := rfl
@[simp] theorem setCnt_outcomeR (n : Nat) (s : State) : (setCnt n s).outcomeR = s.outcomeR := rfl
@[simp] theorem setCnt_causeR (n : Nat) (s : State) : (setCnt n s).causeR = s.causeR := rfl
@[simp] theorem setCnt_delayR (n : Nat) (s : State) : (setCnt n s).delayR = s.delayR := rfl
@[simp] theorem setCnt_est (n : Nat) (s : State) : (setCnt n s).est = s.est := rfl
@[simp] theorem setCnt_tmsW (n : Nat) (s : State) : (setCnt n s).tmsW = s.tmsW := rfl
@[simp] theorem setCnt_tdiW (n : Nat) (s : State) : (setCnt n s).tdiW = s.tdiW := rfl
@[simp] theorem setCnt_tdoW (n : Nat) (s : State) : (setCnt n s).tdoW = s.tdoW := rfl
@[simp] theorem setCnt_stepR (n : Nat) (s : State) : (setCnt n s).stepR = s.stepR := rfl
@[simp] theorem setCnt_nstepR (n : Nat) (s : State) : (setCnt n s).nstepR = s.nstepR := rfl
@[simp] theorem setCnt_offR (n : Nat) (s : State) : (setCnt n s).offR = s.offR := rfl
@[simp] theorem setCnt_bleftR (n : Nat) (s : State) : (setCnt n s).bleftR = s.bleftR := rfl
@[simp] theorem setCnt_dlyCnt (n : Nat) (s : State) : (setCnt n s).dlyCnt = s.dlyCnt := rfl
@[simp] theorem setCnt_tckQ (n : Nat) (s : State) : (setCnt n s).tckQ = s.tckQ := rfl
@[simp] theorem setCnt_tmsQ (n : Nat) (s : State) : (setCnt n s).tmsQ = s.tmsQ := rfl
@[simp] theorem setCnt_tdiQ (n : Nat) (s : State) : (setCnt n s).tdiQ = s.tdiQ := rfl
@[simp] theorem setCnt_scratch (n : Nat) (s : State) : (setCnt n s).scratch = s.scratch := rfl
@[simp] theorem setCnt_result (n : Nat) (s : State) : (setCnt n s).result = s.result := rfl
@[simp] theorem setCnt_params (n : Nat) (s : State) : (setCnt n s).params = s.params := rfl
@[simp] theorem setCnt_levels (n : Nat) (s : State) : (setCnt n s).levels = s.levels := rfl
@[simp] theorem setCnt_stream (n : Nat) (s : State) : (setCnt n s).stream = s.stream := rfl
@[simp] theorem setCnt_script (n : Nat) (s : State) : (setCnt n s).script = s.script := rfl
@[simp] theorem setCnt_tdoDraws (n : Nat) (s : State) : (setCnt n s).tdoDraws = s.tdoDraws := rfl
@[simp] theorem setCnt_draws (n : Nat) (s : State) : (setCnt n s).draws = s.draws := rfl
@[simp] theorem setCnt_trace (n : Nat) (s : State) : (setCnt n s).trace = s.trace := rfl
@[simp] theorem setCnt_nBytes (n : Nat) (s : State) : (setCnt n s).nBytes = s.nBytes := rfl

/-! ### enter -/

@[simp] theorem enter_fst (f : Fst) (s : State) : (enter f s).fst = f := rfl
@[simp] theorem enter_cntR (f : Fst) (s : State) : (enter f s).cntR = 0 := rfl
@[simp] theorem enter_tokR (f : Fst) (s : State) : (enter f s).tokR = s.tokR := rfl
@[simp] theorem enter_lenR (f : Fst) (s : State) : (enter f s).lenR = s.lenR := rfl
@[simp] theorem enter_nbytesR (f : Fst) (s : State) : (enter f s).nbytesR = s.nbytesR := rfl
@[simp] theorem enter_echoR (f : Fst) (s : State) : (enter f s).echoR = s.echoR := rfl
@[simp] theorem enter_outcomeR (f : Fst) (s : State) : (enter f s).outcomeR = s.outcomeR := rfl
@[simp] theorem enter_causeR (f : Fst) (s : State) : (enter f s).causeR = s.causeR := rfl
@[simp] theorem enter_delayR (f : Fst) (s : State) : (enter f s).delayR = s.delayR := rfl
@[simp] theorem enter_est (f : Fst) (s : State) : (enter f s).est = s.est := rfl
@[simp] theorem enter_tmsW (f : Fst) (s : State) : (enter f s).tmsW = s.tmsW := rfl
@[simp] theorem enter_tdiW (f : Fst) (s : State) : (enter f s).tdiW = s.tdiW := rfl
@[simp] theorem enter_tdoW (f : Fst) (s : State) : (enter f s).tdoW = s.tdoW := rfl
@[simp] theorem enter_stepR (f : Fst) (s : State) : (enter f s).stepR = s.stepR := rfl
@[simp] theorem enter_nstepR (f : Fst) (s : State) : (enter f s).nstepR = s.nstepR := rfl
@[simp] theorem enter_offR (f : Fst) (s : State) : (enter f s).offR = s.offR := rfl
@[simp] theorem enter_bleftR (f : Fst) (s : State) : (enter f s).bleftR = s.bleftR := rfl
@[simp] theorem enter_dlyCnt (f : Fst) (s : State) : (enter f s).dlyCnt = s.dlyCnt := rfl
@[simp] theorem enter_tckQ (f : Fst) (s : State) : (enter f s).tckQ = s.tckQ := rfl
@[simp] theorem enter_tmsQ (f : Fst) (s : State) : (enter f s).tmsQ = s.tmsQ := rfl
@[simp] theorem enter_tdiQ (f : Fst) (s : State) : (enter f s).tdiQ = s.tdiQ := rfl
@[simp] theorem enter_scratch (f : Fst) (s : State) : (enter f s).scratch = s.scratch := rfl
@[simp] theorem enter_result (f : Fst) (s : State) : (enter f s).result = s.result := rfl
@[simp] theorem enter_params (f : Fst) (s : State) : (enter f s).params = s.params := rfl
@[simp] theorem enter_levels (f : Fst) (s : State) : (enter f s).levels = s.levels := rfl
@[simp] theorem enter_stream (f : Fst) (s : State) : (enter f s).stream = s.stream := rfl
@[simp] theorem enter_script (f : Fst) (s : State) : (enter f s).script = s.script := rfl
@[simp] theorem enter_tdoDraws (f : Fst) (s : State) : (enter f s).tdoDraws = s.tdoDraws := rfl
@[simp] theorem enter_draws (f : Fst) (s : State) : (enter f s).draws = s.draws := rfl
@[simp] theorem enter_trace (f : Fst) (s : State) : (enter f s).trace = s.trace := rfl
@[simp] theorem enter_nBytes (f : Fst) (s : State) : (enter f s).nBytes = s.nBytes := rfl

/-! ### finish -/

@[simp] theorem finish_fst (o : CmdOutcome) (c : Cause) (s : State) : (finish o c s).fst = .done := rfl
@[simp] theorem finish_cntR (o : CmdOutcome) (c : Cause) (s : State) : (finish o c s).cntR = s.cntR := rfl
@[simp] theorem finish_tokR (o : CmdOutcome) (c : Cause) (s : State) : (finish o c s).tokR = s.tokR := rfl
@[simp] theorem finish_lenR (o : CmdOutcome) (c : Cause) (s : State) : (finish o c s).lenR = s.lenR := rfl
@[simp] theorem finish_nbytesR (o : CmdOutcome) (c : Cause) (s : State) : (finish o c s).nbytesR = s.nbytesR := rfl
@[simp] theorem finish_echoR (o : CmdOutcome) (c : Cause) (s : State) : (finish o c s).echoR = s.echoR := rfl
@[simp] theorem finish_outcomeR (o : CmdOutcome) (c : Cause) (s : State) : (finish o c s).outcomeR = o.code := rfl
@[simp] theorem finish_causeR (o : CmdOutcome) (c : Cause) (s : State) : (finish o c s).causeR = c.code := rfl
@[simp] theorem finish_delayR (o : CmdOutcome) (c : Cause) (s : State) : (finish o c s).delayR = s.delayR := rfl
@[simp] theorem finish_est (o : CmdOutcome) (c : Cause) (s : State) : (finish o c s).est = s.est := rfl
@[simp] theorem finish_tmsW (o : CmdOutcome) (c : Cause) (s : State) : (finish o c s).tmsW = s.tmsW := rfl
@[simp] theorem finish_tdiW (o : CmdOutcome) (c : Cause) (s : State) : (finish o c s).tdiW = s.tdiW := rfl
@[simp] theorem finish_tdoW (o : CmdOutcome) (c : Cause) (s : State) : (finish o c s).tdoW = s.tdoW := rfl
@[simp] theorem finish_stepR (o : CmdOutcome) (c : Cause) (s : State) : (finish o c s).stepR = s.stepR := rfl
@[simp] theorem finish_nstepR (o : CmdOutcome) (c : Cause) (s : State) : (finish o c s).nstepR = s.nstepR := rfl
@[simp] theorem finish_offR (o : CmdOutcome) (c : Cause) (s : State) : (finish o c s).offR = s.offR := rfl
@[simp] theorem finish_bleftR (o : CmdOutcome) (c : Cause) (s : State) : (finish o c s).bleftR = s.bleftR := rfl
@[simp] theorem finish_dlyCnt (o : CmdOutcome) (c : Cause) (s : State) : (finish o c s).dlyCnt = s.dlyCnt := rfl
@[simp] theorem finish_tckQ (o : CmdOutcome) (c : Cause) (s : State) : (finish o c s).tckQ = s.tckQ := rfl
@[simp] theorem finish_tmsQ (o : CmdOutcome) (c : Cause) (s : State) : (finish o c s).tmsQ = s.tmsQ := rfl
@[simp] theorem finish_tdiQ (o : CmdOutcome) (c : Cause) (s : State) : (finish o c s).tdiQ = s.tdiQ := rfl
@[simp] theorem finish_scratch (o : CmdOutcome) (c : Cause) (s : State) : (finish o c s).scratch = s.scratch := rfl
@[simp] theorem finish_result (o : CmdOutcome) (c : Cause) (s : State) : (finish o c s).result = s.result := rfl
@[simp] theorem finish_params (o : CmdOutcome) (c : Cause) (s : State) : (finish o c s).params = s.params := rfl
@[simp] theorem finish_levels (o : CmdOutcome) (c : Cause) (s : State) : (finish o c s).levels = s.levels := rfl
@[simp] theorem finish_stream (o : CmdOutcome) (c : Cause) (s : State) : (finish o c s).stream = s.stream := rfl
@[simp] theorem finish_script (o : CmdOutcome) (c : Cause) (s : State) : (finish o c s).script = s.script := rfl
@[simp] theorem finish_tdoDraws (o : CmdOutcome) (c : Cause) (s : State) : (finish o c s).tdoDraws = s.tdoDraws := rfl
@[simp] theorem finish_draws (o : CmdOutcome) (c : Cause) (s : State) : (finish o c s).draws = s.draws := rfl
@[simp] theorem finish_trace (o : CmdOutcome) (c : Cause) (s : State) : (finish o c s).trace = s.trace ++ [.done o c] := rfl
@[simp] theorem finish_nBytes (o : CmdOutcome) (c : Cause) (s : State) : (finish o c s).nBytes = s.nBytes := rfl

/-! ### raiseCond -/

@[simp] theorem raiseCond_fst (x : Cond) (s : State) : (raiseCond x s).fst = .done := rfl
@[simp] theorem raiseCond_cntR (x : Cond) (s : State) : (raiseCond x s).cntR = s.cntR := rfl
@[simp] theorem raiseCond_tokR (x : Cond) (s : State) : (raiseCond x s).tokR = s.tokR := rfl
@[simp] theorem raiseCond_lenR (x : Cond) (s : State) : (raiseCond x s).lenR = s.lenR := rfl
@[simp] theorem raiseCond_nbytesR (x : Cond) (s : State) : (raiseCond x s).nbytesR = s.nbytesR := rfl
@[simp] theorem raiseCond_echoR (x : Cond) (s : State) : (raiseCond x s).echoR = s.echoR := rfl
@[simp] theorem raiseCond_outcomeR (x : Cond) (s : State) : (raiseCond x s).outcomeR = x.outcome.code := rfl
@[simp] theorem raiseCond_causeR (x : Cond) (s : State) : (raiseCond x s).causeR = x.cause.code := rfl
@[simp] theorem raiseCond_delayR (x : Cond) (s : State) : (raiseCond x s).delayR = s.delayR := rfl
@[simp] theorem raiseCond_est (x : Cond) (s : State) : (raiseCond x s).est = s.est := rfl
@[simp] theorem raiseCond_tmsW (x : Cond) (s : State) : (raiseCond x s).tmsW = s.tmsW := rfl
@[simp] theorem raiseCond_tdiW (x : Cond) (s : State) : (raiseCond x s).tdiW = s.tdiW := rfl
@[simp] theorem raiseCond_tdoW (x : Cond) (s : State) : (raiseCond x s).tdoW = s.tdoW := rfl
@[simp] theorem raiseCond_stepR (x : Cond) (s : State) : (raiseCond x s).stepR = s.stepR := rfl
@[simp] theorem raiseCond_nstepR (x : Cond) (s : State) : (raiseCond x s).nstepR = s.nstepR := rfl
@[simp] theorem raiseCond_offR (x : Cond) (s : State) : (raiseCond x s).offR = s.offR := rfl
@[simp] theorem raiseCond_bleftR (x : Cond) (s : State) : (raiseCond x s).bleftR = s.bleftR := rfl
@[simp] theorem raiseCond_dlyCnt (x : Cond) (s : State) : (raiseCond x s).dlyCnt = s.dlyCnt := rfl
@[simp] theorem raiseCond_tckQ (x : Cond) (s : State) : (raiseCond x s).tckQ = s.tckQ := rfl
@[simp] theorem raiseCond_tmsQ (x : Cond) (s : State) : (raiseCond x s).tmsQ = s.tmsQ := rfl
@[simp] theorem raiseCond_tdiQ (x : Cond) (s : State) : (raiseCond x s).tdiQ = s.tdiQ := rfl
@[simp] theorem raiseCond_scratch (x : Cond) (s : State) : (raiseCond x s).scratch = s.scratch := rfl
@[simp] theorem raiseCond_result (x : Cond) (s : State) : (raiseCond x s).result = s.result := rfl
@[simp] theorem raiseCond_params (x : Cond) (s : State) : (raiseCond x s).params = s.params := rfl
@[simp] theorem raiseCond_levels (x : Cond) (s : State) : (raiseCond x s).levels = s.levels := rfl
@[simp] theorem raiseCond_stream (x : Cond) (s : State) : (raiseCond x s).stream = s.stream := rfl
@[simp] theorem raiseCond_script (x : Cond) (s : State) : (raiseCond x s).script = s.script := rfl
@[simp] theorem raiseCond_tdoDraws (x : Cond) (s : State) : (raiseCond x s).tdoDraws = s.tdoDraws := rfl
@[simp] theorem raiseCond_draws (x : Cond) (s : State) : (raiseCond x s).draws = s.draws := rfl
@[simp] theorem raiseCond_trace (x : Cond) (s : State) : (raiseCond x s).trace = s.trace ++ [.done x.outcome x.cause] := rfl
@[simp] theorem raiseCond_nBytes (x : Cond) (s : State) : (raiseCond x s).nBytes = s.nBytes := rfl

/-! ### consumeByte -/

@[simp] theorem consumeByte_fst (b : Byte) (rest : List Byte) (s : State) : (consumeByte b rest s).fst = s.fst := rfl
@[simp] theorem consumeByte_cntR (b : Byte) (rest : List Byte) (s : State) : (consumeByte b rest s).cntR = s.cntR + 1 := rfl
@[simp] theorem consumeByte_tokR (b : Byte) (rest : List Byte) (s : State) : (consumeByte b rest s).tokR = s.tokR := rfl
@[simp] theorem consumeByte_lenR (b : Byte) (rest : List Byte) (s : State) : (consumeByte b rest s).lenR = s.lenR := rfl
@[simp] theorem consumeByte_nbytesR (b : Byte) (rest : List Byte) (s : State) : (consumeByte b rest s).nbytesR = s.nbytesR := rfl
@[simp] theorem consumeByte_echoR (b : Byte) (rest : List Byte) (s : State) : (consumeByte b rest s).echoR = s.echoR := rfl
@[simp] theorem consumeByte_outcomeR (b : Byte) (rest : List Byte) (s : State) : (consumeByte b rest s).outcomeR = s.outcomeR := rfl
@[simp] theorem consumeByte_causeR (b : Byte) (rest : List Byte) (s : State) : (consumeByte b rest s).causeR = s.causeR := rfl
@[simp] theorem consumeByte_delayR (b : Byte) (rest : List Byte) (s : State) : (consumeByte b rest s).delayR = s.delayR := rfl
@[simp] theorem consumeByte_est (b : Byte) (rest : List Byte) (s : State) : (consumeByte b rest s).est = s.est := rfl
@[simp] theorem consumeByte_tmsW (b : Byte) (rest : List Byte) (s : State) : (consumeByte b rest s).tmsW = s.tmsW := rfl
@[simp] theorem consumeByte_tdiW (b : Byte) (rest : List Byte) (s : State) : (consumeByte b rest s).tdiW = s.tdiW := rfl
@[simp] theorem consumeByte_tdoW (b : Byte) (rest : List Byte) (s : State) : (consumeByte b rest s).tdoW = s.tdoW := rfl
@[simp] theorem consumeByte_stepR (b : Byte) (rest : List Byte) (s : State) : (consumeByte b rest s).stepR = s.stepR := rfl
@[simp] theorem consumeByte_nstepR (b : Byte) (rest : List Byte) (s : State) : (consumeByte b rest s).nstepR = s.nstepR := rfl
@[simp] theorem consumeByte_offR (b : Byte) (rest : List Byte) (s : State) : (consumeByte b rest s).offR = s.offR := rfl
@[simp] theorem consumeByte_bleftR (b : Byte) (rest : List Byte) (s : State) : (consumeByte b rest s).bleftR = s.bleftR := rfl
@[simp] theorem consumeByte_dlyCnt (b : Byte) (rest : List Byte) (s : State) : (consumeByte b rest s).dlyCnt = s.dlyCnt := rfl
@[simp] theorem consumeByte_tckQ (b : Byte) (rest : List Byte) (s : State) : (consumeByte b rest s).tckQ = s.tckQ := rfl
@[simp] theorem consumeByte_tmsQ (b : Byte) (rest : List Byte) (s : State) : (consumeByte b rest s).tmsQ = s.tmsQ := rfl
@[simp] theorem consumeByte_tdiQ (b : Byte) (rest : List Byte) (s : State) : (consumeByte b rest s).tdiQ = s.tdiQ := rfl
@[simp] theorem consumeByte_scratch (b : Byte) (rest : List Byte) (s : State) : (consumeByte b rest s).scratch = s.scratch := rfl
@[simp] theorem consumeByte_result (b : Byte) (rest : List Byte) (s : State) : (consumeByte b rest s).result = s.result := rfl
@[simp] theorem consumeByte_params (b : Byte) (rest : List Byte) (s : State) : (consumeByte b rest s).params = s.params := rfl
@[simp] theorem consumeByte_levels (b : Byte) (rest : List Byte) (s : State) : (consumeByte b rest s).levels = s.levels := rfl
@[simp] theorem consumeByte_stream (b : Byte) (rest : List Byte) (s : State) : (consumeByte b rest s).stream = rest := rfl
@[simp] theorem consumeByte_script (b : Byte) (rest : List Byte) (s : State) : (consumeByte b rest s).script = s.script := rfl
@[simp] theorem consumeByte_tdoDraws (b : Byte) (rest : List Byte) (s : State) : (consumeByte b rest s).tdoDraws = s.tdoDraws := rfl
@[simp] theorem consumeByte_draws (b : Byte) (rest : List Byte) (s : State) : (consumeByte b rest s).draws = s.draws := rfl
@[simp] theorem consumeByte_trace (b : Byte) (rest : List Byte) (s : State) : (consumeByte b rest s).trace = s.trace ++ [.consume b] := rfl
@[simp] theorem consumeByte_nBytes (b : Byte) (rest : List Byte) (s : State) : (consumeByte b rest s).nBytes = s.nBytes := rfl

/-! ### emitByte -/

@[simp] theorem emitByte_fst (b : Byte) (s : State) : (emitByte b s).fst = s.fst := rfl
@[simp] theorem emitByte_cntR (b : Byte) (s : State) : (emitByte b s).cntR = s.cntR + 1 := rfl
@[simp] theorem emitByte_tokR (b : Byte) (s : State) : (emitByte b s).tokR = s.tokR := rfl
@[simp] theorem emitByte_lenR (b : Byte) (s : State) : (emitByte b s).lenR = s.lenR := rfl
@[simp] theorem emitByte_nbytesR (b : Byte) (s : State) : (emitByte b s).nbytesR = s.nbytesR := rfl
@[simp] theorem emitByte_echoR (b : Byte) (s : State) : (emitByte b s).echoR = s.echoR := rfl
@[simp] theorem emitByte_outcomeR (b : Byte) (s : State) : (emitByte b s).outcomeR = s.outcomeR := rfl
@[simp] theorem emitByte_causeR (b : Byte) (s : State) : (emitByte b s).causeR = s.causeR := rfl
@[simp] theorem emitByte_delayR (b : Byte) (s : State) : (emitByte b s).delayR = s.delayR := rfl
@[simp] theorem emitByte_est (b : Byte) (s : State) : (emitByte b s).est = s.est := rfl
@[simp] theorem emitByte_tmsW (b : Byte) (s : State) : (emitByte b s).tmsW = s.tmsW := rfl
@[simp] theorem emitByte_tdiW (b : Byte) (s : State) : (emitByte b s).tdiW = s.tdiW := rfl
@[simp] theorem emitByte_tdoW (b : Byte) (s : State) : (emitByte b s).tdoW = s.tdoW := rfl
@[simp] theorem emitByte_stepR (b : Byte) (s : State) : (emitByte b s).stepR = s.stepR := rfl
@[simp] theorem emitByte_nstepR (b : Byte) (s : State) : (emitByte b s).nstepR = s.nstepR := rfl
@[simp] theorem emitByte_offR (b : Byte) (s : State) : (emitByte b s).offR = s.offR := rfl
@[simp] theorem emitByte_bleftR (b : Byte) (s : State) : (emitByte b s).bleftR = s.bleftR := rfl
@[simp] theorem emitByte_dlyCnt (b : Byte) (s : State) : (emitByte b s).dlyCnt = s.dlyCnt := rfl
@[simp] theorem emitByte_tckQ (b : Byte) (s : State) : (emitByte b s).tckQ = s.tckQ := rfl
@[simp] theorem emitByte_tmsQ (b : Byte) (s : State) : (emitByte b s).tmsQ = s.tmsQ := rfl
@[simp] theorem emitByte_tdiQ (b : Byte) (s : State) : (emitByte b s).tdiQ = s.tdiQ := rfl
@[simp] theorem emitByte_scratch (b : Byte) (s : State) : (emitByte b s).scratch = s.scratch := rfl
@[simp] theorem emitByte_result (b : Byte) (s : State) : (emitByte b s).result = s.result := rfl
@[simp] theorem emitByte_params (b : Byte) (s : State) : (emitByte b s).params = s.params := rfl
@[simp] theorem emitByte_levels (b : Byte) (s : State) : (emitByte b s).levels = s.levels := rfl
@[simp] theorem emitByte_stream (b : Byte) (s : State) : (emitByte b s).stream = s.stream := rfl
@[simp] theorem emitByte_script (b : Byte) (s : State) : (emitByte b s).script = s.script := rfl
@[simp] theorem emitByte_tdoDraws (b : Byte) (s : State) : (emitByte b s).tdoDraws = s.tdoDraws := rfl
@[simp] theorem emitByte_draws (b : Byte) (s : State) : (emitByte b s).draws = s.draws := rfl
@[simp] theorem emitByte_trace (b : Byte) (s : State) : (emitByte b s).trace = s.trace ++ [.emit b] := rfl
@[simp] theorem emitByte_nBytes (b : Byte) (s : State) : (emitByte b s).nBytes = s.nBytes := rfl

/-! ### pinWrite -/

@[simp] theorem pinWrite_fst (a b c : Bool) (s : State) : (pinWrite a b c s).fst = s.fst := rfl
@[simp] theorem pinWrite_cntR (a b c : Bool) (s : State) : (pinWrite a b c s).cntR = s.cntR := rfl
@[simp] theorem pinWrite_tokR (a b c : Bool) (s : State) : (pinWrite a b c s).tokR = s.tokR := rfl
@[simp] theorem pinWrite_lenR (a b c : Bool) (s : State) : (pinWrite a b c s).lenR = s.lenR := rfl
@[simp] theorem pinWrite_nbytesR (a b c : Bool) (s : State) : (pinWrite a b c s).nbytesR = s.nbytesR := rfl
@[simp] theorem pinWrite_echoR (a b c : Bool) (s : State) : (pinWrite a b c s).echoR = s.echoR := rfl
@[simp] theorem pinWrite_outcomeR (a b c : Bool) (s : State) : (pinWrite a b c s).outcomeR = s.outcomeR := rfl
@[simp] theorem pinWrite_causeR (a b c : Bool) (s : State) : (pinWrite a b c s).causeR = s.causeR := rfl
@[simp] theorem pinWrite_delayR (a b c : Bool) (s : State) : (pinWrite a b c s).delayR = s.delayR := rfl
@[simp] theorem pinWrite_est (a b c : Bool) (s : State) : (pinWrite a b c s).est = s.est := rfl
@[simp] theorem pinWrite_tmsW (a b c : Bool) (s : State) : (pinWrite a b c s).tmsW = s.tmsW := rfl
@[simp] theorem pinWrite_tdiW (a b c : Bool) (s : State) : (pinWrite a b c s).tdiW = s.tdiW := rfl
@[simp] theorem pinWrite_tdoW (a b c : Bool) (s : State) : (pinWrite a b c s).tdoW = s.tdoW := rfl
@[simp] theorem pinWrite_stepR (a b c : Bool) (s : State) : (pinWrite a b c s).stepR = s.stepR := rfl
@[simp] theorem pinWrite_nstepR (a b c : Bool) (s : State) : (pinWrite a b c s).nstepR = s.nstepR := rfl
@[simp] theorem pinWrite_offR (a b c : Bool) (s : State) : (pinWrite a b c s).offR = s.offR := rfl
@[simp] theorem pinWrite_bleftR (a b c : Bool) (s : State) : (pinWrite a b c s).bleftR = s.bleftR := rfl
@[simp] theorem pinWrite_dlyCnt (a b c : Bool) (s : State) : (pinWrite a b c s).dlyCnt = s.dlyCnt := rfl
@[simp] theorem pinWrite_tckQ (a b c : Bool) (s : State) : (pinWrite a b c s).tckQ = a := rfl
@[simp] theorem pinWrite_tmsQ (a b c : Bool) (s : State) : (pinWrite a b c s).tmsQ = b := rfl
@[simp] theorem pinWrite_tdiQ (a b c : Bool) (s : State) : (pinWrite a b c s).tdiQ = c := rfl
@[simp] theorem pinWrite_scratch (a b c : Bool) (s : State) : (pinWrite a b c s).scratch = s.scratch := rfl
@[simp] theorem pinWrite_result (a b c : Bool) (s : State) : (pinWrite a b c s).result = s.result := rfl
@[simp] theorem pinWrite_params (a b c : Bool) (s : State) : (pinWrite a b c s).params = s.params := rfl
@[simp] theorem pinWrite_levels (a b c : Bool) (s : State) : (pinWrite a b c s).levels = s.levels := rfl
@[simp] theorem pinWrite_stream (a b c : Bool) (s : State) : (pinWrite a b c s).stream = s.stream := rfl
@[simp] theorem pinWrite_script (a b c : Bool) (s : State) : (pinWrite a b c s).script = s.script := rfl
@[simp] theorem pinWrite_tdoDraws (a b c : Bool) (s : State) : (pinWrite a b c s).tdoDraws = s.tdoDraws := rfl
@[simp] theorem pinWrite_draws (a b c : Bool) (s : State) : (pinWrite a b c s).draws = s.draws := rfl
@[simp] theorem pinWrite_trace (a b c : Bool) (s : State) : (pinWrite a b c s).trace = s.trace ++ [.write a b c] := rfl
@[simp] theorem pinWrite_nBytes (a b c : Bool) (s : State) : (pinWrite a b c s).nBytes = s.nBytes := rfl

/-! ### startDelay -/

@[simp] theorem startDelay_fst (s : State) : (startDelay s).fst = s.fst := rfl
@[simp] theorem startDelay_cntR (s : State) : (startDelay s).cntR = s.cntR := rfl
@[simp] theorem startDelay_tokR (s : State) : (startDelay s).tokR = s.tokR := rfl
@[simp] theorem startDelay_lenR (s : State) : (startDelay s).lenR = s.lenR := rfl
@[simp] theorem startDelay_nbytesR (s : State) : (startDelay s).nbytesR = s.nbytesR := rfl
@[simp] theorem startDelay_echoR (s : State) : (startDelay s).echoR = s.echoR := rfl
@[simp] theorem startDelay_outcomeR (s : State) : (startDelay s).outcomeR = s.outcomeR := rfl
@[simp] theorem startDelay_causeR (s : State) : (startDelay s).causeR = s.causeR := rfl
@[simp] theorem startDelay_delayR (s : State) : (startDelay s).delayR = s.delayR := rfl
@[simp] theorem startDelay_est (s : State) : (startDelay s).est = s.est := rfl
@[simp] theorem startDelay_tmsW (s : State) : (startDelay s).tmsW = s.tmsW := rfl
@[simp] theorem startDelay_tdiW (s : State) : (startDelay s).tdiW = s.tdiW := rfl
@[simp] theorem startDelay_tdoW (s : State) : (startDelay s).tdoW = s.tdoW := rfl
@[simp] theorem startDelay_stepR (s : State) : (startDelay s).stepR = s.stepR := rfl
@[simp] theorem startDelay_nstepR (s : State) : (startDelay s).nstepR = s.nstepR := rfl
@[simp] theorem startDelay_offR (s : State) : (startDelay s).offR = s.offR := rfl
@[simp] theorem startDelay_bleftR (s : State) : (startDelay s).bleftR = s.bleftR := rfl
@[simp] theorem startDelay_dlyCnt (s : State) : (startDelay s).dlyCnt = s.delayR := rfl
@[simp] theorem startDelay_tckQ (s : State) : (startDelay s).tckQ = s.tckQ := rfl
@[simp] theorem startDelay_tmsQ (s : State) : (startDelay s).tmsQ = s.tmsQ := rfl
@[simp] theorem startDelay_tdiQ (s : State) : (startDelay s).tdiQ = s.tdiQ := rfl
@[simp] theorem startDelay_scratch (s : State) : (startDelay s).scratch = s.scratch := rfl
@[simp] theorem startDelay_result (s : State) : (startDelay s).result = s.result := rfl
@[simp] theorem startDelay_params (s : State) : (startDelay s).params = s.params := rfl
@[simp] theorem startDelay_levels (s : State) : (startDelay s).levels = s.levels := rfl
@[simp] theorem startDelay_stream (s : State) : (startDelay s).stream = s.stream := rfl
@[simp] theorem startDelay_script (s : State) : (startDelay s).script = s.script := rfl
@[simp] theorem startDelay_tdoDraws (s : State) : (startDelay s).tdoDraws = s.tdoDraws := rfl
@[simp] theorem startDelay_draws (s : State) : (startDelay s).draws = s.draws := rfl
@[simp] theorem startDelay_trace (s : State) : (startDelay s).trace = s.trace := rfl
@[simp] theorem startDelay_nBytes (s : State) : (startDelay s).nBytes = s.nBytes := rfl

/-! ### tickDelay -/

@[simp] theorem tickDelay_fst (s : State) : (tickDelay s).fst = s.fst := rfl
@[simp] theorem tickDelay_cntR (s : State) : (tickDelay s).cntR = s.cntR := rfl
@[simp] theorem tickDelay_tokR (s : State) : (tickDelay s).tokR = s.tokR := rfl
@[simp] theorem tickDelay_lenR (s : State) : (tickDelay s).lenR = s.lenR := rfl
@[simp] theorem tickDelay_nbytesR (s : State) : (tickDelay s).nbytesR = s.nbytesR := rfl
@[simp] theorem tickDelay_echoR (s : State) : (tickDelay s).echoR = s.echoR := rfl
@[simp] theorem tickDelay_outcomeR (s : State) : (tickDelay s).outcomeR = s.outcomeR := rfl
@[simp] theorem tickDelay_causeR (s : State) : (tickDelay s).causeR = s.causeR := rfl
@[simp] theorem tickDelay_delayR (s : State) : (tickDelay s).delayR = s.delayR := rfl
@[simp] theorem tickDelay_est (s : State) : (tickDelay s).est = s.est := rfl
@[simp] theorem tickDelay_tmsW (s : State) : (tickDelay s).tmsW = s.tmsW := rfl
@[simp] theorem tickDelay_tdiW (s : State) : (tickDelay s).tdiW = s.tdiW := rfl
@[simp] theorem tickDelay_tdoW (s : State) : (tickDelay s).tdoW = s.tdoW := rfl
@[simp] theorem tickDelay_stepR (s : State) : (tickDelay s).stepR = s.stepR := rfl
@[simp] theorem tickDelay_nstepR (s : State) : (tickDelay s).nstepR = s.nstepR := rfl
@[simp] theorem tickDelay_offR (s : State) : (tickDelay s).offR = s.offR := rfl
@[simp] theorem tickDelay_bleftR (s : State) : (tickDelay s).bleftR = s.bleftR := rfl
@[simp] theorem tickDelay_dlyCnt (s : State) : (tickDelay s).dlyCnt = if s.dlyCnt = 0 then 0 else s.dlyCnt - 1 := rfl
@[simp] theorem tickDelay_tckQ (s : State) : (tickDelay s).tckQ = s.tckQ := rfl
@[simp] theorem tickDelay_tmsQ (s : State) : (tickDelay s).tmsQ = s.tmsQ := rfl
@[simp] theorem tickDelay_tdiQ (s : State) : (tickDelay s).tdiQ = s.tdiQ := rfl
@[simp] theorem tickDelay_scratch (s : State) : (tickDelay s).scratch = s.scratch := rfl
@[simp] theorem tickDelay_result (s : State) : (tickDelay s).result = s.result := rfl
@[simp] theorem tickDelay_params (s : State) : (tickDelay s).params = s.params := rfl
@[simp] theorem tickDelay_levels (s : State) : (tickDelay s).levels = s.levels := rfl
@[simp] theorem tickDelay_stream (s : State) : (tickDelay s).stream = s.stream := rfl
@[simp] theorem tickDelay_script (s : State) : (tickDelay s).script = s.script := rfl
@[simp] theorem tickDelay_tdoDraws (s : State) : (tickDelay s).tdoDraws = s.tdoDraws := rfl
@[simp] theorem tickDelay_draws (s : State) : (tickDelay s).draws = s.draws := rfl
@[simp] theorem tickDelay_trace (s : State) : (tickDelay s).trace = s.trace := rfl
@[simp] theorem tickDelay_nBytes (s : State) : (tickDelay s).nBytes = s.nBytes := rfl

/-! ### sampleTdo -/

@[simp] theorem sampleTdo_fst (s : State) : (sampleTdo s).fst = s.fst := rfl
@[simp] theorem sampleTdo_cntR (s : State) : (sampleTdo s).cntR = s.cntR := rfl
@[simp] theorem sampleTdo_tokR (s : State) : (sampleTdo s).tokR = s.tokR := rfl
@[simp] theorem sampleTdo_lenR (s : State) : (sampleTdo s).lenR = s.lenR := rfl
@[simp] theorem sampleTdo_nbytesR (s : State) : (sampleTdo s).nbytesR = s.nbytesR := rfl
@[simp] theorem sampleTdo_echoR (s : State) : (sampleTdo s).echoR = s.echoR := rfl
@[simp] theorem sampleTdo_outcomeR (s : State) : (sampleTdo s).outcomeR = s.outcomeR := rfl
@[simp] theorem sampleTdo_causeR (s : State) : (sampleTdo s).causeR = s.causeR := rfl
@[simp] theorem sampleTdo_delayR (s : State) : (sampleTdo s).delayR = s.delayR := rfl
@[simp] theorem sampleTdo_est (s : State) : (sampleTdo s).est = s.est := rfl
@[simp] theorem sampleTdo_tmsW (s : State) : (sampleTdo s).tmsW = s.tmsW := rfl
@[simp] theorem sampleTdo_tdiW (s : State) : (sampleTdo s).tdiW = s.tdiW := rfl
@[simp] theorem sampleTdo_tdoW (s : State) : (sampleTdo s).tdoW = setBit s.tdoW s.stepR.toNat (s.drawValue 0) := rfl
@[simp] theorem sampleTdo_stepR (s : State) : (sampleTdo s).stepR = s.stepR := rfl
@[simp] theorem sampleTdo_nstepR (s : State) : (sampleTdo s).nstepR = s.nstepR := rfl
@[simp] theorem sampleTdo_offR (s : State) : (sampleTdo s).offR = s.offR := rfl
@[simp] theorem sampleTdo_bleftR (s : State) : (sampleTdo s).bleftR = s.bleftR := rfl
@[simp] theorem sampleTdo_dlyCnt (s : State) : (sampleTdo s).dlyCnt = s.dlyCnt := rfl
@[simp] theorem sampleTdo_tckQ (s : State) : (sampleTdo s).tckQ = s.tckQ := rfl
@[simp] theorem sampleTdo_tmsQ (s : State) : (sampleTdo s).tmsQ = s.tmsQ := rfl
@[simp] theorem sampleTdo_tdiQ (s : State) : (sampleTdo s).tdiQ = s.tdiQ := rfl
@[simp] theorem sampleTdo_scratch (s : State) : (sampleTdo s).scratch = s.scratch := rfl
@[simp] theorem sampleTdo_result (s : State) : (sampleTdo s).result = s.result := rfl
@[simp] theorem sampleTdo_params (s : State) : (sampleTdo s).params = s.params := rfl
@[simp] theorem sampleTdo_levels (s : State) : (sampleTdo s).levels = s.levels := rfl
@[simp] theorem sampleTdo_stream (s : State) : (sampleTdo s).stream = s.stream := rfl
@[simp] theorem sampleTdo_script (s : State) : (sampleTdo s).script = s.script := rfl
@[simp] theorem sampleTdo_tdoDraws (s : State) : (sampleTdo s).tdoDraws = s.tdoDraws.tail := rfl
@[simp] theorem sampleTdo_draws (s : State) : (sampleTdo s).draws = s.draws + 1 := rfl
@[simp] theorem sampleTdo_trace (s : State) : (sampleTdo s).trace = s.trace ++ [.sample (s.drawValue 0)] := rfl
@[simp] theorem sampleTdo_nBytes (s : State) : (sampleTdo s).nBytes = s.nBytes := rfl

/-! ### setTok -/

@[simp] theorem setTok_fst (t : BitVec 16) (s : State) : (setTok t s).fst = s.fst := rfl
@[simp] theorem setTok_cntR (t : BitVec 16) (s : State) : (setTok t s).cntR = s.cntR := rfl
@[simp] theorem setTok_tokR (t : BitVec 16) (s : State) : (setTok t s).tokR = t := rfl
@[simp] theorem setTok_lenR (t : BitVec 16) (s : State) : (setTok t s).lenR = s.lenR := rfl
@[simp] theorem setTok_nbytesR (t : BitVec 16) (s : State) : (setTok t s).nbytesR = s.nbytesR := rfl
@[simp] theorem setTok_echoR (t : BitVec 16) (s : State) : (setTok t s).echoR = s.echoR := rfl
@[simp] theorem setTok_outcomeR (t : BitVec 16) (s : State) : (setTok t s).outcomeR = s.outcomeR := rfl
@[simp] theorem setTok_causeR (t : BitVec 16) (s : State) : (setTok t s).causeR = s.causeR := rfl
@[simp] theorem setTok_delayR (t : BitVec 16) (s : State) : (setTok t s).delayR = s.delayR := rfl
@[simp] theorem setTok_est (t : BitVec 16) (s : State) : (setTok t s).est = s.est := rfl
@[simp] theorem setTok_tmsW (t : BitVec 16) (s : State) : (setTok t s).tmsW = s.tmsW := rfl
@[simp] theorem setTok_tdiW (t : BitVec 16) (s : State) : (setTok t s).tdiW = s.tdiW := rfl
@[simp] theorem setTok_tdoW (t : BitVec 16) (s : State) : (setTok t s).tdoW = s.tdoW := rfl
@[simp] theorem setTok_stepR (t : BitVec 16) (s : State) : (setTok t s).stepR = s.stepR := rfl
@[simp] theorem setTok_nstepR (t : BitVec 16) (s : State) : (setTok t s).nstepR = s.nstepR := rfl
@[simp] theorem setTok_offR (t : BitVec 16) (s : State) : (setTok t s).offR = s.offR := rfl
@[simp] theorem setTok_bleftR (t : BitVec 16) (s : State) : (setTok t s).bleftR = s.bleftR := rfl
@[simp] theorem setTok_dlyCnt (t : BitVec 16) (s : State) : (setTok t s).dlyCnt = s.dlyCnt := rfl
@[simp] theorem setTok_tckQ (t : BitVec 16) (s : State) : (setTok t s).tckQ = s.tckQ := rfl
@[simp] theorem setTok_tmsQ (t : BitVec 16) (s : State) : (setTok t s).tmsQ = s.tmsQ := rfl
@[simp] theorem setTok_tdiQ (t : BitVec 16) (s : State) : (setTok t s).tdiQ = s.tdiQ := rfl
@[simp] theorem setTok_scratch (t : BitVec 16) (s : State) : (setTok t s).scratch = s.scratch := rfl
@[simp] theorem setTok_result (t : BitVec 16) (s : State) : (setTok t s).result = s.result := rfl
@[simp] theorem setTok_params (t : BitVec 16) (s : State) : (setTok t s).params = s.params := rfl
@[simp] theorem setTok_levels (t : BitVec 16) (s : State) : (setTok t s).levels = s.levels := rfl
@[simp] theorem setTok_stream (t : BitVec 16) (s : State) : (setTok t s).stream = s.stream := rfl
@[simp] theorem setTok_script (t : BitVec 16) (s : State) : (setTok t s).script = s.script := rfl
@[simp] theorem setTok_tdoDraws (t : BitVec 16) (s : State) : (setTok t s).tdoDraws = s.tdoDraws := rfl
@[simp] theorem setTok_draws (t : BitVec 16) (s : State) : (setTok t s).draws = s.draws := rfl
@[simp] theorem setTok_trace (t : BitVec 16) (s : State) : (setTok t s).trace = s.trace := rfl
@[simp] theorem setTok_nBytes (t : BitVec 16) (s : State) : (setTok t s).nBytes = s.nBytes := rfl

/-! ### setEchoByte -/

@[simp] theorem setEchoByte_fst (j : Nat) (b : Byte) (s : State) : (setEchoByte j b s).fst = s.fst := rfl
@[simp] theorem setEchoByte_cntR (j : Nat) (b : Byte) (s : State) : (setEchoByte j b s).cntR = s.cntR := rfl
@[simp] theorem setEchoByte_tokR (j : Nat) (b : Byte) (s : State) : (setEchoByte j b s).tokR = s.tokR := rfl
@[simp] theorem setEchoByte_lenR (j : Nat) (b : Byte) (s : State) : (setEchoByte j b s).lenR = s.lenR := rfl
@[simp] theorem setEchoByte_nbytesR (j : Nat) (b : Byte) (s : State) : (setEchoByte j b s).nbytesR = s.nbytesR := rfl
@[simp] theorem setEchoByte_echoR (j : Nat) (b : Byte) (s : State) : (setEchoByte j b s).echoR = setByte s.echoR j b := rfl
@[simp] theorem setEchoByte_outcomeR (j : Nat) (b : Byte) (s : State) : (setEchoByte j b s).outcomeR = s.outcomeR := rfl
@[simp] theorem setEchoByte_causeR (j : Nat) (b : Byte) (s : State) : (setEchoByte j b s).causeR = s.causeR := rfl
@[simp] theorem setEchoByte_delayR (j : Nat) (b : Byte) (s : State) : (setEchoByte j b s).delayR = s.delayR := rfl
@[simp] theorem setEchoByte_est (j : Nat) (b : Byte) (s : State) : (setEchoByte j b s).est = s.est := rfl
@[simp] theorem setEchoByte_tmsW (j : Nat) (b : Byte) (s : State) : (setEchoByte j b s).tmsW = s.tmsW := rfl
@[simp] theorem setEchoByte_tdiW (j : Nat) (b : Byte) (s : State) : (setEchoByte j b s).tdiW = s.tdiW := rfl
@[simp] theorem setEchoByte_tdoW (j : Nat) (b : Byte) (s : State) : (setEchoByte j b s).tdoW = s.tdoW := rfl
@[simp] theorem setEchoByte_stepR (j : Nat) (b : Byte) (s : State) : (setEchoByte j b s).stepR = s.stepR := rfl
@[simp] theorem setEchoByte_nstepR (j : Nat) (b : Byte) (s : State) : (setEchoByte j b s).nstepR = s.nstepR := rfl
@[simp] theorem setEchoByte_offR (j : Nat) (b : Byte) (s : State) : (setEchoByte j b s).offR = s.offR := rfl
@[simp] theorem setEchoByte_bleftR (j : Nat) (b : Byte) (s : State) : (setEchoByte j b s).bleftR = s.bleftR := rfl
@[simp] theorem setEchoByte_dlyCnt (j : Nat) (b : Byte) (s : State) : (setEchoByte j b s).dlyCnt = s.dlyCnt := rfl
@[simp] theorem setEchoByte_tckQ (j : Nat) (b : Byte) (s : State) : (setEchoByte j b s).tckQ = s.tckQ := rfl
@[simp] theorem setEchoByte_tmsQ (j : Nat) (b : Byte) (s : State) : (setEchoByte j b s).tmsQ = s.tmsQ := rfl
@[simp] theorem setEchoByte_tdiQ (j : Nat) (b : Byte) (s : State) : (setEchoByte j b s).tdiQ = s.tdiQ := rfl
@[simp] theorem setEchoByte_scratch (j : Nat) (b : Byte) (s : State) : (setEchoByte j b s).scratch = s.scratch := rfl
@[simp] theorem setEchoByte_result (j : Nat) (b : Byte) (s : State) : (setEchoByte j b s).result = s.result := rfl
@[simp] theorem setEchoByte_params (j : Nat) (b : Byte) (s : State) : (setEchoByte j b s).params = s.params := rfl
@[simp] theorem setEchoByte_levels (j : Nat) (b : Byte) (s : State) : (setEchoByte j b s).levels = s.levels := rfl
@[simp] theorem setEchoByte_stream (j : Nat) (b : Byte) (s : State) : (setEchoByte j b s).stream = s.stream := rfl
@[simp] theorem setEchoByte_script (j : Nat) (b : Byte) (s : State) : (setEchoByte j b s).script = s.script := rfl
@[simp] theorem setEchoByte_tdoDraws (j : Nat) (b : Byte) (s : State) : (setEchoByte j b s).tdoDraws = s.tdoDraws := rfl
@[simp] theorem setEchoByte_draws (j : Nat) (b : Byte) (s : State) : (setEchoByte j b s).draws = s.draws := rfl
@[simp] theorem setEchoByte_trace (j : Nat) (b : Byte) (s : State) : (setEchoByte j b s).trace = s.trace := rfl
@[simp] theorem setEchoByte_nBytes (j : Nat) (b : Byte) (s : State) : (setEchoByte j b s).nBytes = s.nBytes := rfl

/-! ### setLenByte -/

@[simp] theorem setLenByte_fst (j : Nat) (b : Byte) (s : State) : (setLenByte j b s).fst = s.fst := rfl
@[simp] theorem setLenByte_cntR (j : Nat) (b : Byte) (s : State) : (setLenByte j b s).cntR = s.cntR := rfl
@[simp] theorem setLenByte_tokR (j : Nat) (b : Byte) (s : State) : (setLenByte j b s).tokR = s.tokR := rfl
@[simp] theorem setLenByte_lenR (j : Nat) (b : Byte) (s : State) : (setLenByte j b s).lenR = setByte s.lenR j b := rfl
@[simp] theorem setLenByte_nbytesR (j : Nat) (b : Byte) (s : State) : (setLenByte j b s).nbytesR = s.nbytesR := rfl
@[simp] theorem setLenByte_echoR (j : Nat) (b : Byte) (s : State) : (setLenByte j b s).echoR = s.echoR := rfl
@[simp] theorem setLenByte_outcomeR (j : Nat) (b : Byte) (s : State) : (setLenByte j b s).outcomeR = s.outcomeR := rfl
@[simp] theorem setLenByte_causeR (j : Nat) (b : Byte) (s : State) : (setLenByte j b s).causeR = s.causeR := rfl
@[simp] theorem setLenByte_delayR (j : Nat) (b : Byte) (s : State) : (setLenByte j b s).delayR = s.delayR := rfl
@[simp] theorem setLenByte_est (j : Nat) (b : Byte) (s : State) : (setLenByte j b s).est = s.est := rfl
@[simp] theorem setLenByte_tmsW (j : Nat) (b : Byte) (s : State) : (setLenByte j b s).tmsW = s.tmsW := rfl
@[simp] theorem setLenByte_tdiW (j : Nat) (b : Byte) (s : State) : (setLenByte j b s).tdiW = s.tdiW := rfl
@[simp] theorem setLenByte_tdoW (j : Nat) (b : Byte) (s : State) : (setLenByte j b s).tdoW = s.tdoW := rfl
@[simp] theorem setLenByte_stepR (j : Nat) (b : Byte) (s : State) : (setLenByte j b s).stepR = s.stepR := rfl
@[simp] theorem setLenByte_nstepR (j : Nat) (b : Byte) (s : State) : (setLenByte j b s).nstepR = s.nstepR := rfl
@[simp] theorem setLenByte_offR (j : Nat) (b : Byte) (s : State) : (setLenByte j b s).offR = s.offR := rfl
@[simp] theorem setLenByte_bleftR (j : Nat) (b : Byte) (s : State) : (setLenByte j b s).bleftR = s.bleftR := rfl
@[simp] theorem setLenByte_dlyCnt (j : Nat) (b : Byte) (s : State) : (setLenByte j b s).dlyCnt = s.dlyCnt := rfl
@[simp] theorem setLenByte_tckQ (j : Nat) (b : Byte) (s : State) : (setLenByte j b s).tckQ = s.tckQ := rfl
@[simp] theorem setLenByte_tmsQ (j : Nat) (b : Byte) (s : State) : (setLenByte j b s).tmsQ = s.tmsQ := rfl
@[simp] theorem setLenByte_tdiQ (j : Nat) (b : Byte) (s : State) : (setLenByte j b s).tdiQ = s.tdiQ := rfl
@[simp] theorem setLenByte_scratch (j : Nat) (b : Byte) (s : State) : (setLenByte j b s).scratch = s.scratch := rfl
@[simp] theorem setLenByte_result (j : Nat) (b : Byte) (s : State) : (setLenByte j b s).result = s.result := rfl
@[simp] theorem setLenByte_params (j : Nat) (b : Byte) (s : State) : (setLenByte j b s).params = s.params := rfl
@[simp] theorem setLenByte_levels (j : Nat) (b : Byte) (s : State) : (setLenByte j b s).levels = s.levels := rfl
@[simp] theorem setLenByte_stream (j : Nat) (b : Byte) (s : State) : (setLenByte j b s).stream = s.stream := rfl
@[simp] theorem setLenByte_script (j : Nat) (b : Byte) (s : State) : (setLenByte j b s).script = s.script := rfl
@[simp] theorem setLenByte_tdoDraws (j : Nat) (b : Byte) (s : State) : (setLenByte j b s).tdoDraws = s.tdoDraws := rfl
@[simp] theorem setLenByte_draws (j : Nat) (b : Byte) (s : State) : (setLenByte j b s).draws = s.draws := rfl
@[simp] theorem setLenByte_trace (j : Nat) (b : Byte) (s : State) : (setLenByte j b s).trace = s.trace := rfl
@[simp] theorem setLenByte_nBytes (j : Nat) (b : Byte) (s : State) : (setLenByte j b s).nBytes = s.nBytes := rfl

/-! ### latchBytes -/

@[simp] theorem latchBytes_fst (s : State) : (latchBytes s).fst = s.fst := rfl
@[simp] theorem latchBytes_cntR (s : State) : (latchBytes s).cntR = s.cntR := rfl
@[simp] theorem latchBytes_tokR (s : State) : (latchBytes s).tokR = s.tokR := rfl
@[simp] theorem latchBytes_lenR (s : State) : (latchBytes s).lenR = s.lenR := rfl
@[simp] theorem latchBytes_nbytesR (s : State) : (latchBytes s).nbytesR = nbytesOf s.lenR := rfl
@[simp] theorem latchBytes_echoR (s : State) : (latchBytes s).echoR = s.echoR := rfl
@[simp] theorem latchBytes_outcomeR (s : State) : (latchBytes s).outcomeR = s.outcomeR := rfl
@[simp] theorem latchBytes_causeR (s : State) : (latchBytes s).causeR = s.causeR := rfl
@[simp] theorem latchBytes_delayR (s : State) : (latchBytes s).delayR = s.delayR := rfl
@[simp] theorem latchBytes_est (s : State) : (latchBytes s).est = s.est := rfl
@[simp] theorem latchBytes_tmsW (s : State) : (latchBytes s).tmsW = s.tmsW := rfl
@[simp] theorem latchBytes_tdiW (s : State) : (latchBytes s).tdiW = s.tdiW := rfl
@[simp] theorem latchBytes_tdoW (s : State) : (latchBytes s).tdoW = s.tdoW := rfl
@[simp] theorem latchBytes_stepR (s : State) : (latchBytes s).stepR = s.stepR := rfl
@[simp] theorem latchBytes_nstepR (s : State) : (latchBytes s).nstepR = s.nstepR := rfl
@[simp] theorem latchBytes_offR (s : State) : (latchBytes s).offR = s.offR := rfl
@[simp] theorem latchBytes_bleftR (s : State) : (latchBytes s).bleftR = s.bleftR := rfl
@[simp] theorem latchBytes_dlyCnt (s : State) : (latchBytes s).dlyCnt = s.dlyCnt := rfl
@[simp] theorem latchBytes_tckQ (s : State) : (latchBytes s).tckQ = s.tckQ := rfl
@[simp] theorem latchBytes_tmsQ (s : State) : (latchBytes s).tmsQ = s.tmsQ := rfl
@[simp] theorem latchBytes_tdiQ (s : State) : (latchBytes s).tdiQ = s.tdiQ := rfl
@[simp] theorem latchBytes_scratch (s : State) : (latchBytes s).scratch = s.scratch := rfl
@[simp] theorem latchBytes_result (s : State) : (latchBytes s).result = s.result := rfl
@[simp] theorem latchBytes_params (s : State) : (latchBytes s).params = s.params := rfl
@[simp] theorem latchBytes_levels (s : State) : (latchBytes s).levels = s.levels := rfl
@[simp] theorem latchBytes_stream (s : State) : (latchBytes s).stream = s.stream := rfl
@[simp] theorem latchBytes_script (s : State) : (latchBytes s).script = s.script := rfl
@[simp] theorem latchBytes_tdoDraws (s : State) : (latchBytes s).tdoDraws = s.tdoDraws := rfl
@[simp] theorem latchBytes_draws (s : State) : (latchBytes s).draws = s.draws := rfl
@[simp] theorem latchBytes_trace (s : State) : (latchBytes s).trace = s.trace := rfl

/-! ### setEst -/

@[simp] theorem setEst_fst (e : Est) (s : State) : (setEst e s).fst = s.fst := rfl
@[simp] theorem setEst_cntR (e : Est) (s : State) : (setEst e s).cntR = s.cntR := rfl
@[simp] theorem setEst_tokR (e : Est) (s : State) : (setEst e s).tokR = s.tokR := rfl
@[simp] theorem setEst_lenR (e : Est) (s : State) : (setEst e s).lenR = s.lenR := rfl
@[simp] theorem setEst_nbytesR (e : Est) (s : State) : (setEst e s).nbytesR = s.nbytesR := rfl
@[simp] theorem setEst_echoR (e : Est) (s : State) : (setEst e s).echoR = s.echoR := rfl
@[simp] theorem setEst_outcomeR (e : Est) (s : State) : (setEst e s).outcomeR = s.outcomeR := rfl
@[simp] theorem setEst_causeR (e : Est) (s : State) : (setEst e s).causeR = s.causeR := rfl
@[simp] theorem setEst_delayR (e : Est) (s : State) : (setEst e s).delayR = s.delayR := rfl
@[simp] theorem setEst_est (e : Est) (s : State) : (setEst e s).est = e := rfl
@[simp] theorem setEst_tmsW (e : Est) (s : State) : (setEst e s).tmsW = s.tmsW := rfl
@[simp] theorem setEst_tdiW (e : Est) (s : State) : (setEst e s).tdiW = s.tdiW := rfl
@[simp] theorem setEst_tdoW (e : Est) (s : State) : (setEst e s).tdoW = s.tdoW := rfl
@[simp] theorem setEst_stepR (e : Est) (s : State) : (setEst e s).stepR = s.stepR := rfl
@[simp] theorem setEst_nstepR (e : Est) (s : State) : (setEst e s).nstepR = s.nstepR := rfl
@[simp] theorem setEst_offR (e : Est) (s : State) : (setEst e s).offR = s.offR := rfl
@[simp] theorem setEst_bleftR (e : Est) (s : State) : (setEst e s).bleftR = s.bleftR := rfl
@[simp] theorem setEst_dlyCnt (e : Est) (s : State) : (setEst e s).dlyCnt = s.dlyCnt := rfl
@[simp] theorem setEst_tckQ (e : Est) (s : State) : (setEst e s).tckQ = s.tckQ := rfl
@[simp] theorem setEst_tmsQ (e : Est) (s : State) : (setEst e s).tmsQ = s.tmsQ := rfl
@[simp] theorem setEst_tdiQ (e : Est) (s : State) : (setEst e s).tdiQ = s.tdiQ := rfl
@[simp] theorem setEst_scratch (e : Est) (s : State) : (setEst e s).scratch = s.scratch := rfl
@[simp] theorem setEst_result (e : Est) (s : State) : (setEst e s).result = s.result := rfl
@[simp] theorem setEst_params (e : Est) (s : State) : (setEst e s).params = s.params := rfl
@[simp] theorem setEst_levels (e : Est) (s : State) : (setEst e s).levels = s.levels := rfl
@[simp] theorem setEst_stream (e : Est) (s : State) : (setEst e s).stream = s.stream := rfl
@[simp] theorem setEst_script (e : Est) (s : State) : (setEst e s).script = s.script := rfl
@[simp] theorem setEst_tdoDraws (e : Est) (s : State) : (setEst e s).tdoDraws = s.tdoDraws := rfl
@[simp] theorem setEst_draws (e : Est) (s : State) : (setEst e s).draws = s.draws := rfl
@[simp] theorem setEst_trace (e : Est) (s : State) : (setEst e s).trace = s.trace := rfl
@[simp] theorem setEst_nBytes (e : Est) (s : State) : (setEst e s).nBytes = s.nBytes := rfl

/-! ### beginShift -/

@[simp] theorem beginShift_fst (s : State) : (beginShift s).fst = s.fst := rfl
@[simp] theorem beginShift_cntR (s : State) : (beginShift s).cntR = s.cntR := rfl
@[simp] theorem beginShift_tokR (s : State) : (beginShift s).tokR = s.tokR := rfl
@[simp] theorem beginShift_lenR (s : State) : (beginShift s).lenR = s.lenR := rfl
@[simp] theorem beginShift_nbytesR (s : State) : (beginShift s).nbytesR = s.nbytesR := rfl
@[simp] theorem beginShift_echoR (s : State) : (beginShift s).echoR = s.echoR := rfl
@[simp] theorem beginShift_outcomeR (s : State) : (beginShift s).outcomeR = s.outcomeR := rfl
@[simp] theorem beginShift_causeR (s : State) : (beginShift s).causeR = s.causeR := rfl
@[simp] theorem beginShift_delayR (s : State) : (beginShift s).delayR = s.delayR := rfl
@[simp] theorem beginShift_est (s : State) : (beginShift s).est = s.est := rfl
@[simp] theorem beginShift_tmsW (s : State) : (beginShift s).tmsW = s.tmsW := rfl
@[simp] theorem beginShift_tdiW (s : State) : (beginShift s).tdiW = s.tdiW := rfl
@[simp] theorem beginShift_tdoW (s : State) : (beginShift s).tdoW = s.tdoW := rfl
@[simp] theorem beginShift_stepR (s : State) : (beginShift s).stepR = s.stepR := rfl
@[simp] theorem beginShift_nstepR (s : State) : (beginShift s).nstepR = s.nstepR := rfl
@[simp] theorem beginShift_offR (s : State) : (beginShift s).offR = 0 := rfl
@[simp] theorem beginShift_bleftR (s : State) : (beginShift s).bleftR = s.lenR.toNat := rfl
@[simp] theorem beginShift_dlyCnt (s : State) : (beginShift s).dlyCnt = s.dlyCnt := rfl
@[simp] theorem beginShift_tckQ (s : State) : (beginShift s).tckQ = s.tckQ := rfl
@[simp] theorem beginShift_tmsQ (s : State) : (beginShift s).tmsQ = s.tmsQ := rfl
@[simp] theorem beginShift_tdiQ (s : State) : (beginShift s).tdiQ = s.tdiQ := rfl
@[simp] theorem beginShift_scratch (s : State) : (beginShift s).scratch = s.scratch := rfl
@[simp] theorem beginShift_result (s : State) : (beginShift s).result = s.result := rfl
@[simp] theorem beginShift_params (s : State) : (beginShift s).params = s.params := rfl
@[simp] theorem beginShift_levels (s : State) : (beginShift s).levels = s.levels := rfl
@[simp] theorem beginShift_stream (s : State) : (beginShift s).stream = s.stream := rfl
@[simp] theorem beginShift_script (s : State) : (beginShift s).script = s.script := rfl
@[simp] theorem beginShift_tdoDraws (s : State) : (beginShift s).tdoDraws = s.tdoDraws := rfl
@[simp] theorem beginShift_draws (s : State) : (beginShift s).draws = s.draws := rfl
@[simp] theorem beginShift_trace (s : State) : (beginShift s).trace = s.trace := rfl
@[simp] theorem beginShift_nBytes (s : State) : (beginShift s).nBytes = s.nBytes := rfl

/-! ### startChunk -/

@[simp] theorem startChunk_fst (w v : Word) (s : State) : (startChunk w v s).fst = s.fst := rfl
@[simp] theorem startChunk_cntR (w v : Word) (s : State) : (startChunk w v s).cntR = s.cntR := rfl
@[simp] theorem startChunk_tokR (w v : Word) (s : State) : (startChunk w v s).tokR = s.tokR := rfl
@[simp] theorem startChunk_lenR (w v : Word) (s : State) : (startChunk w v s).lenR = s.lenR := rfl
@[simp] theorem startChunk_nbytesR (w v : Word) (s : State) : (startChunk w v s).nbytesR = s.nbytesR := rfl
@[simp] theorem startChunk_echoR (w v : Word) (s : State) : (startChunk w v s).echoR = s.echoR := rfl
@[simp] theorem startChunk_outcomeR (w v : Word) (s : State) : (startChunk w v s).outcomeR = s.outcomeR := rfl
@[simp] theorem startChunk_causeR (w v : Word) (s : State) : (startChunk w v s).causeR = s.causeR := rfl
@[simp] theorem startChunk_delayR (w v : Word) (s : State) : (startChunk w v s).delayR = s.delayR := rfl
@[simp] theorem startChunk_est (w v : Word) (s : State) : (startChunk w v s).est = s.est := rfl
@[simp] theorem startChunk_tmsW (w v : Word) (s : State) : (startChunk w v s).tmsW = w := rfl
@[simp] theorem startChunk_tdiW (w v : Word) (s : State) : (startChunk w v s).tdiW = v := rfl
@[simp] theorem startChunk_tdoW (w v : Word) (s : State) : (startChunk w v s).tdoW = 0 := rfl
@[simp] theorem startChunk_stepR (w v : Word) (s : State) : (startChunk w v s).stepR = 0 := rfl
@[simp] theorem startChunk_nstepR (w v : Word) (s : State) : (startChunk w v s).nstepR = BitVec.ofNat 6 (chunkSteps s.bleftR) := rfl
@[simp] theorem startChunk_offR (w v : Word) (s : State) : (startChunk w v s).offR = s.offR := rfl
@[simp] theorem startChunk_bleftR (w v : Word) (s : State) : (startChunk w v s).bleftR = s.bleftR := rfl
@[simp] theorem startChunk_dlyCnt (w v : Word) (s : State) : (startChunk w v s).dlyCnt = s.dlyCnt := rfl
@[simp] theorem startChunk_tckQ (w v : Word) (s : State) : (startChunk w v s).tckQ = s.tckQ := rfl
@[simp] theorem startChunk_tmsQ (w v : Word) (s : State) : (startChunk w v s).tmsQ = s.tmsQ := rfl
@[simp] theorem startChunk_tdiQ (w v : Word) (s : State) : (startChunk w v s).tdiQ = s.tdiQ := rfl
@[simp] theorem startChunk_scratch (w v : Word) (s : State) : (startChunk w v s).scratch = s.scratch := rfl
@[simp] theorem startChunk_result (w v : Word) (s : State) : (startChunk w v s).result = s.result := rfl
@[simp] theorem startChunk_params (w v : Word) (s : State) : (startChunk w v s).params = s.params := rfl
@[simp] theorem startChunk_levels (w v : Word) (s : State) : (startChunk w v s).levels = s.levels := rfl
@[simp] theorem startChunk_stream (w v : Word) (s : State) : (startChunk w v s).stream = s.stream := rfl
@[simp] theorem startChunk_script (w v : Word) (s : State) : (startChunk w v s).script = s.script := rfl
@[simp] theorem startChunk_tdoDraws (w v : Word) (s : State) : (startChunk w v s).tdoDraws = s.tdoDraws := rfl
@[simp] theorem startChunk_draws (w v : Word) (s : State) : (startChunk w v s).draws = s.draws := rfl
@[simp] theorem startChunk_trace (w v : Word) (s : State) : (startChunk w v s).trace = s.trace := rfl
@[simp] theorem startChunk_nBytes (w v : Word) (s : State) : (startChunk w v s).nBytes = s.nBytes := rfl

/-! ### advanceChunk -/

@[simp] theorem advanceChunk_fst (s : State) : (advanceChunk s).fst = s.fst := rfl
@[simp] theorem advanceChunk_cntR (s : State) : (advanceChunk s).cntR = s.cntR := rfl
@[simp] theorem advanceChunk_tokR (s : State) : (advanceChunk s).tokR = s.tokR := rfl
@[simp] theorem advanceChunk_lenR (s : State) : (advanceChunk s).lenR = s.lenR := rfl
@[simp] theorem advanceChunk_nbytesR (s : State) : (advanceChunk s).nbytesR = s.nbytesR := rfl
@[simp] theorem advanceChunk_echoR (s : State) : (advanceChunk s).echoR = s.echoR := rfl
@[simp] theorem advanceChunk_outcomeR (s : State) : (advanceChunk s).outcomeR = s.outcomeR := rfl
@[simp] theorem advanceChunk_causeR (s : State) : (advanceChunk s).causeR = s.causeR := rfl
@[simp] theorem advanceChunk_delayR (s : State) : (advanceChunk s).delayR = s.delayR := rfl
@[simp] theorem advanceChunk_est (s : State) : (advanceChunk s).est = s.est := rfl
@[simp] theorem advanceChunk_tmsW (s : State) : (advanceChunk s).tmsW = s.tmsW := rfl
@[simp] theorem advanceChunk_tdiW (s : State) : (advanceChunk s).tdiW = s.tdiW := rfl
@[simp] theorem advanceChunk_tdoW (s : State) : (advanceChunk s).tdoW = s.tdoW := rfl
@[simp] theorem advanceChunk_stepR (s : State) : (advanceChunk s).stepR = s.stepR := rfl
@[simp] theorem advanceChunk_nstepR (s : State) : (advanceChunk s).nstepR = s.nstepR := rfl
@[simp] theorem advanceChunk_offR (s : State) : (advanceChunk s).offR = s.offR + chunkBytes s.bleftR := rfl
@[simp] theorem advanceChunk_bleftR (s : State) : (advanceChunk s).bleftR = s.bleftR - s.nstepR.toNat := rfl
@[simp] theorem advanceChunk_dlyCnt (s : State) : (advanceChunk s).dlyCnt = s.dlyCnt := rfl
@[simp] theorem advanceChunk_tckQ (s : State) : (advanceChunk s).tckQ = s.tckQ := rfl
@[simp] theorem advanceChunk_tmsQ (s : State) : (advanceChunk s).tmsQ = s.tmsQ := rfl
@[simp] theorem advanceChunk_tdiQ (s : State) : (advanceChunk s).tdiQ = s.tdiQ := rfl
@[simp] theorem advanceChunk_scratch (s : State) : (advanceChunk s).scratch = s.scratch := rfl
@[simp] theorem advanceChunk_result (s : State) : (advanceChunk s).result = s.result := rfl
@[simp] theorem advanceChunk_params (s : State) : (advanceChunk s).params = s.params := rfl
@[simp] theorem advanceChunk_levels (s : State) : (advanceChunk s).levels = s.levels := rfl
@[simp] theorem advanceChunk_stream (s : State) : (advanceChunk s).stream = s.stream := rfl
@[simp] theorem advanceChunk_script (s : State) : (advanceChunk s).script = s.script := rfl
@[simp] theorem advanceChunk_tdoDraws (s : State) : (advanceChunk s).tdoDraws = s.tdoDraws := rfl
@[simp] theorem advanceChunk_draws (s : State) : (advanceChunk s).draws = s.draws := rfl
@[simp] theorem advanceChunk_trace (s : State) : (advanceChunk s).trace = s.trace := rfl
@[simp] theorem advanceChunk_nBytes (s : State) : (advanceChunk s).nBytes = s.nBytes := rfl

/-! ### nextStep -/

@[simp] theorem nextStep_fst (s : State) : (nextStep s).fst = s.fst := rfl
@[simp] theorem nextStep_cntR (s : State) : (nextStep s).cntR = s.cntR := rfl
@[simp] theorem nextStep_tokR (s : State) : (nextStep s).tokR = s.tokR := rfl
@[simp] theorem nextStep_lenR (s : State) : (nextStep s).lenR = s.lenR := rfl
@[simp] theorem nextStep_nbytesR (s : State) : (nextStep s).nbytesR = s.nbytesR := rfl
@[simp] theorem nextStep_echoR (s : State) : (nextStep s).echoR = s.echoR := rfl
@[simp] theorem nextStep_outcomeR (s : State) : (nextStep s).outcomeR = s.outcomeR := rfl
@[simp] theorem nextStep_causeR (s : State) : (nextStep s).causeR = s.causeR := rfl
@[simp] theorem nextStep_delayR (s : State) : (nextStep s).delayR = s.delayR := rfl
@[simp] theorem nextStep_est (s : State) : (nextStep s).est = s.est := rfl
@[simp] theorem nextStep_tmsW (s : State) : (nextStep s).tmsW = s.tmsW >>> 1 := rfl
@[simp] theorem nextStep_tdiW (s : State) : (nextStep s).tdiW = s.tdiW >>> 1 := rfl
@[simp] theorem nextStep_tdoW (s : State) : (nextStep s).tdoW = s.tdoW := rfl
@[simp] theorem nextStep_stepR (s : State) : (nextStep s).stepR = s.stepR + 1 := rfl
@[simp] theorem nextStep_nstepR (s : State) : (nextStep s).nstepR = s.nstepR := rfl
@[simp] theorem nextStep_offR (s : State) : (nextStep s).offR = s.offR := rfl
@[simp] theorem nextStep_bleftR (s : State) : (nextStep s).bleftR = s.bleftR := rfl
@[simp] theorem nextStep_dlyCnt (s : State) : (nextStep s).dlyCnt = s.dlyCnt := rfl
@[simp] theorem nextStep_tckQ (s : State) : (nextStep s).tckQ = s.tckQ := rfl
@[simp] theorem nextStep_tmsQ (s : State) : (nextStep s).tmsQ = s.tmsQ := rfl
@[simp] theorem nextStep_tdiQ (s : State) : (nextStep s).tdiQ = s.tdiQ := rfl
@[simp] theorem nextStep_scratch (s : State) : (nextStep s).scratch = s.scratch := rfl
@[simp] theorem nextStep_result (s : State) : (nextStep s).result = s.result := rfl
@[simp] theorem nextStep_params (s : State) : (nextStep s).params = s.params := rfl
@[simp] theorem nextStep_levels (s : State) : (nextStep s).levels = s.levels := rfl
@[simp] theorem nextStep_stream (s : State) : (nextStep s).stream = s.stream := rfl
@[simp] theorem nextStep_script (s : State) : (nextStep s).script = s.script := rfl
@[simp] theorem nextStep_tdoDraws (s : State) : (nextStep s).tdoDraws = s.tdoDraws := rfl
@[simp] theorem nextStep_draws (s : State) : (nextStep s).draws = s.draws := rfl
@[simp] theorem nextStep_trace (s : State) : (nextStep s).trace = s.trace := rfl
@[simp] theorem nextStep_nBytes (s : State) : (nextStep s).nBytes = s.nBytes := rfl

/-! ### restWrite -/

@[simp] theorem restWrite_fst (s : State) : (restWrite s).fst = s.fst := rfl
@[simp] theorem restWrite_cntR (s : State) : (restWrite s).cntR = s.cntR := rfl
@[simp] theorem restWrite_tokR (s : State) : (restWrite s).tokR = s.tokR := rfl
@[simp] theorem restWrite_lenR (s : State) : (restWrite s).lenR = s.lenR := rfl
@[simp] theorem restWrite_nbytesR (s : State) : (restWrite s).nbytesR = s.nbytesR := rfl
@[simp] theorem restWrite_echoR (s : State) : (restWrite s).echoR = s.echoR := rfl
@[simp] theorem restWrite_outcomeR (s : State) : (restWrite s).outcomeR = s.outcomeR := rfl
@[simp] theorem restWrite_causeR (s : State) : (restWrite s).causeR = s.causeR := rfl
@[simp] theorem restWrite_delayR (s : State) : (restWrite s).delayR = s.delayR := rfl
@[simp] theorem restWrite_est (s : State) : (restWrite s).est = .eFinish := rfl
@[simp] theorem restWrite_tmsW (s : State) : (restWrite s).tmsW = s.tmsW := rfl
@[simp] theorem restWrite_tdiW (s : State) : (restWrite s).tdiW = s.tdiW := rfl
@[simp] theorem restWrite_tdoW (s : State) : (restWrite s).tdoW = s.tdoW := rfl
@[simp] theorem restWrite_stepR (s : State) : (restWrite s).stepR = s.stepR := rfl
@[simp] theorem restWrite_nstepR (s : State) : (restWrite s).nstepR = s.nstepR := rfl
@[simp] theorem restWrite_offR (s : State) : (restWrite s).offR = s.offR := rfl
@[simp] theorem restWrite_bleftR (s : State) : (restWrite s).bleftR = s.bleftR := rfl
@[simp] theorem restWrite_dlyCnt (s : State) : (restWrite s).dlyCnt = s.delayR := rfl
@[simp] theorem restWrite_tckQ (s : State) : (restWrite s).tckQ = false := rfl
@[simp] theorem restWrite_tmsQ (s : State) : (restWrite s).tmsQ = true := rfl
@[simp] theorem restWrite_tdiQ (s : State) : (restWrite s).tdiQ = false := rfl
@[simp] theorem restWrite_scratch (s : State) : (restWrite s).scratch = s.scratch := rfl
@[simp] theorem restWrite_result (s : State) : (restWrite s).result = s.result := rfl
@[simp] theorem restWrite_params (s : State) : (restWrite s).params = s.params := rfl
@[simp] theorem restWrite_levels (s : State) : (restWrite s).levels = s.levels := rfl
@[simp] theorem restWrite_stream (s : State) : (restWrite s).stream = s.stream := rfl
@[simp] theorem restWrite_script (s : State) : (restWrite s).script = s.script := rfl
@[simp] theorem restWrite_tdoDraws (s : State) : (restWrite s).tdoDraws = s.tdoDraws := rfl
@[simp] theorem restWrite_draws (s : State) : (restWrite s).draws = s.draws := rfl
@[simp] theorem restWrite_trace (s : State) : (restWrite s).trace = s.trace ++ [.write false true false] := rfl
@[simp] theorem restWrite_nBytes (s : State) : (restWrite s).nBytes = s.nBytes := rfl

/-! ### lowWrite -/

@[simp] theorem lowWrite_fst (s : State) : (lowWrite s).fst = s.fst := rfl
@[simp] theorem lowWrite_cntR (s : State) : (lowWrite s).cntR = s.cntR := rfl
@[simp] theorem lowWrite_tokR (s : State) : (lowWrite s).tokR = s.tokR := rfl
@[simp] theorem lowWrite_lenR (s : State) : (lowWrite s).lenR = s.lenR := rfl
@[simp] theorem lowWrite_nbytesR (s : State) : (lowWrite s).nbytesR = s.nbytesR := rfl
@[simp] theorem lowWrite_echoR (s : State) : (lowWrite s).echoR = s.echoR := rfl
@[simp] theorem lowWrite_outcomeR (s : State) : (lowWrite s).outcomeR = s.outcomeR := rfl
@[simp] theorem lowWrite_causeR (s : State) : (lowWrite s).causeR = s.causeR := rfl
@[simp] theorem lowWrite_delayR (s : State) : (lowWrite s).delayR = s.delayR := rfl
@[simp] theorem lowWrite_est (s : State) : (lowWrite s).est = .eHigh := rfl
@[simp] theorem lowWrite_tmsW (s : State) : (lowWrite s).tmsW = s.tmsW := rfl
@[simp] theorem lowWrite_tdiW (s : State) : (lowWrite s).tdiW = s.tdiW := rfl
@[simp] theorem lowWrite_tdoW (s : State) : (lowWrite s).tdoW = s.tdoW := rfl
@[simp] theorem lowWrite_stepR (s : State) : (lowWrite s).stepR = s.stepR := rfl
@[simp] theorem lowWrite_nstepR (s : State) : (lowWrite s).nstepR = s.nstepR := rfl
@[simp] theorem lowWrite_offR (s : State) : (lowWrite s).offR = s.offR := rfl
@[simp] theorem lowWrite_bleftR (s : State) : (lowWrite s).bleftR = s.bleftR := rfl
@[simp] theorem lowWrite_dlyCnt (s : State) : (lowWrite s).dlyCnt = s.delayR := rfl
@[simp] theorem lowWrite_tckQ (s : State) : (lowWrite s).tckQ = false := rfl
@[simp] theorem lowWrite_tmsQ (s : State) : (lowWrite s).tmsQ = s.tmsW.getLsbD 0 := rfl
@[simp] theorem lowWrite_tdiQ (s : State) : (lowWrite s).tdiQ = s.tdiW.getLsbD 0 := rfl
@[simp] theorem lowWrite_scratch (s : State) : (lowWrite s).scratch = s.scratch := rfl
@[simp] theorem lowWrite_result (s : State) : (lowWrite s).result = s.result := rfl
@[simp] theorem lowWrite_params (s : State) : (lowWrite s).params = s.params := rfl
@[simp] theorem lowWrite_levels (s : State) : (lowWrite s).levels = s.levels := rfl
@[simp] theorem lowWrite_stream (s : State) : (lowWrite s).stream = s.stream := rfl
@[simp] theorem lowWrite_script (s : State) : (lowWrite s).script = s.script := rfl
@[simp] theorem lowWrite_tdoDraws (s : State) : (lowWrite s).tdoDraws = s.tdoDraws := rfl
@[simp] theorem lowWrite_draws (s : State) : (lowWrite s).draws = s.draws := rfl
@[simp] theorem lowWrite_trace (s : State) : (lowWrite s).trace = s.trace ++ [.write false (s.tmsW.getLsbD 0) (s.tdiW.getLsbD 0)] := rfl
@[simp] theorem lowWrite_nBytes (s : State) : (lowWrite s).nBytes = s.nBytes := rfl

/-! ### highWrite -/

@[simp] theorem highWrite_fst (s : State) : (highWrite s).fst = s.fst := rfl
@[simp] theorem highWrite_cntR (s : State) : (highWrite s).cntR = s.cntR := rfl
@[simp] theorem highWrite_tokR (s : State) : (highWrite s).tokR = s.tokR := rfl
@[simp] theorem highWrite_lenR (s : State) : (highWrite s).lenR = s.lenR := rfl
@[simp] theorem highWrite_nbytesR (s : State) : (highWrite s).nbytesR = s.nbytesR := rfl
@[simp] theorem highWrite_echoR (s : State) : (highWrite s).echoR = s.echoR := rfl
@[simp] theorem highWrite_outcomeR (s : State) : (highWrite s).outcomeR = s.outcomeR := rfl
@[simp] theorem highWrite_causeR (s : State) : (highWrite s).causeR = s.causeR := rfl
@[simp] theorem highWrite_delayR (s : State) : (highWrite s).delayR = s.delayR := rfl
@[simp] theorem highWrite_est (s : State) : (highWrite s).est = .eSample := rfl
@[simp] theorem highWrite_tmsW (s : State) : (highWrite s).tmsW = s.tmsW := rfl
@[simp] theorem highWrite_tdiW (s : State) : (highWrite s).tdiW = s.tdiW := rfl
@[simp] theorem highWrite_tdoW (s : State) : (highWrite s).tdoW = s.tdoW := rfl
@[simp] theorem highWrite_stepR (s : State) : (highWrite s).stepR = s.stepR := rfl
@[simp] theorem highWrite_nstepR (s : State) : (highWrite s).nstepR = s.nstepR := rfl
@[simp] theorem highWrite_offR (s : State) : (highWrite s).offR = s.offR := rfl
@[simp] theorem highWrite_bleftR (s : State) : (highWrite s).bleftR = s.bleftR := rfl
@[simp] theorem highWrite_dlyCnt (s : State) : (highWrite s).dlyCnt = s.delayR := rfl
@[simp] theorem highWrite_tckQ (s : State) : (highWrite s).tckQ = true := rfl
@[simp] theorem highWrite_tmsQ (s : State) : (highWrite s).tmsQ = s.tmsW.getLsbD 0 := rfl
@[simp] theorem highWrite_tdiQ (s : State) : (highWrite s).tdiQ = s.tdiW.getLsbD 0 := rfl
@[simp] theorem highWrite_scratch (s : State) : (highWrite s).scratch = s.scratch := rfl
@[simp] theorem highWrite_result (s : State) : (highWrite s).result = s.result := rfl
@[simp] theorem highWrite_params (s : State) : (highWrite s).params = s.params := rfl
@[simp] theorem highWrite_levels (s : State) : (highWrite s).levels = s.levels := rfl
@[simp] theorem highWrite_stream (s : State) : (highWrite s).stream = s.stream := rfl
@[simp] theorem highWrite_script (s : State) : (highWrite s).script = s.script := rfl
@[simp] theorem highWrite_tdoDraws (s : State) : (highWrite s).tdoDraws = s.tdoDraws := rfl
@[simp] theorem highWrite_draws (s : State) : (highWrite s).draws = s.draws := rfl
@[simp] theorem highWrite_trace (s : State) : (highWrite s).trace = s.trace ++ [.write true (s.tmsW.getLsbD 0) (s.tdiW.getLsbD 0)] := rfl
@[simp] theorem highWrite_nBytes (s : State) : (highWrite s).nBytes = s.nBytes := rfl

/-! ### sampleAndShift -/

@[simp] theorem sampleAndShift_fst (s : State) : (sampleAndShift s).fst = s.fst := rfl
@[simp] theorem sampleAndShift_cntR (s : State) : (sampleAndShift s).cntR = s.cntR := rfl
@[simp] theorem sampleAndShift_tokR (s : State) : (sampleAndShift s).tokR = s.tokR := rfl
@[simp] theorem sampleAndShift_lenR (s : State) : (sampleAndShift s).lenR = s.lenR := rfl
@[simp] theorem sampleAndShift_nbytesR (s : State) : (sampleAndShift s).nbytesR = s.nbytesR := rfl
@[simp] theorem sampleAndShift_echoR (s : State) : (sampleAndShift s).echoR = s.echoR := rfl
@[simp] theorem sampleAndShift_outcomeR (s : State) : (sampleAndShift s).outcomeR = s.outcomeR := rfl
@[simp] theorem sampleAndShift_causeR (s : State) : (sampleAndShift s).causeR = s.causeR := rfl
@[simp] theorem sampleAndShift_delayR (s : State) : (sampleAndShift s).delayR = s.delayR := rfl
@[simp] theorem sampleAndShift_est (s : State) : (sampleAndShift s).est = s.est := rfl
@[simp] theorem sampleAndShift_tmsW (s : State) : (sampleAndShift s).tmsW = s.tmsW >>> 1 := rfl
@[simp] theorem sampleAndShift_tdiW (s : State) : (sampleAndShift s).tdiW = s.tdiW >>> 1 := rfl
@[simp] theorem sampleAndShift_tdoW (s : State) : (sampleAndShift s).tdoW = setBit s.tdoW s.stepR.toNat (s.drawValue 0) := rfl
@[simp] theorem sampleAndShift_stepR (s : State) : (sampleAndShift s).stepR = s.stepR + 1 := rfl
@[simp] theorem sampleAndShift_nstepR (s : State) : (sampleAndShift s).nstepR = s.nstepR := rfl
@[simp] theorem sampleAndShift_offR (s : State) : (sampleAndShift s).offR = s.offR := rfl
@[simp] theorem sampleAndShift_bleftR (s : State) : (sampleAndShift s).bleftR = s.bleftR := rfl
@[simp] theorem sampleAndShift_dlyCnt (s : State) : (sampleAndShift s).dlyCnt = if s.dlyCnt = 0 then 0 else s.dlyCnt - 1 := rfl
@[simp] theorem sampleAndShift_tckQ (s : State) : (sampleAndShift s).tckQ = s.tckQ := rfl
@[simp] theorem sampleAndShift_tmsQ (s : State) : (sampleAndShift s).tmsQ = s.tmsQ := rfl
@[simp] theorem sampleAndShift_tdiQ (s : State) : (sampleAndShift s).tdiQ = s.tdiQ := rfl
@[simp] theorem sampleAndShift_scratch (s : State) : (sampleAndShift s).scratch = s.scratch := rfl
@[simp] theorem sampleAndShift_result (s : State) : (sampleAndShift s).result = s.result := rfl
@[simp] theorem sampleAndShift_params (s : State) : (sampleAndShift s).params = s.params := rfl
@[simp] theorem sampleAndShift_levels (s : State) : (sampleAndShift s).levels = s.levels := rfl
@[simp] theorem sampleAndShift_stream (s : State) : (sampleAndShift s).stream = s.stream := rfl
@[simp] theorem sampleAndShift_script (s : State) : (sampleAndShift s).script = s.script := rfl
@[simp] theorem sampleAndShift_tdoDraws (s : State) : (sampleAndShift s).tdoDraws = s.tdoDraws.tail := rfl
@[simp] theorem sampleAndShift_draws (s : State) : (sampleAndShift s).draws = s.draws + 1 := rfl
@[simp] theorem sampleAndShift_trace (s : State) : (sampleAndShift s).trace = s.trace ++ [.sample (s.drawValue 0)] := rfl
@[simp] theorem sampleAndShift_nBytes (s : State) : (sampleAndShift s).nBytes = s.nBytes := rfl

/-! ### startEngine -/

@[simp] theorem startEngine_fst (s : State) : (startEngine s).fst = .shRun := rfl
@[simp] theorem startEngine_cntR (s : State) : (startEngine s).cntR = s.cntR := rfl
@[simp] theorem startEngine_tokR (s : State) : (startEngine s).tokR = s.tokR := rfl
@[simp] theorem startEngine_lenR (s : State) : (startEngine s).lenR = s.lenR := rfl
@[simp] theorem startEngine_nbytesR (s : State) : (startEngine s).nbytesR = s.nbytesR := rfl
@[simp] theorem startEngine_echoR (s : State) : (startEngine s).echoR = s.echoR := rfl
@[simp] theorem startEngine_outcomeR (s : State) : (startEngine s).outcomeR = s.outcomeR := rfl
@[simp] theorem startEngine_causeR (s : State) : (startEngine s).causeR = s.causeR := rfl
@[simp] theorem startEngine_delayR (s : State) : (startEngine s).delayR = s.delayR := rfl
@[simp] theorem startEngine_est (s : State) : (startEngine s).est = .eStart := rfl
@[simp] theorem startEngine_tmsW (s : State) : (startEngine s).tmsW = s.tmsW := rfl
@[simp] theorem startEngine_tdiW (s : State) : (startEngine s).tdiW = s.tdiW := rfl
@[simp] theorem startEngine_tdoW (s : State) : (startEngine s).tdoW = s.tdoW := rfl
@[simp] theorem startEngine_stepR (s : State) : (startEngine s).stepR = s.stepR := rfl
@[simp] theorem startEngine_nstepR (s : State) : (startEngine s).nstepR = s.nstepR := rfl
@[simp] theorem startEngine_offR (s : State) : (startEngine s).offR = s.offR := rfl
@[simp] theorem startEngine_bleftR (s : State) : (startEngine s).bleftR = s.bleftR := rfl
@[simp] theorem startEngine_dlyCnt (s : State) : (startEngine s).dlyCnt = s.dlyCnt := rfl
@[simp] theorem startEngine_tckQ (s : State) : (startEngine s).tckQ = s.tckQ := rfl
@[simp] theorem startEngine_tmsQ (s : State) : (startEngine s).tmsQ = s.tmsQ := rfl
@[simp] theorem startEngine_tdiQ (s : State) : (startEngine s).tdiQ = s.tdiQ := rfl
@[simp] theorem startEngine_scratch (s : State) : (startEngine s).scratch = s.scratch := rfl
@[simp] theorem startEngine_result (s : State) : (startEngine s).result = s.result := rfl
@[simp] theorem startEngine_params (s : State) : (startEngine s).params = s.params := rfl
@[simp] theorem startEngine_levels (s : State) : (startEngine s).levels = s.levels := rfl
@[simp] theorem startEngine_stream (s : State) : (startEngine s).stream = s.stream := rfl
@[simp] theorem startEngine_script (s : State) : (startEngine s).script = s.script := rfl
@[simp] theorem startEngine_tdoDraws (s : State) : (startEngine s).tdoDraws = s.tdoDraws := rfl
@[simp] theorem startEngine_draws (s : State) : (startEngine s).draws = s.draws := rfl
@[simp] theorem startEngine_trace (s : State) : (startEngine s).trace = s.trace := rfl
@[simp] theorem startEngine_nBytes (s : State) : (startEngine s).nBytes = s.nBytes := rfl

/-! ### engineDone -/

@[simp] theorem engineDone_fst (s : State) : (engineDone s).fst = .shReply := rfl
@[simp] theorem engineDone_cntR (s : State) : (engineDone s).cntR = 0 := rfl
@[simp] theorem engineDone_tokR (s : State) : (engineDone s).tokR = s.tokR := rfl
@[simp] theorem engineDone_lenR (s : State) : (engineDone s).lenR = s.lenR := rfl
@[simp] theorem engineDone_nbytesR (s : State) : (engineDone s).nbytesR = s.nbytesR := rfl
@[simp] theorem engineDone_echoR (s : State) : (engineDone s).echoR = s.echoR := rfl
@[simp] theorem engineDone_outcomeR (s : State) : (engineDone s).outcomeR = s.outcomeR := rfl
@[simp] theorem engineDone_causeR (s : State) : (engineDone s).causeR = s.causeR := rfl
@[simp] theorem engineDone_delayR (s : State) : (engineDone s).delayR = s.delayR := rfl
@[simp] theorem engineDone_est (s : State) : (engineDone s).est = .eIdle := rfl
@[simp] theorem engineDone_tmsW (s : State) : (engineDone s).tmsW = s.tmsW := rfl
@[simp] theorem engineDone_tdiW (s : State) : (engineDone s).tdiW = s.tdiW := rfl
@[simp] theorem engineDone_tdoW (s : State) : (engineDone s).tdoW = s.tdoW := rfl
@[simp] theorem engineDone_stepR (s : State) : (engineDone s).stepR = s.stepR := rfl
@[simp] theorem engineDone_nstepR (s : State) : (engineDone s).nstepR = s.nstepR := rfl
@[simp] theorem engineDone_offR (s : State) : (engineDone s).offR = s.offR := rfl
@[simp] theorem engineDone_bleftR (s : State) : (engineDone s).bleftR = s.bleftR := rfl
@[simp] theorem engineDone_dlyCnt (s : State) : (engineDone s).dlyCnt = s.dlyCnt := rfl
@[simp] theorem engineDone_tckQ (s : State) : (engineDone s).tckQ = s.tckQ := rfl
@[simp] theorem engineDone_tmsQ (s : State) : (engineDone s).tmsQ = s.tmsQ := rfl
@[simp] theorem engineDone_tdiQ (s : State) : (engineDone s).tdiQ = s.tdiQ := rfl
@[simp] theorem engineDone_scratch (s : State) : (engineDone s).scratch = s.scratch := rfl
@[simp] theorem engineDone_result (s : State) : (engineDone s).result = s.result := rfl
@[simp] theorem engineDone_params (s : State) : (engineDone s).params = s.params := rfl
@[simp] theorem engineDone_levels (s : State) : (engineDone s).levels = s.levels := rfl
@[simp] theorem engineDone_stream (s : State) : (engineDone s).stream = s.stream := rfl
@[simp] theorem engineDone_script (s : State) : (engineDone s).script = s.script := rfl
@[simp] theorem engineDone_tdoDraws (s : State) : (engineDone s).tdoDraws = s.tdoDraws := rfl
@[simp] theorem engineDone_draws (s : State) : (engineDone s).draws = s.draws := rfl
@[simp] theorem engineDone_trace (s : State) : (engineDone s).trace = s.trace := rfl
@[simp] theorem engineDone_nBytes (s : State) : (engineDone s).nBytes = s.nBytes := rfl

/-! ### takeTurn -/

@[simp] theorem takeTurn_fst (h : HostTurn) (rest : List HostTurn) (s : State) : (takeTurn h rest s).fst = s.fst := rfl
@[simp] theorem takeTurn_cntR (h : HostTurn) (rest : List HostTurn) (s : State) : (takeTurn h rest s).cntR = s.cntR := rfl
@[simp] theorem takeTurn_tokR (h : HostTurn) (rest : List HostTurn) (s : State) : (takeTurn h rest s).tokR = s.tokR := rfl
@[simp] theorem takeTurn_lenR (h : HostTurn) (rest : List HostTurn) (s : State) : (takeTurn h rest s).lenR = s.lenR := rfl
@[simp] theorem takeTurn_nbytesR (h : HostTurn) (rest : List HostTurn) (s : State) : (takeTurn h rest s).nbytesR = s.nbytesR := rfl
@[simp] theorem takeTurn_echoR (h : HostTurn) (rest : List HostTurn) (s : State) : (takeTurn h rest s).echoR = s.echoR := rfl
@[simp] theorem takeTurn_outcomeR (h : HostTurn) (rest : List HostTurn) (s : State) : (takeTurn h rest s).outcomeR = s.outcomeR := rfl
@[simp] theorem takeTurn_causeR (h : HostTurn) (rest : List HostTurn) (s : State) : (takeTurn h rest s).causeR = s.causeR := rfl
@[simp] theorem takeTurn_delayR (h : HostTurn) (rest : List HostTurn) (s : State) : (takeTurn h rest s).delayR = s.delayR := rfl
@[simp] theorem takeTurn_est (h : HostTurn) (rest : List HostTurn) (s : State) : (takeTurn h rest s).est = s.est := rfl
@[simp] theorem takeTurn_tmsW (h : HostTurn) (rest : List HostTurn) (s : State) : (takeTurn h rest s).tmsW = s.tmsW := rfl
@[simp] theorem takeTurn_tdiW (h : HostTurn) (rest : List HostTurn) (s : State) : (takeTurn h rest s).tdiW = s.tdiW := rfl
@[simp] theorem takeTurn_tdoW (h : HostTurn) (rest : List HostTurn) (s : State) : (takeTurn h rest s).tdoW = s.tdoW := rfl
@[simp] theorem takeTurn_stepR (h : HostTurn) (rest : List HostTurn) (s : State) : (takeTurn h rest s).stepR = s.stepR := rfl
@[simp] theorem takeTurn_nstepR (h : HostTurn) (rest : List HostTurn) (s : State) : (takeTurn h rest s).nstepR = s.nstepR := rfl
@[simp] theorem takeTurn_offR (h : HostTurn) (rest : List HostTurn) (s : State) : (takeTurn h rest s).offR = s.offR := rfl
@[simp] theorem takeTurn_bleftR (h : HostTurn) (rest : List HostTurn) (s : State) : (takeTurn h rest s).bleftR = s.bleftR := rfl
@[simp] theorem takeTurn_dlyCnt (h : HostTurn) (rest : List HostTurn) (s : State) : (takeTurn h rest s).dlyCnt = s.dlyCnt := rfl
@[simp] theorem takeTurn_tckQ (h : HostTurn) (rest : List HostTurn) (s : State) : (takeTurn h rest s).tckQ = s.tckQ := rfl
@[simp] theorem takeTurn_tmsQ (h : HostTurn) (rest : List HostTurn) (s : State) : (takeTurn h rest s).tmsQ = s.tmsQ := rfl
@[simp] theorem takeTurn_tdiQ (h : HostTurn) (rest : List HostTurn) (s : State) : (takeTurn h rest s).tdiQ = s.tdiQ := rfl
@[simp] theorem takeTurn_scratch (h : HostTurn) (rest : List HostTurn) (s : State) : (takeTurn h rest s).scratch = s.scratch := rfl
@[simp] theorem takeTurn_result (h : HostTurn) (rest : List HostTurn) (s : State) : (takeTurn h rest s).result = s.result := rfl
@[simp] theorem takeTurn_params (h : HostTurn) (rest : List HostTurn) (s : State) : (takeTurn h rest s).params = s.params := rfl
@[simp] theorem takeTurn_levels (h : HostTurn) (rest : List HostTurn) (s : State) : (takeTurn h rest s).levels = h.levels := rfl
@[simp] theorem takeTurn_stream (h : HostTurn) (rest : List HostTurn) (s : State) : (takeTurn h rest s).stream = h.attach.getD s.stream := rfl
@[simp] theorem takeTurn_script (h : HostTurn) (rest : List HostTurn) (s : State) : (takeTurn h rest s).script = rest := rfl
@[simp] theorem takeTurn_tdoDraws (h : HostTurn) (rest : List HostTurn) (s : State) : (takeTurn h rest s).tdoDraws = s.tdoDraws := rfl
@[simp] theorem takeTurn_draws (h : HostTurn) (rest : List HostTurn) (s : State) : (takeTurn h rest s).draws = s.draws := rfl
@[simp] theorem takeTurn_trace (h : HostTurn) (rest : List HostTurn) (s : State) : (takeTurn h rest s).trace = s.trace := rfl
@[simp] theorem takeTurn_nBytes (h : HostTurn) (rest : List HostTurn) (s : State) : (takeTurn h rest s).nBytes = s.nBytes := rfl

/-! ### offerCommand -/

@[simp] theorem offerCommand_fst (i : Instr) (s : State) : (offerCommand i s).fst = s.fst := rfl
@[simp] theorem offerCommand_cntR (i : Instr) (s : State) : (offerCommand i s).cntR = s.cntR := rfl
@[simp] theorem offerCommand_tokR (i : Instr) (s : State) : (offerCommand i s).tokR = s.tokR := rfl
@[simp] theorem offerCommand_lenR (i : Instr) (s : State) : (offerCommand i s).lenR = s.lenR := rfl
@[simp] theorem offerCommand_nbytesR (i : Instr) (s : State) : (offerCommand i s).nbytesR = s.nbytesR := rfl
@[simp] theorem offerCommand_echoR (i : Instr) (s : State) : (offerCommand i s).echoR = s.echoR := rfl
@[simp] theorem offerCommand_outcomeR (i : Instr) (s : State) : (offerCommand i s).outcomeR = s.outcomeR := rfl
@[simp] theorem offerCommand_causeR (i : Instr) (s : State) : (offerCommand i s).causeR = s.causeR := rfl
@[simp] theorem offerCommand_delayR (i : Instr) (s : State) : (offerCommand i s).delayR = s.delayR := rfl
@[simp] theorem offerCommand_est (i : Instr) (s : State) : (offerCommand i s).est = s.est := rfl
@[simp] theorem offerCommand_tmsW (i : Instr) (s : State) : (offerCommand i s).tmsW = s.tmsW := rfl
@[simp] theorem offerCommand_tdiW (i : Instr) (s : State) : (offerCommand i s).tdiW = s.tdiW := rfl
@[simp] theorem offerCommand_tdoW (i : Instr) (s : State) : (offerCommand i s).tdoW = s.tdoW := rfl
@[simp] theorem offerCommand_stepR (i : Instr) (s : State) : (offerCommand i s).stepR = s.stepR := rfl
@[simp] theorem offerCommand_nstepR (i : Instr) (s : State) : (offerCommand i s).nstepR = s.nstepR := rfl
@[simp] theorem offerCommand_offR (i : Instr) (s : State) : (offerCommand i s).offR = s.offR := rfl
@[simp] theorem offerCommand_bleftR (i : Instr) (s : State) : (offerCommand i s).bleftR = s.bleftR := rfl
@[simp] theorem offerCommand_dlyCnt (i : Instr) (s : State) : (offerCommand i s).dlyCnt = s.dlyCnt := rfl
@[simp] theorem offerCommand_tckQ (i : Instr) (s : State) : (offerCommand i s).tckQ = s.tckQ := rfl
@[simp] theorem offerCommand_tmsQ (i : Instr) (s : State) : (offerCommand i s).tmsQ = s.tmsQ := rfl
@[simp] theorem offerCommand_tdiQ (i : Instr) (s : State) : (offerCommand i s).tdiQ = s.tdiQ := rfl
@[simp] theorem offerCommand_scratch (i : Instr) (s : State) : (offerCommand i s).scratch = s.scratch := rfl
@[simp] theorem offerCommand_result (i : Instr) (s : State) : (offerCommand i s).result = s.result := rfl
@[simp] theorem offerCommand_params (i : Instr) (s : State) : (offerCommand i s).params = s.params := rfl
@[simp] theorem offerCommand_levels (i : Instr) (s : State) : (offerCommand i s).levels = s.levels := rfl
@[simp] theorem offerCommand_stream (i : Instr) (s : State) : (offerCommand i s).stream = encode i ++ s.stream := rfl
@[simp] theorem offerCommand_script (i : Instr) (s : State) : (offerCommand i s).script = s.script := rfl
@[simp] theorem offerCommand_tdoDraws (i : Instr) (s : State) : (offerCommand i s).tdoDraws = s.tdoDraws := rfl
@[simp] theorem offerCommand_draws (i : Instr) (s : State) : (offerCommand i s).draws = s.draws := rfl
@[simp] theorem offerCommand_trace (i : Instr) (s : State) : (offerCommand i s).trace = s.trace := rfl
@[simp] theorem offerCommand_nBytes (i : Instr) (s : State) : (offerCommand i s).nBytes = s.nBytes := rfl

end Sys2Proof.Machine
end

