-- ==== Sys2Proof/Laws/Buffers.lean ====
section
/-! SUPPORT. The laws of the buffers: what a read after a write gives, that a write keeps the canonical form and the size
(spec 20_memory.md R62), and what MemRead and MemWrite of several bytes do. -/

namespace Sys2Proof.Machine

@[simp] theorem Memory.read_nil (x : Nat) : Memory.read [] x = none := rfl

/-- A read after a write: the byte written at its address, every other address as before. -/
theorem Memory.read_write (m : Memory) (a : Nat) (b : Byte) (x : Nat) :
    (m.write a b).read x = if x = a then some b else m.read x := by
  induction m with
  | nil => simp only [Memory.write, Memory.read, eq_comm (a := a)]
  | cons c m ih =>
    obtain ⟨k, c⟩ := c
    simp only [Memory.write]
    split
    · simp only [Memory.read, eq_comm (a := a)]
    · split
      · subst_vars; simp only [Memory.read, eq_comm (a := x)]; split <;> rfl
      · simp only [Memory.read, ih]
        by_cases h : k = x
        · subst h; simp_all [Ne.symm]
        · simp [h]

theorem Memory.read_write_same (m : Memory) (a : Nat) (b : Byte) : (m.write a b).read a = some b := by
  simp [Memory.read_write]

theorem Memory.read_write_other (m : Memory) {a x : Nat} (b : Byte) (h : x ≠ a) : (m.write a b).read x = m.read x := by
  simp [Memory.read_write, h]

/-- The canonical form of a list with a head: every later address is above it. -/
theorem Memory.wf_cons {k : Nat} {b : Byte} {m : Memory} :
    Memory.wf ((k, b) :: m) = true ↔ (∀ c ∈ m, k < c.1) ∧ Memory.wf m = true := by
  induction m generalizing k b with
  | nil => simp [Memory.wf]
  | cons c m ih =>
    obtain ⟨k', b'⟩ := c
    simp only [Memory.wf, Bool.and_eq_true, decide_eq_true_eq, List.mem_cons, forall_eq_or_imp]
    constructor
    · rintro ⟨h, hw⟩
      exact ⟨⟨h, fun c hc => h.trans ((ih.1 hw).1 c hc)⟩, hw⟩
    · rintro ⟨⟨h, -⟩, hw⟩
      exact ⟨h, hw⟩

/-- Every address listed after a write is one listed before or the one written. -/
theorem Memory.mem_write {m : Memory} {a : Nat} {b : Byte} {c : Host.Cell} (h : c ∈ m.write a b) : c = (a, b) ∨ c ∈ m := by
  induction m with
  | nil => simpa [Memory.write] using h
  | cons d m ih =>
    obtain ⟨k, d⟩ := d
    simp only [Memory.write] at h
    split at h
    · simpa using h
    · split at h
      · rcases List.mem_cons.1 h with h | h
        · exact .inl h
        · exact .inr (List.mem_cons_of_mem _ h)
      · rcases List.mem_cons.1 h with h | h
        · exact .inr (h ▸ List.mem_cons_self)
        · exact (ih h).imp_right (List.mem_cons_of_mem _)

/-- A write keeps the canonical form. -/
theorem Memory.wf_write {m : Memory} (a : Nat) (b : Byte) (h : m.wf = true) : (m.write a b).wf = true := by
  induction m with
  | nil => rfl
  | cons c m ih =>
    obtain ⟨k, c⟩ := c
    obtain ⟨hk, hm⟩ := Memory.wf_cons.1 h
    simp only [Memory.write]
    split
    · rename_i hak
      refine Memory.wf_cons.2 ⟨fun d hd => ?_, h⟩
      rcases List.mem_cons.1 hd with rfl | hd
      · exact hak
      · exact hak.trans (hk d hd)
    · split
      · subst_vars; exact Memory.wf_cons.2 ⟨hk, hm⟩
      · refine Memory.wf_cons.2 ⟨fun d hd => ?_, ih hm⟩
        rcases Memory.mem_write hd with rfl | hd
        · show k < a; omega
        · exact hk d hd

/-- A write below the size keeps every listed address below the size. -/
theorem Memory.below_write {m : Memory} {a size : Nat} (b : Byte) (ha : a < size) (h : m.below size = true) :
    (m.write a b).below size = true := by
  simp only [Memory.below, List.all_eq_true, decide_eq_true_eq] at h ⊢
  intro c hc
  rcases Memory.mem_write hc with rfl | hc
  · exact ha
  · exact h c hc

/-- A write fills its address and keeps every filled one. -/
theorem Memory.filled_write {m : Memory} {n : Nat} (a : Nat) (b : Byte) (h : ∀ j < n, j ≠ a → (m.read j).isSome = true) :
    (m.write a b).filled n := by
  intro j hj
  by_cases hja : j = a
  · subst hja; rw [Memory.read_write_same]; rfl
  · rw [Memory.read_write_other _ _ hja]; exact h j hj hja

/-! ### One byte of a buffer -/

/-- A read inside the buffer of a byte that has been written. -/
theorem readByte_ok {buf : Buf} {a : Nat} {s : State} {b : Byte} (ha : a < s.bufSize buf)
    (hb : (s.buf buf).read a = some b) : readByte buf a s = .ok b := by
  simp [readByte, ha, hb]

/-- A filled buffer is read without a fault. -/
theorem readByte_filled {buf : Buf} {a n : Nat} {s : State} (ha : a < n) (hn : n ≤ s.bufSize buf)
    (hf : (s.buf buf).filled n) : ∃ b, (s.buf buf).read a = some b ∧ readByte buf a s = .ok b := by
  obtain ⟨b, hb⟩ := Option.isSome_iff_exists.1 (hf a ha)
  exact ⟨b, hb, readByte_ok (by omega) hb⟩

theorem writeByte_scratch {a : Nat} {b : Byte} {s : State} (ha : a < s.params.capacity) :
    writeByte .scratch a b s = .ok (setScratch (s.scratch.write a b) s) := by
  simp [writeByte, State.bufSize, ha]

theorem writeByte_result {a : Nat} {b : Byte} {s : State} (ha : a < s.params.maxNbytes) :
    writeByte .result a b s = .ok (setResult (s.result.write a b) s) := by
  simp [writeByte, State.bufSize, ha]

/-- Whatever `writeByte` answers, it has changed its own buffer only. -/
theorem writeByte_cases {buf : Buf} {a : Nat} {b : Byte} {s t : State} (h : writeByte buf a b s = .ok t) :
    a < s.bufSize buf ∧ ((buf = .scratch ∧ t = setScratch (s.scratch.write a b) s) ∨
      (buf = .result ∧ t = setResult (s.result.write a b) s)) := by
  unfold writeByte at h
  split at h
  · rename_i ha
    cases buf <;> simp_all [eq_comm]
  · simp at h

/-- The buffers of the machine right after reset are in canonical form (R50). -/
theorem State.reset_buf_wf (buf : Buf) : (State.reset.buf buf).wf = true := by cases buf <;> rfl

/-- A byte written leaves both buffers in canonical form. -/
theorem writeByte_keeps_wf {buf b' : Buf} {a : Nat} {b : Byte} {s t : State} (h : writeByte buf a b s = .ok t)
    (hs : (s.buf b').wf = true) : (t.buf b').wf = true := by
  obtain ⟨-, ⟨rfl, rfl⟩ | ⟨rfl, rfl⟩⟩ := writeByte_cases h <;> cases b' <;>
    first
    | exact hs
    | exact Memory.wf_write _ _ hs

/-! ### Several bytes -/

/-- `MemWrite` leaves both buffers in canonical form. -/
theorem memWrite_keeps_wf {buf b' : Buf} {k a : Nat} {v : Word} {s t : State} (h : memWrite buf a k v s = .ok t)
    (hs : (s.buf b').wf = true) : (t.buf b').wf = true := by
  induction k generalizing a v s with
  | zero => simp only [memWrite, Except.ok.injEq] at h; exact h ▸ hs
  | succ k ih =>
    simp only [memWrite] at h
    split at h
    · rename_i s1 h1; exact ih h (writeByte_keeps_wf h1 hs)
    · simp at h

/-- `MemRead` where every byte can be read (R62): bit `i` of the word is bit `i mod 8` of byte `i / 8`, and 0 past the bytes. -/
theorem memRead_ok {buf : Buf} {s : State} {k a : Nat} {f : Nat → Byte}
    (h : ∀ j < k, readByte buf (a + j) s = .ok (f j)) :
    ∃ w, memRead buf a k s = .ok w ∧
      ∀ i < 32, w.getLsbD i = (decide (i < 8 * k) && (f (i / 8)).getLsbD (i % 8)) := by
  induction k generalizing a f with
  | zero => exact ⟨0, rfl, by simp⟩
  | succ k ih =>
    obtain ⟨w, hw, hbits⟩ := ih (a := a + 1) (f := fun j => f (j + 1)) fun j hj => by
      have := h (j + 1) (by omega)
      rwa [show a + (j + 1) = a + 1 + j by omega] at this
    have h0 := h 0 (by omega)
    rw [Nat.add_zero] at h0
    refine ⟨w <<< 8 ||| (f 0).setWidth 32, by simp [memRead, h0, hw], fun i hi => ?_⟩
    by_cases h8 : i < 8
    · rw [show i / 8 = 0 by omega, show i % 8 = i by omega]
      simp [hi, h8, show i < 8 * (k + 1) by omega]
    · have hb := hbits (i - 8) (by omega)
      have e1 : (i - 8) / 8 + 1 = i / 8 := by omega
      have e2 : (i - 8) % 8 = i % 8 := by omega
      simp only [e1, e2] at hb
      have e3 : decide (i - 8 < 8 * k) = decide (i < 8 * (k + 1)) := by
        by_cases h9 : i - 8 < 8 * k <;> simp [h9] <;> omega
      rw [← e3, ← hb, BitVec.getLsbD_or, BitVec.getLsbD_shiftLeft, BitVec.getLsbD_setWidth,
        BitVec.getLsbD_of_ge (f 0) i (by omega)]
      simp only [hi, h8, decide_true, decide_false, Bool.not_false, Bool.and_false, Bool.or_false, Bool.true_and]

/-- `MemWrite` to RESULT inside the buffer (R62): the `k` bytes at `a` are the low bytes of the word, every other byte is as
before, and the buffer keeps its form. -/
theorem memWrite_result {s : State} {k a : Nat} {v : Word} (h : a + k ≤ s.params.maxNbytes) :
    ∃ m, memWrite .result a k v s = .ok (setResult m s) ∧
      (∀ x, m.read x = if a ≤ x ∧ x < a + k then some (byteOf v (x - a)) else s.result.read x) ∧
      (s.result.wf = true → m.wf = true) ∧
      (s.result.below s.params.maxNbytes = true → m.below s.params.maxNbytes = true) := by
  induction k generalizing a v s with
  | zero => exact ⟨s.result, rfl, fun x => by rw [if_neg (by omega)], id, id⟩
  | succ k ih =>
    have hw := writeByte_result (a := a) (b := byteOf v 0) (s := s) (by omega)
    obtain ⟨m, hm, hr, hwf, hbelow⟩ := ih (a := a + 1) (v := v >>> 8)
      (s := setResult (s.result.write a (byteOf v 0)) s) (by show a + 1 + k ≤ s.params.maxNbytes; omega)
    refine ⟨m, by simp only [memWrite, hw, hm]; rfl, fun x => ?_, fun h1 => hwf (Memory.wf_write _ _ h1),
      fun h1 => hbelow (Memory.below_write _ (show a < s.params.maxNbytes by omega) h1)⟩
    rw [hr x]
    by_cases hx : a + 1 ≤ x ∧ x < a + 1 + k
    · rw [if_pos hx, if_pos (by omega)]
      congr 1
      apply BitVec.eq_of_getLsbD_eq
      intro i hi
      simp only [byteOf, BitVec.getLsbD_extractLsb', BitVec.getLsbD_ushiftRight]
      congr 2
      omega
    · rw [if_neg hx]
      rw [setResult_result, Memory.read_write]
      by_cases hxa : x = a
      · subst hxa; rw [if_pos rfl, if_pos (by omega), Nat.sub_self]
      · rw [if_neg hxa, if_neg (by omega)]

end Sys2Proof.Machine
end

