-- ==== Sys2Proof/Laws/Stream.lean ====
section
/-! SUPPORT. What one attempt at RxByte and TxByte can do (spec 40_framer.md R100, R101), said once. -/

namespace Sys2Proof.Machine

/-- A byte transfers exactly when neither `shutdown` nor `rx_err` is up and a byte is offered (R100). -/
theorem rxByte_byte_iff {s t : State} {b : Byte} :
    rxByte s = .byte b t ↔ s.levels.shutdown = false ∧ s.levels.rxErr = false ∧ s.levels.rxOffer = true ∧
      ∃ rest, s.stream = b :: rest ∧ t = consumeByte b rest s := by
  unfold rxByte
  cases hsd : s.levels.shutdown <;> cases he : s.levels.rxErr <;> simp
  split
  · rename_i b' rest ho hs
    simp only [hs, ho, RxResult.byte.injEq, List.cons.injEq, true_and]
    constructor
    · rintro ⟨rfl, rfl⟩; exact ⟨rest, ⟨rfl, rfl⟩, rfl⟩
    · rintro ⟨r, ⟨rfl, rfl⟩, rfl⟩; exact ⟨rfl, rfl⟩
  · rename_i hno
    constructor
    · intro h; split at h
      · split at h <;> simp at h
      · simp at h
    · rintro ⟨ho, rest, hs, -⟩
      exact absurd hs (hno b rest ho)

/-- With the levels of a serving host, the next byte of the stream transfers. -/
theorem rxByte_serving {s : State} {b : Byte} {rest : List Byte} (hl : s.levels.serving = true) (hs : s.stream = b :: rest) :
    rxByte s = .byte b (consumeByte b rest s) := by
  simp only [Levels.serving, Bool.and_eq_true, Bool.not_eq_true'] at hl
  exact rxByte_byte_iff.2 ⟨hl.2, hl.1.1.2, hl.1.1.1.1.1, rest, hs, rfl⟩

/-- What an edge in a read state can do (R100): end the command by a condition, wait, or hand on the byte consumed. -/
theorem readEdge_cases {f : Byte → State → Except Fault State} {s t : State} (h : readEdge f s = .ok t) :
    (∃ x, rxByte s = .raise x ∧ t = raiseCond x s) ∨ (rxByte s = .wait ∧ t = s) ∨
      ∃ b rest, rxByte s = .byte b (consumeByte b rest s) ∧ s.stream = b :: rest ∧ f b (consumeByte b rest s) = .ok t := by
  unfold readEdge at h
  split at h
  · rename_i x hx
    exact .inl ⟨x, hx, (by simpa using h.symm)⟩
  · rename_i hx
    exact .inr (.inl ⟨hx, by simpa using h.symm⟩)
  · rename_i b s1 hx
    obtain ⟨-, -, -, rest, hs, rfl⟩ := rxByte_byte_iff.1 hx
    exact .inr (.inr ⟨b, rest, hx, hs, h⟩)

/-- The only faults of an edge in a read state are those of what the state does with the byte. -/
theorem readEdge_error {f : Byte → State → Except Fault State} {s : State} {e : Fault} (h : readEdge f s = .error e) :
    ∃ b rest, s.stream = b :: rest ∧ f b (consumeByte b rest s) = .error e := by
  unfold readEdge at h
  split at h
  · simp at h
  · simp at h
  · rename_i b s1 hx
    obtain ⟨-, -, -, rest, hs, rfl⟩ := rxByte_byte_iff.1 hx
    exact ⟨b, rest, hs, h⟩

/-- An edge in a read state with a serving host hands on the next byte of the stream. -/
theorem readEdge_serving {f : Byte → State → Except Fault State} {s : State} {b : Byte} {rest : List Byte}
    (hl : s.levels.serving = true) (hs : s.stream = b :: rest) : readEdge f s = f b (consumeByte b rest s) := by
  simp [readEdge, rxByte_serving hl hs]

/-- What an edge in a reply state can do (R101): finish, end by a write error, emit a byte, or wait. -/
theorem replyEdge_cases {total : Nat} {f : State → Except Fault Byte} {s t : State} (h : replyEdge total f s = .ok t) :
    (total ≤ s.cntR ∧ t = finish .cont .none s) ∨
      s.cntR < total ∧
        (t = raiseCond .writeError s ∨ t = s ∨
          ∃ b, f s = .ok b ∧
            (s.cntR + 1 = total ∧ t = finish .cont .none (emitByte b s) ∨ s.cntR + 1 < total ∧ t = emitByte b s)) := by
  unfold replyEdge at h
  split at h
  · rename_i hc
    exact .inl ⟨hc, by simpa using h.symm⟩
  · rename_i hc
    refine .inr ⟨by omega, ?_⟩
    split at h
    · exact .inl (by simpa using h.symm)
    · split at h
      · split at h
        · rename_i b hb
          split at h
          · rename_i hl
            exact .inr (.inr ⟨b, hb, .inl ⟨hl, by simpa using h.symm⟩⟩)
          · exact .inr (.inr ⟨b, hb, .inr ⟨by omega, by simpa using h.symm⟩⟩)
        · simp at h
      · exact .inr (.inl (by simpa using h.symm))

/-- The only faults of an edge in a reply state are those of the byte it would emit. -/
theorem replyEdge_error {total : Nat} {f : State → Except Fault Byte} {s : State} {e : Fault}
    (h : replyEdge total f s = .error e) : s.cntR < total ∧ f s = .error e := by
  unfold replyEdge at h
  split at h
  · simp at h
  · rename_i hc
    refine ⟨by omega, ?_⟩
    split at h
    · simp at h
    · split at h
      · split at h
        · split at h <;> simp at h
        · simp_all
      · simp at h

/-- An edge in a reply state with a serving host emits the next byte. -/
theorem replyEdge_serving {total : Nat} {f : State → Except Fault Byte} {s : State} {b : Byte}
    (hl : s.levels.serving = true) (hc : s.cntR < total) (hb : f s = .ok b) :
    replyEdge total f s =
      if s.cntR + 1 = total then .ok (finish .cont .none (emitByte b s)) else .ok (emitByte b s) := by
  simp only [Levels.serving, Bool.and_eq_true, Bool.not_eq_true'] at hl
  simp [replyEdge, hb, hl.1.1.1.1.2, hl.1.2, Nat.not_le.2 hc]

end Sys2Proof.Machine
end

