-- ==== Sys2Proof/Laws/Clock.lean ====
section
/-! SUPPORT. What a turn of the clock and a run of turns can do, said once: the cases of the host's turn, the edge of each framer
state, the induction over a command cycle, and the composition of runs. -/

namespace Sys2Proof.Machine

/-! ### Faults as results -/

@[simp] theorem Result.ofExcept_ok (s : State) : Result.ofExcept (.ok s) = .next s := rfl
@[simp] theorem Result.ofExcept_error (f : Fault) : Result.ofExcept (.error f) = .fault f := rfl

@[simp] theorem Result.ofExcept_eq_next {e : Except Fault State} {t : State} :
    Result.ofExcept e = .next t ↔ e = .ok t := by
  cases e <;> simp [Result.ofExcept]

@[simp] theorem Result.ofExcept_eq_fault {e : Except Fault State} {f : Fault} :
    Result.ofExcept e = .fault f ↔ e = .error f := by
  cases e <;> simp [Result.ofExcept]

@[simp] theorem Result.ofExcept_ne_refused {e : Except Fault State} {r : Refusal} :
    Result.ofExcept e ≠ .refused r := by
  cases e <;> simp [Result.ofExcept]

/-! ### The host's turn -/

/-- What the host's turn can do: nothing, or new levels and perhaps another stream. -/
theorem hostTurn_cases {s t : State} (h : hostTurn s = .next t) :
    (s.script = [] ∧ t = s) ∨
      ∃ turn rest, s.script = turn :: rest ∧
        t = takeTurn turn rest s ∧
        (turn.levels.rst = true ∨
          (s.levels.rst = false → s.levels.shutdown = true → turn.levels.shutdown = true) ∧
            (s.busy = true → turn.attach = none)) := by
  unfold hostTurn at h
  split at h
  · rename_i hs
    exact .inl ⟨hs, by simpa using h.symm⟩
  · rename_i turn rest hs
    refine .inr ⟨turn, rest, hs, ?_⟩
    split at h
    · simp at h
    · rename_i h1
      split at h
      · simp at h
      · rename_i h2
        refine ⟨by simpa using h.symm, ?_⟩
        by_cases hr : turn.levels.rst = true
        · exact .inl hr
        · refine .inr ⟨fun hl hsd => ?_, fun hb => ?_⟩
          · by_contra hc; simp_all [clearsShutdown]
          · by_contra hc
            cases ha : turn.attach <;> simp_all

/-- The host's turn never faults. -/
theorem hostTurn_ne_fault (s : State) (f : Fault) : hostTurn s ≠ .fault f := by
  unfold hostTurn
  split
  · simp
  · split
    · simp
    · split <;> simp

/-- With no turn left the levels hold. -/
theorem hostTurn_nil {s : State} (h : s.script = []) : hostTurn s = .next s := by simp [hostTurn, h]

/-- A smooth turn only changes the levels. -/
theorem hostTurn_smooth {s : State} {turn : HostTurn} {rest : List HostTurn} (hs : s.script = turn :: rest)
    (hsd : s.levels.shutdown = false) (h : turn.attach = none) :
    hostTurn s = .next { s with levels := turn.levels, script := rest } := by
  simp [hostTurn, clearsShutdown, takeTurn, hs, hsd, h]

/-- A turn of the clock is the host's turn and the edge after it. -/
theorem tick_cases {s t : State} (h : tick s = .next t) : ∃ s1, hostTurn s = .next s1 ∧ edge s1 = .next t := by
  unfold tick at h
  split at h
  · rename_i s1 h1; exact ⟨s1, h1, h⟩
  · simp at h
  · simp at h

theorem tick_nil {s : State} (h : s.script = []) : tick s = edge s := by simp [tick, hostTurn_nil h]

/-! ### Runs -/

/-- A property that every turn of the clock keeps holds after a run. -/
theorem runCommand_induction {P : State → Prop} (hk : ∀ s t, P s → tick s = .next t → P t) :
    ∀ n s t, P s → runCommand n s = .next t → P t := by
  intro n
  induction n with
  | zero => intro s t hs h; simp only [runCommand, Host.Outcome.next.injEq] at h; exact h ▸ hs
  | succ n ih =>
    intro s t hs h
    simp only [runCommand] at h
    split at h
    · split at h
      · rename_i s1 h1; exact ih s1 t (hk s s1 hs h1) h
      · simp at h
      · simp at h
    · simp only [Host.Outcome.next.injEq] at h; exact h ▸ hs

/-- A property that every turn of the clock keeps and that rules out a stop rules it out of a run. -/
theorem runCommand_ne_fault {P : State → Prop} (hk : ∀ s t, P s → tick s = .next t → P t)
    (hf : ∀ s f, P s → tick s ≠ .fault f) : ∀ n s f, P s → runCommand n s ≠ .fault f := by
  intro n
  induction n with
  | zero => intro s f _; simp [runCommand]
  | succ n ih =>
    intro s f hs
    simp only [runCommand]
    split
    · split
      · rename_i s1 h1; exact ih s1 f (hk s s1 hs h1)
      · rename_i f' h1; exact absurd h1 (hf s f' hs)
      · simp
    · simp

/-- Taking the next command moves past the bytes that the decoder reads, and changes nothing else. -/
theorem nextCommand_some {s s1 : State} {i : Instr} (h : nextCommand s = some (i, s1)) :
    ∃ rest, decode s.params.capacity s.stream = .ok (i, rest) ∧ s1 = setStream rest s := by
  unfold nextCommand at h
  split at h
  · rename_i j rest hd
    simp only [Option.some.injEq, Prod.mk.injEq] at h
    obtain ⟨rfl, rfl⟩ := h
    exact ⟨rest, hd, rfl⟩
  · simp at h

/-- A property that the host's turn and every edge keep, and that does not speak of the stream, is kept by a step. -/
theorem step_keeps {P : State → Prop} (hst : ∀ s q, P s → P (setStream q s))
    (ht : ∀ s t, P s → hostTurn s = .next t → P t) (he : ∀ s t, P s → edge s = .next t → P t) {s t : State} (hs : P s)
    (h : step s = .next t) : P t := by
  have htick : ∀ s t, P s → tick s = .next t → P t := fun s t hs h => by
    obtain ⟨s1, h1, h2⟩ := tick_cases h
    exact he s1 t (ht s s1 hs h1) h2
  have hcc : ∀ s t, P s → commandCycle s = .next t → P t := fun s t hs h => by
    unfold commandCycle at h
    split at h
    · rename_i s1 h1; exact runCommand_induction htick _ s1 t (he s s1 hs h1) h
    · simp at h
    · simp at h
  unfold step at h
  split at h
  · rename_i s1 h1
    have hs1 := ht s s1 hs h1
    unfold stepAfterTurn at h
    split at h
    · split at h
      · rename_i i s2 hd
        obtain ⟨rest, -, rfl⟩ := nextCommand_some hd
        cases i <;> exact hcc _ t (hst _ _ (hst _ _ hs1)) h
      · exact hcc s1 t hs1 h
    · exact he s1 t hs1 h
  · simp at h
  · simp at h

/-- `k` turns of the clock lead from `s` to `t`, with a command cycle in progress and no hang before each of them. -/
def Runs : Nat → State → State → Prop
  | 0, s, t => s = t
  | k + 1, s, t => s.busy = true ∧ s.hung = false ∧ ∃ u, tick s = .next u ∧ Runs k u t

theorem Runs.trans {j k : Nat} {s t u : State} (h1 : Runs j s t) (h2 : Runs k t u) : Runs (j + k) s u := by
  induction j generalizing s with
  | zero => cases h1; simpa using h2
  | succ j ih =>
    obtain ⟨hb, hh, v, hv, hr⟩ := h1
    rw [Nat.succ_add]
    exact ⟨hb, hh, v, hv, ih hr⟩

theorem Runs.one {s t : State} (hb : s.busy = true) (hh : s.hung = false) (ht : tick s = .next t) : Runs 1 s t :=
  ⟨hb, hh, t, ht, rfl⟩

/-- A run with fuel to spare goes on from where `Runs` has led. -/
theorem Runs.runCommand {k : Nat} {s t : State} (h : Runs k s t) (n : Nat) : runCommand (k + n) s = runCommand n t := by
  induction k generalizing s with
  | zero => cases h; simp
  | succ k ih =>
    obtain ⟨hb, hh, u, hu, hr⟩ := h
    rw [Nat.succ_add]
    simp only [Machine.runCommand, hb, hh, hu, Bool.not_false, Bool.and_self, if_true]
    exact ih hr

/-- A run ends where no command cycle is in progress. -/
theorem runCommand_idle {s : State} (h : s.busy = false) (n : Nat) : runCommand n s = .next s := by
  cases n <;> simp [runCommand, h]

/-- `Runs` is so many turns of the clock. -/
theorem Runs.ticks {k : Nat} {s t : State} (h : Runs k s t) : ticks k s = .next t := by
  induction k generalizing s with
  | zero => cases h; rfl
  | succ k ih =>
    obtain ⟨-, -, u, hu, hr⟩ := h
    simp [Machine.ticks, hu, ih hr]

end Sys2Proof.Machine
end

