-- ==== Sys2Proof/Laws/Codec.lean ====
section
/-! SUPPORT. The small laws of the byte helpers and of the field readers of the decoder (spec 20_memory.md R64, 30_encoding.md
R86). -/

namespace Sys2Proof

/-- The four bytes of a word put together again are the word. -/
@[simp] theorem le32_byteOf (w : Word) : le32 (byteOf w 0) (byteOf w 1) (byteOf w 2) (byteOf w 3) = w := by
  apply BitVec.eq_of_getLsbD_eq
  intro i hi
  simp only [le32, byteOf, BitVec.getLsbD_append, BitVec.getLsbD_extractLsb']
  by_cases h0 : i < 8
  · simp [h0]
  · by_cases h1 : i < 16
    · have e1 : i - 8 < 8 := by omega
      have e2 : 8 + (i - 8) = i := by omega
      simp [h0, e1, e2]
    · by_cases h2 : i < 24
      · have e1 : ¬ i - 8 < 8 := by omega
        have e2 : i - 8 - 8 < 8 := by omega
        have e3 : 16 + (i - 8 - 8) = i := by omega
        simp [h0, e1, e2, e3]
      · have e1 : ¬ i - 8 < 8 := by omega
        have e2 : ¬ i - 8 - 8 < 8 := by omega
        have e3 : i - 8 - 8 - 8 < 8 := by omega
        have e4 : 24 + (i - 8 - 8 - 8) = i := by omega
        simp [h0, e1, e2, e3, e4]

/-- The bytes of a little-endian word (R64). -/
theorem byteOf_le32 (b0 b1 b2 b3 : Byte) : wordBytes (le32 b0 b1 b2 b3) = [b0, b1, b2, b3] := by
  have key : ∀ j b, (∀ i < 8, (le32 b0 b1 b2 b3).getLsbD (8 * j + i) = b.getLsbD i) → byteOf (le32 b0 b1 b2 b3) j = b := by
    intro j b h
    apply BitVec.eq_of_getLsbD_eq
    intro i hi
    rw [byteOf, BitVec.getLsbD_extractLsb', h i hi]
    simp [hi]
  simp only [wordBytes, List.cons.injEq, and_true]
  refine ⟨key 0 b0 fun i hi => ?_, key 1 b1 fun i hi => ?_, key 2 b2 fun i hi => ?_, key 3 b3 fun i hi => ?_⟩ <;>
    simp only [le32, BitVec.getLsbD_append]
  · simp [hi]
  · have e1 : ¬ 8 * 1 + i < 8 := by omega
    have e2 : 8 * 1 + i - 8 = i := by omega
    simp [e1, e2, hi]
  · have e1 : ¬ 8 * 2 + i < 8 := by omega
    have e2 : ¬ 8 * 2 + i - 8 < 8 := by omega
    have e3 : 8 * 2 + i - 8 - 8 = i := by omega
    simp [e1, e2, e3, hi]
  · have e1 : ¬ 8 * 3 + i < 8 := by omega
    have e2 : ¬ 8 * 3 + i - 8 < 8 := by omega
    have e3 : ¬ 8 * 3 + i - 8 - 8 < 8 := by omega
    have e4 : 8 * 3 + i - 8 - 8 - 8 = i := by omega
    simp [e1, e2, e3, e4]

/-- A bit of a word with one byte set. -/
theorem getLsbD_setByte (w : Word) (j : Nat) (b : Byte) (i : Nat) (hi : i < 32) :
    (setByte w j b).getLsbD i = if 8 * j ≤ i ∧ i < 8 * j + 8 then b.getLsbD (i - 8 * j) else w.getLsbD i := by
  have hFF : ∀ k, (255#32).getLsbD k = decide (k < 8) := by
    intro k
    by_cases hk : k < 32
    · revert hk; revert k; decide
    · rw [BitVec.getLsbD_of_ge _ _ (by omega)]; simp; omega
  simp only [setByte, BitVec.getLsbD_or, BitVec.getLsbD_and, BitVec.getLsbD_not, BitVec.getLsbD_shiftLeft,
    BitVec.getLsbD_setWidth, hi, decide_true, Bool.true_and, show (0xFF : Word) = 255#32 from rfl, hFF]
  by_cases h1 : i < 8 * j
  · have h3 : ¬ (8 * j ≤ i ∧ i < 8 * j + 8) := by omega
    simp [h1, h3]
  · by_cases h2 : i - 8 * j < 8
    · have h3 : 8 * j ≤ i ∧ i < 8 * j + 8 := by omega
      have h4 : i - 8 * j < 32 := by omega
      simp [h1, h2, h3, h4]
    · have h3 : ¬ (8 * j ≤ i ∧ i < 8 * j + 8) := by omega
      simp [h1, h2, h3, BitVec.getLsbD_of_ge b (i - 8 * j) (by omega)]

/-- Four bytes set one after another, lowest first, are the little-endian word (R107, R111). -/
theorem setByte_le32 (w : Word) (b0 b1 b2 b3 : Byte) :
    setByte (setByte (setByte (setByte w 0 b0) 1 b1) 2 b2) 3 b3 = le32 b0 b1 b2 b3 := by
  apply BitVec.eq_of_getLsbD_eq
  intro i hi
  simp only [getLsbD_setByte _ _ _ i hi, le32, BitVec.getLsbD_append]
  by_cases h0 : i < 8
  · have e1 : ¬ 24 ≤ i := by omega
    have e2 : ¬ 16 ≤ i := by omega
    have e3 : ¬ 8 ≤ i := by omega
    simp [h0, e1, e2, e3]
  · by_cases h1 : i < 16
    · have e1 : ¬ 24 ≤ i := by omega
      have e2 : ¬ 16 ≤ i := by omega
      have e3 : 8 ≤ i := by omega
      have e4 : i - 8 < 8 := by omega
      simp [h0, h1, e1, e2, e3, e4]
    · by_cases h2 : i < 24
      · have e1 : ¬ 24 ≤ i := by omega
        have e2 : 16 ≤ i := by omega
        have e4 : ¬ i - 8 < 8 := by omega
        have e5 : i - 8 - 8 < 8 := by omega
        have e6 : i - 8 - 8 = i - 16 := by omega
        simp only [e1, e2, h0, h2, e4, e6, show i - 16 < 8 by omega, false_and, true_and, if_false, if_true]
      · have e1 : 24 ≤ i := by omega
        have e4 : ¬ i - 8 < 8 := by omega
        have e5 : ¬ i - 8 - 8 < 8 := by omega
        have e6 : i - 8 - 8 - 8 = i - 24 := by omega
        simp [h0, hi, e1, e4, e5, e6]

/-- The first bytes of a list that starts with them. -/
theorem takeBytes_append (l r : List Byte) : takeBytes l.length (l ++ r) = some (l, r) := by
  induction l with
  | nil => rfl
  | cons b l ih => simp [takeBytes, ih]

/-- What `takeBytes` takes, put back, is the list. -/
theorem takeBytes_some {n : Nat} {bs l r : List Byte} (h : takeBytes n bs = some (l, r)) : l.length = n ∧ l ++ r = bs := by
  induction n generalizing bs l r with
  | zero => simp only [takeBytes, Option.some.injEq, Prod.mk.injEq] at h; simp [← h.1, ← h.2]
  | succ n ih =>
    cases bs with
    | nil => simp [takeBytes] at h
    | cons b bs =>
      simp only [takeBytes] at h
      split at h
      · rename_i l' r' h'
        simp only [Option.some.injEq, Prod.mk.injEq] at h
        obtain ⟨hl, hr⟩ := ih h'
        simp [← h.1, ← h.2, hl, hr]
      · simp at h

/-- What `takeWord` takes, put back, is the list. -/
theorem takeWord_some {bs r : List Byte} {w : Word} (h : takeWord bs = some (w, r)) : wordBytes w ++ r = bs := by
  unfold takeWord at h
  split at h
  · simp only [Option.some.injEq, Prod.mk.injEq] at h
    rw [← h.1, ← h.2, byteOf_le32]; rfl
  · simp at h

theorem takeWord_append (w : Word) (r : List Byte) : takeWord (wordBytes w ++ r) = some (w, r) := by
  simp [wordBytes, takeWord]

end Sys2Proof
end

