-- ==== Sys2Proof/Laws/Engine.lean ====
section
/-! SUPPORT. What the engine's operations can do, said once: the sizes of chunks (spec 41_shift_engine.md R133), the pacing of
actions (R138), the cases of an edge in SH_RUN (R131), and that every command is a command cycle on its bytes. -/

namespace Sys2Proof.Machine

/-! ### Chunks -/

theorem chunkSteps_le_chunk (b : Nat) : chunkSteps b ≤ 32 := by unfold chunkSteps; split <;> omega

theorem chunkSteps_le_left (b : Nat) : chunkSteps b ≤ b := by unfold chunkSteps; split <;> omega

theorem chunkSteps_pos {b : Nat} (h : 0 < b) : 0 < chunkSteps b := by unfold chunkSteps; split <;> omega

theorem chunkBytes_le_four (b : Nat) : chunkBytes b ≤ 4 := by unfold chunkBytes; split <;> omega

theorem chunkBytes_pos {b : Nat} (h : 0 < b) : 0 < chunkBytes b := by unfold chunkBytes; split <;> omega

/-- `NSTEP_R` holds the steps of a chunk without loss. -/
theorem toNat_ofNat_chunkSteps (b : Nat) : (BitVec.ofNat 6 (chunkSteps b)).toNat = chunkSteps b := by
  have := chunkSteps_le_chunk b
  simp only [BitVec.toNat_ofNat]
  omega

/-- A chunk that starts after whole chunks ends within the vector (R133, R152). -/
theorem chunk_fits {len b off : Nat} (hle : b ≤ len) (hwhole : (len - b) % 32 = 0) (hoff : 8 * off = len - b) :
    off + chunkBytes b ≤ (len + 7) / 8 := by
  unfold chunkBytes; split <;> omega

/-- After a chunk that is not the last, the next one again starts after whole chunks. -/
theorem chunk_next {len b off : Nat} (hle : b ≤ len) (hwhole : (len - b) % 32 = 0) (hoff : 8 * off = len - b) (hmore : 32 < b) :
    (len - (b - chunkSteps b)) % 32 = 0 ∧ 8 * (off + chunkBytes b) = len - (b - chunkSteps b) := by
  unfold chunkSteps chunkBytes
  simp only [show 32 ≤ b by omega, if_true]
  omega

/-! ### Pacing -/

theorem afterDelay_zero {act : State → Except Fault State} {s : State} (h : s.dlyCnt = 0) : afterDelay act s = act s :=
  if_pos h

theorem afterDelay_pos {act : State → Except Fault State} {s : State} (h : s.dlyCnt ≠ 0) :
    afterDelay act s = .ok (tickDelay s) := if_neg h

/-- What a paced edge can do: act, or only count. -/
theorem afterDelay_cases {act : State → Except Fault State} {s t : State} (h : afterDelay act s = .ok t) :
    (s.dlyCnt = 0 ∧ act s = .ok t) ∨ (s.dlyCnt ≠ 0 ∧ t = tickDelay s) := by
  by_cases h0 : s.dlyCnt = 0
  · exact .inl ⟨h0, by rwa [afterDelay_zero h0] at h⟩
  · rw [afterDelay_pos h0] at h
    exact .inr ⟨h0, by simpa using h.symm⟩

/-! ### The engine's edges -/

/-- What the end of a chunk can do (R131): store, then load the next chunk or turn to REST. -/
theorem chunkEnd_cases {s t : State} (h : chunkEnd s = .ok t) :
    ∃ s1, chunkStore s = .ok s1 ∧
      ((0 < s1.bleftR ∧ ∃ s2, chunkLoad s1 = .ok s2 ∧ t = setEst .eLow s2) ∨ (s1.bleftR = 0 ∧ t = setEst .eRest s1)) := by
  unfold chunkEnd at h
  split at h
  · rename_i s1 h1
    refine ⟨s1, h1, ?_⟩
    split at h
    · rename_i hb
      split at h
      · rename_i s2 h2; exact .inl ⟨hb, s2, h2, by simpa using h.symm⟩
      · simp at h
    · rename_i hb
      exact .inr ⟨by omega, by simpa using h.symm⟩
  · simp at h

/-- What the sample edge can do (R137, R139): go on in the chunk, or end it. -/
theorem sampleEdge_cases {s t : State} (h : sampleEdge s = .ok t) :
    (s.nstepR ≤ s.stepR + 1 ∧ chunkEnd (sampleAndShift s) = .ok t) ∨
      (¬ s.nstepR ≤ s.stepR + 1 ∧ t = setEst .eLow (sampleAndShift s)) := by
  unfold sampleEdge at h
  split at h
  · rename_i hl; exact .inl ⟨hl, h⟩
  · rename_i hl; exact .inr ⟨hl, by simpa using h.symm⟩

/-- What an edge in SH_RUN can do (R131): start, make the one action that is due, sample, or count the delay. -/
theorem engineEdge_cases {s t : State} (h : engineEdge s = .ok t) :
    ((s.est = .eIdle ∨ s.est = .eStart) ∧ engineStart s = .ok t) ∨ (s.est = .eSample ∧ sampleEdge s = .ok t) ∨
      (s.dlyCnt = 0 ∧
        (s.est = .eLow ∧ t = lowWrite s ∨ s.est = .eHigh ∧ t = highWrite s ∨ s.est = .eRest ∧ t = restWrite s ∨
          s.est = .eFinish ∧ t = engineDone s)) ∨
      (s.dlyCnt ≠ 0 ∧ (s.est = .eLow ∨ s.est = .eHigh ∨ s.est = .eRest ∨ s.est = .eFinish) ∧ t = tickDelay s) := by
  unfold engineEdge at h
  cases he : s.est <;> simp only [he] at h
  · exact .inl ⟨.inl rfl, h⟩
  · exact .inl ⟨.inr rfl, h⟩
  case eSample => exact .inr (.inl ⟨rfl, h⟩)
  all_goals
    rcases afterDelay_cases h with ⟨h0, h⟩ | ⟨h0, rfl⟩
    · simp only [Except.ok.injEq] at h
      subst h
      exact .inr (.inr (.inl ⟨h0, by simp⟩))
    · exact .inr (.inr (.inr ⟨h0, by simp, rfl⟩))

/-! ### Commands -/

/-- Every command is a command cycle with its bytes next on the stream. -/
theorem exec_eq_commandCycle (i : Instr) (s : State) : exec i s = commandCycle (offerCommand i s) := by cases i <;> rfl

/-- A command cycle ends where a run of its edges leads, if that takes no more edges than the cycle has. -/
theorem commandCycle_of_runs {k : Nat} {s s1 t : State} (he : edge s = .next s1) (hr : Runs k s1 t) (ht : t.busy = false)
    (hk : k ≤ s.script.length + cycleEdges s) : commandCycle s = .next t := by
  obtain ⟨n, hn⟩ := Nat.exists_eq_add_of_le hk
  simp only [commandCycle, he, hn]
  rw [hr.runCommand n, runCommand_idle ht]

end Sys2Proof.Machine
end

