-- ==== Sys2Proof/Laws/PerInstr.lean ====
section
/-! SUPPORT. The statements made of every command, one lemma per constructor: family `TokenFirst`, that the bytes of a command
begin with its own token in stream order (spec 30_encoding.md R80, R81), which no other command has. -/

namespace Sys2Proof

/-- The token of a command (R81). -/
def Instr.token : Instr → BitVec 16
  | .getinfo _ => tokenGetinfo
  | .settck _ _ => tokenSettck
  | .shift _ _ _ _ => tokenShift

namespace Laws.TokenFirst

/-- The command's bytes are its token, first byte first, and then its fields. -/
def Statement (i : Instr) : Prop :=
  ∃ b0 b1 fields, encode i = b0 :: b1 :: fields ∧ tokenOf b0 b1 = i.token

theorem getinfo (rem6 : List Byte) : Statement (.getinfo rem6) := ⟨0x67, 0x65, rem6, rfl, rfl⟩

theorem settck (rem5 : List Byte) (period : Word) : Statement (.settck rem5 period) :=
  ⟨0x73, 0x65, rem5 ++ wordBytes period, rfl, rfl⟩

theorem shift (rem4 : List Byte) (len : Word) (tms tdi : List Byte) : Statement (.shift rem4 len tms tdi) :=
  ⟨0x73, 0x68, rem4 ++ wordBytes len ++ tms ++ tdi, rfl, rfl⟩

end Laws.TokenFirst

end Sys2Proof
end

