-- ==== Sys2Proof/Tests/Slice0.lean ====
section
/-! SUPPORT. Tests on small states: ill-formed commands refused, command words written out from spec 30_encoding.md, single
steps with results from 95_test_vectors.md, and for every statement with hypotheses states that meet them together. -/

namespace Sys2Proof.Machine

/-! ### Helpers -/

/-- The result is a next state with the property `p`. -/
def answers (r : Result) (p : State → Bool) : Bool :=
  match r with
  | .next t => p t
  | .fault _ | .refused _ => false

/-- The result is a refusal for the reason `x`. -/
def refuses (r : Result) (x : Refusal) : Bool :=
  match r with
  | .refused y => decide (y = x)
  | .next _ | .fault _ => false

theorem exists_next_of_answers {r : Result} {p : State → Bool} (h : answers r p = true) : ∃ t, r = .next t ∧ p t = true := by
  cases r with
  | next t => exact ⟨t, rfl, h⟩
  | fault f => cases h
  | refused x => cases h

/-- The levels of a serving host with `cmd_go` raised. -/
def goLevels : Levels := { Levels.atReset with cmdGo := true }

/-- A block in IDLE with 8 bytes of scratch, the shortest legal delay, and a serving host that raises `cmd_go`. -/
def small : State :=
  { State.reset with fst := .idle, delayR := 1, levels := goLevels, params := { capacity := 8, tdoFail := false } }

/-- `small` in the framer state `f` with `n` bytes of the field done. -/
def inState (f : Fst) (n : Nat) : State := { small with fst := f, cntR := n }

/-- `small` in SH_RUN before a shift of `len` bits, the body already in SCRATCH. -/
def beforeShift (len : Word) (body : Memory) : State :=
  { small with fst := .shRun, est := .eStart, lenR := len, nbytesR := nbytesOf len, scratch := body }

/-- `small` in SH_RUN in the middle of a chunk of `nstep` steps, `step` of them done. -/
def inChunk (e : Est) (step nstep : BitVec 6) : State :=
  { small with
    fst := .shRun, est := e, lenR := 16, nbytesR := 2, bleftR := 16, stepR := step, nstepR := nstep, tmsW := 1, tdiW := 2,
    scratch := [(0, 1), (1, 0), (2, 2), (3, 0)], tdoDraws := [{ level := true, fail := false }] }

/-- A block with 16 bytes of scratch at the last step of the first chunk of a shift of 33 bits. -/
def lastOfFullChunk : State :=
  { inChunk .eLow 31 32 with
    params := { capacity := 16, tdoFail := false }, lenR := 33, nbytesR := 5, bleftR := 33,
    scratch := [(0, 1), (1, 2), (2, 3), (3, 4), (4, 5), (5, 6), (6, 7), (7, 8), (8, 9), (9, 10)] }

/-- The draws of a target that never fails a read. -/
def drawn (vs : List Bool) : List TdoDraw := vs.map fun v => { level := v, fail := false }

/-- One turn of the host with these levels. -/
def turn (l : Levels) : HostTurn := { levels := l, attach := none }

def getinfoRem : List Byte := [0x74, 0x69, 0x6E, 0x66, 0x6F, 0x3A]
def settckRem : List Byte := [0x74, 0x74, 0x63, 0x6B, 0x3A]
def shiftRem : List Byte := [0x69, 0x66, 0x74, 0x3A]

/-! ### Well-formedness (R82, R84, R85): one ill-formed command for each check -/

theorem test_wf_getinfo : Instr.wellFormed 8 (.getinfo getinfoRem) = true := by decide
theorem test_wf_getinfo_short : Instr.wellFormed 8 (.getinfo [0x74, 0x69, 0x6E, 0x66, 0x6F]) = false := by decide
theorem test_wf_settck : Instr.wellFormed 8 (.settck settckRem 100) = true := by decide
theorem test_wf_settck_long : Instr.wellFormed 8 (.settck getinfoRem 100) = false := by decide
theorem test_wf_shift : Instr.wellFormed 8 (.shift shiftRem 9 [1, 2] [3, 4]) = true := by decide
theorem test_wf_shift_rem : Instr.wellFormed 8 (.shift settckRem 9 [1, 2] [3, 4]) = false := by decide
theorem test_wf_shift_tms : Instr.wellFormed 8 (.shift shiftRem 9 [1] [3, 4]) = false := by decide
theorem test_wf_shift_tdi : Instr.wellFormed 8 (.shift shiftRem 9 [1, 2] [3, 4, 5]) = false := by decide
theorem test_wf_oversize : Instr.wellFormed 2 (.shift shiftRem 9 [] []) = true := by decide
theorem test_wf_oversize_tms : Instr.wellFormed 2 (.shift shiftRem 9 [1] []) = false := by decide
theorem test_wf_oversize_tdi : Instr.wellFormed 2 (.shift shiftRem 9 [] [1]) = false := by decide

/-! ### Decoding: words written out bit by bit -/

/-- R82: `"getinfo:"`. -/
theorem test_decode_getinfo :
    decode 2048
        [0b01100111, 0b01100101, 0b01110100, 0b01101001, 0b01101110, 0b01100110, 0b01101111, 0b00111010] =
      .ok (.getinfo getinfoRem, []) := by decide

/-- R84, R86: `"settck:"` and the period 0x12345678, its lowest byte first. -/
theorem test_decode_settck :
    decode 2048
        [0b01110011, 0b01100101, 0b01110100, 0b01110100, 0b01100011, 0b01101011, 0b00111010, 0b01111000, 0b01010110,
          0b00110100, 0b00010010] =
      .ok (.settck settckRem 0x12345678, []) := by decide

/-- R85, R86: `"shift:"`, the bit count 9, two bytes of TMS, two of TDI, and the next command's first byte left (R80). -/
theorem test_decode_shift :
    decode 2048
        [0b01110011, 0b01101000, 0b01101001, 0b01100110, 0b01110100, 0b00111010, 0b00001001, 0b00000000, 0b00000000,
          0b00000000, 0b10000001, 0b00000001, 0b01010101, 0b00000000, 0b01100111] =
      .ok (.shift shiftRem 9 [0x81, 0x01] [0x55, 0x00], [0x67]) := by decide

/-- R85, R113: a bit count of 8193 leaves the vectors in the stream. -/
theorem test_decode_oversize :
    decode 2048 [0x73, 0x68, 0x69, 0x66, 0x74, 0x3A, 0x01, 0x20, 0x00, 0x00, 0xAA] =
      .ok (.shift shiftRem 8193 [] [], [0xAA]) := by decide

/-- R83: a sum `LEN + 7` in 32 bits would wrap and accept this shift. -/
theorem test_nbytes_no_wrap : (nbytesOf 0xFFFFFFF9).toNat = 2 ^ 29 ∧ (nbytesOf 0xFFFFFFF8).toNat = 2 ^ 29 - 1 := by decide

/-- R89: the token is case-sensitive. -/
theorem test_decode_case : decode 2048 [0x47, 0x45, 0x74] = .error (.illegalToken 0x4745) := by decide

/-- R87: the remainder is not compared with the literal. -/
theorem test_decode_unchecked :
    decode 2048 [0x67, 0x65, 0x78, 0x78, 0x78, 0x78, 0x78, 0x78] = .ok (.getinfo (List.replicate 6 0x78), []) := by decide

/-! ### Single steps -/

/-- W1, V-F1: the fixed reply, whatever the remainder. -/
theorem test_step_getinfo :
    answers (step { small with stream := [0x67, 0x65, 0x78, 0x78, 0x78, 0x78, 0x78, 0x78] }) (fun t =>
      decide (t.trace.drop 8 =
        [.emit 0x78, .emit 0x76, .emit 0x63, .emit 0x53, .emit 0x65, .emit 0x72, .emit 0x76, .emit 0x65, .emit 0x72,
          .emit 0x5F, .emit 0x76, .emit 0x31, .emit 0x2E, .emit 0x30, .emit 0x3A, .emit 0x32, .emit 0x30, .emit 0x34,
          .emit 0x38, .emit 0x0A, .done .cont .none])) = true := by decide

/-- W2: `settck 0x12345678` is echoed with its lowest byte first, and the delay is as it was. -/
theorem test_step_settck :
    answers (step { small with stream := encode (.settck settckRem 0x12345678) }) (fun t =>
      decide (t.trace.drop 11 = [.emit 0x78, .emit 0x56, .emit 0x34, .emit 0x12, .done .cont .none] ∧ t.delayR = 1)) =
      true := by decide

/-- R132 and V-E: `len = 3`, TMS 05, TDI 03, identity target; the setup write is `Write(0, 1, 1)`, the reply 03. -/
theorem test_step_shift :
    answers (step { small with
        stream := encode (.shift shiftRem 3 [0x05] [0x03]), tdoDraws := drawn [true, true, false] }) (fun t =>
      decide (t.trace.drop 12 =
        [.write false true true, .write false true true, .write true true true, .sample true, .write false false true,
          .write true false true, .sample true, .write false true false, .write true true false, .sample false,
          .write false true false, .emit 0x03, .done .cont .none])) = true := by decide

/-- R145: a failed read records `TDO_FAIL_VALUE` and the shift goes on. -/
theorem test_step_shift_failed_read :
    answers (step { small with
        stream := encode (.shift shiftRem 2 [0x00] [0x00]),
        tdoDraws := [{ level := true, fail := true }, { level := true, fail := false }] }) (fun t =>
      decide (t.trace.getLast? = some (.done .cont .none) ∧ t.result = [(0, 0x02)])) = true := by decide

/-! ### Witnesses: encoding -/

theorem witness_DecodeOfEncode :
    Instr.wellFormed 8 (.getinfo getinfoRem) = true ∧ Instr.wellFormed 8 (.settck settckRem 0xFFFFFFFF) = true ∧
      Instr.wellFormed 8 (.shift shiftRem 32 [1, 2, 3, 4] [5, 6, 7, 8]) = true ∧
      Instr.wellFormed 8 (.shift shiftRem 33 [] []) = true := by decide

theorem witness_EncodeOfDecode : decode 2 (encode (.shift shiftRem 8 [7] [9]) ++ [0x67]) = .ok (.shift shiftRem 8 [7] [9], [0x67]) :=
  by decide

theorem witness_CommandLengths :
    Instr.wellFormed 2 (.shift shiftRem 8 [7] [9]) = true ∧ (encode (.shift shiftRem 8 [7] [9])).length = 12 ∧
      Instr.wellFormed 2 (.shift shiftRem 9 [] []) = true ∧ (encode (.shift shiftRem 9 [] [])).length = 10 := by decide

/-! ### Witnesses: reset, setup, IDLE, the terminal states -/

theorem witness_ResetEdgeResetsEveryState :
    answers (edge { inChunk .eHigh 3 16 with levels := { goLevels with rst := true, cfgDelay := 7 }, tckQ := true }) (fun t =>
      decide (t.fst = .init ∧ t.delayR = 7 ∧ t.lines = (false, true, false) ∧ t.trace = [])) = true := by decide

theorem witness_SetupChecks :
    answers (edge { State.reset with levels := { goLevels with linkAcquired := false } }) (fun t =>
        decide (t.fst = .fatal ∧ t.trace = [.fatal .setupFail])) = true ∧
      answers (edge { State.reset with delayR := 0 }) (fun t => decide (t.fst = .fatal ∧ t.trace = [.fatal .badDelay])) =
        true ∧
      answers (edge { State.reset with delayR := 1 }) (fun t => decide (t.fst = .idle ∧ t.trace = [])) = true := by decide

theorem witness_IdleEdge :
    answers (edge { small with levels := { goLevels with shutdown := true } }) (fun t => decide (t.fst = .halt)) = true ∧
      answers (edge { small with cntR := 5 }) (fun t => decide (t.fst = .tok ∧ t.cntR = 0)) = true ∧
      answers (edge { small with levels := Levels.atReset }) (fun t => decide (t.fst = .idle)) = true := by decide

theorem witness_TerminalStatesStay :
    answers (tick { inState .halt 0 with stream := [0x67], script := [turn goLevels] }) (fun t =>
        decide (t.levels.rst = false ∧ t.fst = .halt)) = true ∧
      answers (tick { inState .fatal 0 with stream := [0x67] }) (fun t =>
        decide (t.levels.rst = false ∧ t.fst = .fatal)) = true := by decide

theorem witness_PhaseOrder :
    answers (edge { inState .halt 0 with levels := { goLevels with rst := true } }) (fun t => decide (t.fst = .init)) = true ∧
      answers (edge { inState .done 0 with outcomeR := 3, causeR := 7 }) (fun t => decide (t.fst = .halt)) = true ∧
      answers (edge { small with levels := { goLevels with shutdown := true } }) (fun t => decide (t.fst = .halt)) = true ∧
      answers (edge { inState .init 0 with delayR := 0 }) (fun t => decide (t.fst = .fatal)) = true := by decide

theorem witness_FramerStateOrder :
    answers (edge { inState .shLen 3 with stream := [0] }) (fun t => decide (t.fst = .shCheck)) = true ∧
      answers (edge (inState .shReply 0)) (fun t => decide (t.fst = .done)) = true := by decide

/-! ### Witnesses: the stream primitives and the conditions -/

theorem witness_ReadEdgeOrder :
    answers (edge { inState .tok 0 with stream := [0x67], levels := { goLevels with shutdown := true, rxErr := true } })
        (fun t => decide (t.causeR = 7 ∧ t.stream = [0x67])) = true ∧
      answers (edge { inState .tok 0 with stream := [0x67], levels := { goLevels with rxErr := true } })
        (fun t => decide (t.causeR = 3 ∧ t.stream = [0x67])) = true ∧
      answers (edge { inState .tok 0 with stream := [0x67], levels := { goLevels with rxEof := true } })
        (fun t => decide (t.trace = [.consume 0x67] ∧ t.stream = [])) = true ∧
      answers (edge { inState .tok 1 with tokR := 0x6700, stream := [0x78, 1] }) (fun t =>
        decide (t.trace = [.consume 0x78, .done .closeError .badToken] ∧ t.stream = [1])) = true ∧
      answers (edge { inState .tok 1 with tokR := 0x6700, stream := [0x65, 1] }) (fun t =>
        decide (t.fst = .giSkip ∧ t.cntR = 0 ∧ t.trace = [.consume 0x65])) = true ∧
      answers (edge { inState .shLen 2 with stream := [0] }) (fun t => decide (t.fst = .shLen ∧ t.cntR = 3)) = true ∧
      answers (edge { inState .tok 0 with levels := { goLevels with rxEof := true } }) (fun t => decide (t.causeR = 1)) = true ∧
      answers (edge { inState .tok 1 with levels := { goLevels with rxEof := true } }) (fun t => decide (t.causeR = 2)) = true ∧
      answers (edge (inState .tok 0)) (fun t => decide (t = inState .tok 0)) = true := by decide

/-- A GETINFO reply with its last byte to go: its premises, and the four cases of the edge. -/
theorem witness_ReplyEdgeOrder :
    (inState .giReply 19).txValid = true ∧ (inState .giReply 19).txData = some 0x0A ∧
      answers (edge { inState .giReply 19 with levels := { goLevels with txErr := true, shutdown := true } }) (fun t =>
        decide (t.causeR = 6 ∧ t.trace = [.done .closeError .writeError])) = true ∧
      answers (edge (inState .giReply 19)) (fun t => decide (t.trace = [.emit 0x0A, .done .cont .none])) = true ∧
      answers (edge (inState .giReply 18)) (fun t => decide (t.trace = [.emit 0x38] ∧ t.cntR = 19)) = true ∧
      answers (edge { inState .giReply 19 with levels := { goLevels with txReady := false } }) (fun t =>
        decide (t.fst = .giReply ∧ t.cntR = 19)) = true := by decide

theorem witness_TokenDispatch :
    (inState .tok 0).steady = true ∧
      answers (ticks 2 { inState .tok 0 with stream := [0x67, 0x65] }) (fun t => decide (t.fst = .giSkip)) = true ∧
      answers (ticks 2 { inState .tok 0 with stream := [0x73, 0x65] }) (fun t => decide (t.fst = .stRead)) = true ∧
      answers (ticks 2 { inState .tok 0 with stream := [0x73, 0x68] }) (fun t => decide (t.fst = .shSkip)) = true ∧
      answers (ticks 2 { inState .tok 0 with stream := [0x73, 0x74] }) (fun t =>
        decide (t.fst = .done ∧ t.causeR = 4)) = true := by decide

theorem witness_ReturnFromDone :
    answers (edge { inState .done 0 with outcomeR := 3, causeR := 9 }) (fun t => decide (t.fst = .halt)) = true ∧
      answers (edge { inState .done 0 with stream := [1] }) (fun t => decide (t.fst = .idle ∧ t.stream = [1])) = true ∧
      answers (edge { inState .done 0 with outcomeR := 2, causeR := 4, stream := [1] }) (fun t =>
        decide (t.fst = .idle ∧ t.stream = [])) = true := by decide

theorem witness_HangStays :
    (inState .shBody 0).hung = true ∧
      ({ inState .giReply 3 with levels := { goLevels with txReady := false } } : State).hung = true := by decide

theorem witness_HostDutyBreachRefused :
    refuses (step { small with levels := { goLevels with shutdown := true }, script := [turn goLevels] }) .shutdownCleared =
        true ∧
      refuses (step { inState .tok 1 with script := [{ levels := goLevels, attach := some [1] }] }) .streamChanged = true ∧
      answers (step { State.reset with
          levels := { goLevels with rst := true, shutdown := true }, script := [turn { goLevels with cmdGo := false }] })
        (fun t => decide (t.fst = .idle ∧ t.levels.shutdown = false)) = true := by decide

/-- R175, R192: `shutdown` held through a reset and cleared as `rst` is released; the setup checks run (R191). -/
theorem test_shutdown_cleared_after_reset :
    answers (ticks 2 { inState .halt 0 with
        levels := { goLevels with shutdown := true },
        script := [turn { goLevels with shutdown := true, rst := true }, turn { goLevels with linkAcquired := false }] })
      (fun t => decide (t.fst = .fatal ∧ t.trace = [.fatal .setupFail])) = true := by decide

/-- R22, R101: the last byte of each reply is offered, and none after it. -/
theorem witness_OutputPortLevels :
    (inState .giReply 19).outputs.txData = some 0x0A ∧ (inState .giReply 20).outputs.txValid = false ∧
      ({ inState .stReply 3 with echoR := 0x12345678 } : State).outputs.txData = some 0x12 ∧
      ({ inState .shReply 1 with nbytesR := 2, result := [(0, 3), (1, 4)] } : State).outputs.txData = some 4 ∧
      (inState .shReply 0).outputs.txValid = false := by decide

/-! ### Witnesses: the commands -/

/-- The premises of the statements about a command that a serving host gives. -/
theorem witness_serving : small.startsCommand = true ∧ small.steady = true ∧ small.noReset = true := by decide

theorem witness_StepRunsDecodedCommand :
    answers (hostTurn { small with stream := encode (.settck settckRem 1) ++ [0x67] }) (fun s1 =>
      s1.startsCommand && match decode s1.params.capacity s1.stream with
        | .ok (i, rest) => decide (i = .settck settckRem 1 ∧ rest = [0x67])
        | .error _ => false) = true := by decide

theorem witness_StepIsFramerRun :
    answers (hostTurn { small with levels := Levels.atReset, script := [turn goLevels], stream := [0x67] })
      State.startsCommand = true := by decide

theorem witness_GetinfoCompletes : small.startsCommand = true ∧ small.steady = true ∧ getinfoRem.length = 6 := by decide

theorem witness_SettckCompletes : small.startsCommand = true ∧ small.steady = true ∧ settckRem.length = 5 := by decide

/-- The largest shift that 8 bytes of scratch accept, the longest shift of four bytes, and the shortest shift. -/
theorem witness_ShiftCompletes :
    small.startsCommand = true ∧ small.steady = true ∧
      Instr.wellFormed small.params.capacity (.shift shiftRem 32 [1, 2, 3, 4] [5, 6, 7, 8]) = true ∧
      2 * ceilBytes 32 ≤ small.params.capacity ∧
      Instr.wellFormed small.params.capacity (.shift shiftRem 1 [1] [5]) = true ∧
      Instr.wellFormed small.params.capacity (.shift shiftRem 0 [] []) = true := by decide

theorem witness_OversizeShiftEndsCommand :
    small.startsCommand = true ∧ small.steady = true ∧ shiftRem.length = 4 ∧ small.params.capacity < 2 * ceilBytes 33 := by
  decide

theorem witness_ZeroLengthShiftCompletes : small.startsCommand = true ∧ small.steady = true ∧ shiftRem.length = 4 := by decide

theorem witness_IllegalTokenEndsCommand :
    ({ small with stream := [0x73, 0x74] } : State).startsCommand = true ∧
      ({ small with stream := [0x73, 0x74] } : State).steady = true ∧ ((0x73, 0x74) : Byte × Byte) ≠ (0x67, 0x65) ∧
      ((0x73, 0x74) : Byte × Byte) ≠ (0x73, 0x65) ∧ ((0x73, 0x74) : Byte × Byte) ≠ (0x73, 0x68) := by decide

theorem witness_GetinfoFrame :
    small.noReset = true ∧ ∃ t, exec (.getinfo getinfoRem) small = .next t ∧ decide (t.fst = .idle) = true :=
  ⟨by decide, exists_next_of_answers (by decide)⟩

theorem witness_SettckFrame :
    small.noReset = true ∧ ∃ t, exec (.settck settckRem 0) small = .next t ∧ decide (t.echoR = 0) = true :=
  ⟨by decide, exists_next_of_answers (by decide)⟩

/-- An accepted shift, and one that the capacity check ends. -/
theorem witness_ShiftFrame :
    (∃ t, exec (.shift shiftRem 1 [1] [0]) { small with tdoDraws := drawn [true] } = .next t ∧
        decide (t.result = [(0, 1)] ∧ t.scratch = [(0, 1), (1, 0)]) = true) ∧
      fitsCapacity small.params.capacity (nbytesOf 33) = false ∧
      ∃ t, exec (.shift shiftRem 33 [] []) small = .next t ∧ decide (t.causeR = 5) = true :=
  ⟨exists_next_of_answers (by decide), by decide, exists_next_of_answers (by decide)⟩

theorem witness_ShiftEventCount :
    Instr.wellFormed small.params.capacity (.shift shiftRem 0 [] []) = true ∧
      Instr.wellFormed small.params.capacity (.shift shiftRem 32 [1, 2, 3, 4] [5, 6, 7, 8]) = true := by decide

theorem witness_ReplyBitsAreSamples :
    Instr.wellFormed small.params.capacity (.shift shiftRem 31 [1, 2, 3, 4] [5, 6, 7, 8]) = true ∧
      2 * ceilBytes 31 ≤ small.params.capacity := by decide

theorem witness_IdentityTarget :
    ({ small with tdoDraws := drawn [true, false, true] } : State).steady = true ∧
      Instr.wellFormed small.params.capacity (.shift shiftRem 3 [0] [0x05]) = true ∧
      (∀ i < 3, ({ small with tdoDraws := drawn [true, false, true] } : State).drawValue i = vectorBit [0x05] i) ∧
      (∀ i < 8, 3 ≤ i → vectorBit [0x05] i = false) := by decide

/-- A whole GETINFO, one cut short by the end of the stream, one ended by a shutdown, and one that hangs. -/
theorem witness_EventOrderInACommand :
    answers (exec (.getinfo getinfoRem) small) (fun t => decide (t.trace.length = 29)) = true ∧
      answers (exec (.getinfo [0x74]) { small with levels := { goLevels with rxEof := true } }) (fun t =>
        decide (t.trace = [.consume 0x67, .consume 0x65, .consume 0x74, .done .closeError .shortRead])) = true ∧
      answers (exec (.getinfo getinfoRem) { small with script := [turn { goLevels with shutdown := true }] }) (fun t =>
        decide (t.trace = [.done .shutdown .shutdown, .halt])) = true ∧
      answers (exec (.getinfo []) small) (fun t => decide (t.trace = [.consume 0x67, .consume 0x65])) = true := by decide

/-! ### Witnesses: the framer's check, the engine -/

theorem witness_CapacityCheckEdge :
    answers (edge { inState .shLen 3 with lenR := 0x00000021, nbytesR := 77, stream := [0, 1] }) (fun t =>
        decide (t.fst = .shCheck ∧ t.cntR = 4 ∧ t.lenR = 33 ∧ t.nbytesR = 5 ∧ t.stream = [1])) = true ∧
    answers (edge { inState .shCheck 4 with lenR := 33 }) (fun t => decide (t.fst = .done ∧ t.causeR = 5)) = true ∧
      answers (edge { inState .shCheck 4 with lenR := 0 }) (fun t => decide (t.fst = .shRun)) = true ∧
      answers (edge { inState .shCheck 4 with lenR := 32 }) (fun t => decide (t.fst = .shBody ∧ t.nbytesR = 4)) = true := by
  decide

theorem witness_LinesChangeOnlyByPinWrites :
    answers (edge (inChunk .eHigh 3 16)) (fun t => decide (t.lines = (true, true, false))) = true ∧
      answers (edge (inChunk .eSample 3 16)) (fun t => decide (t.lines = (false, true, false))) = true ∧
      answers (edge { inChunk .eHigh 3 16 with levels := { goLevels with rst := true } }) (fun t =>
        decide (t.lines = (false, true, false))) = true := by decide

theorem witness_SampleTakesTheDraw :
    (inChunk .eSample 0 16).fst = .shRun ∧ (inChunk .eSample 0 16).est = .eSample ∧
      answers (edge { inChunk .eSample 30 32 with tdoDraws := [{ level := true, fail := true }] }) (fun t =>
        decide (t.trace = [.sample false] ∧ t.est = .eLow)) = true ∧
      answers (edge (inChunk .eSample 15 16)) (fun t => decide (t.trace = [.sample true] ∧ t.est = .eRest)) = true := by decide

theorem witness_ActionsAreDelayApart :
    (∀ k ≤ 1, answers (ticks k { inChunk .eLow 0 16 with dlyCnt := 1 }) (fun t => decide (t.est = .eLow)) = true) ∧
      answers (ticks 2 { inChunk .eLow 0 16 with dlyCnt := 1 }) (fun t => decide (t.est = .eHigh)) = true ∧
      answers (ticks 2 { inChunk .eHigh 0 16 with dlyCnt := 1 }) (fun t => decide (t.est = .eSample)) = true ∧
      answers (ticks 2 { inChunk .eRest 0 16 with dlyCnt := 1 }) (fun t => decide (t.est = .eFinish)) = true ∧
      answers (ticks 2 { inChunk .eFinish 0 16 with dlyCnt := 1 }) (fun t => decide (t.fst = .shReply)) = true ∧
      answers (ticks 2 { inChunk .eSample 0 16 with dlyCnt := 1 }) (fun t => decide (t.est = .eHigh)) = true ∧
      answers (ticks 2 { inChunk .eSample 15 16 with dlyCnt := 1 }) (fun t => decide (t.est = .eFinish)) = true := by decide

/-- A step inside its chunk, one that ends the last chunk, and one that ends a chunk with another after it. -/
theorem witness_StepOfAShift :
    answers (ticks 4 (inChunk .eLow 14 16)) (fun t =>
        decide (t.stepR = 15 ∧ t.trace = [.write false true false, .write true true false, .sample true])) = true ∧
      answers (ticks 5 (inChunk .eLow 15 16)) (fun t =>
        decide (t.est = .eFinish ∧ t.result.length = 2 ∧
          t.trace = [.write false true false, .write true true false, .sample true, .write false true false])) = true ∧
      answers (ticks 4 lastOfFullChunk) (fun t =>
        decide (t.est = .eLow ∧ t.offR = 4 ∧ t.bleftR = 1 ∧ t.tmsW = 5 ∧ t.tdiW = 10 ∧ t.nstepR = 1)) = true := by decide

theorem witness_ChunkLoadIsLittleEndian :
    (∃ s : State, s.bleftR = 32 ∧ 0 < s.bleftR ∧ s.offR + chunkBytes s.bleftR ≤ s.nBytes ∧
        2 * s.nBytes ≤ s.params.capacity ∧ s.scratch.filled (2 * s.nBytes)) ∧
      ∃ s : State, s.bleftR = 9 ∧ 0 < s.bleftR ∧ s.offR + chunkBytes s.bleftR ≤ s.nBytes ∧
        2 * s.nBytes ≤ s.params.capacity ∧ s.scratch.filled (2 * s.nBytes) :=
  ⟨⟨{ small with
      bleftR := 32, nbytesR := 4, scratch := [(0, 1), (1, 2), (2, 3), (3, 4), (4, 5), (5, 6), (6, 7), (7, 8)] }, by decide⟩,
    ⟨{ small with bleftR := 9, nbytesR := 2, scratch := [(0, 1), (1, 2), (2, 3), (3, 4)] }, by decide⟩⟩

/-- R134: TMS bytes `01 02 03 04` load `TMS_W = 0x04030201`. -/
theorem test_chunk_load :
    (match memRead .scratch 0 4 { small with scratch := [(0, 1), (1, 2), (2, 3), (3, 4)] } with
      | .ok w => decide (w = 0x04030201)
      | .error _ => false) = true := by decide

theorem witness_ChunkStoreIsLittleEndian :
    ({ small with bleftR := 32 } : State).offR + chunkBytes 32 ≤ small.params.maxNbytes ∧
      ({ small with bleftR := 5, offR := 3 } : State).offR + chunkBytes 5 ≤ small.params.maxNbytes := by decide

theorem witness_MemReadAndMemWrite :
    4 + 4 ≤ small.bufSize .scratch ∧ 3 + 1 ≤ small.bufSize .result ∧
      ∀ j < 4, (({ small with scratch := [(4, 1), (5, 2), (6, 3), (7, 4)] } : State).buf .scratch).read (4 + j) =
        some (BitVec.ofNat 8 (j + 1)) := by decide

/-! ### Witnesses: the whole machine -/

/-- The invariant holds of a block in IDLE that has run commands: garbage in every dead register. -/
theorem witness_Inv_idle :
    ({ small with
        tokR := 0x7368, lenR := 9, nbytesR := 2, echoR := 5, outcomeR := 2, causeR := 4, stepR := 3,
        scratch := [(1, 2), (7, 9)], result := [(3, 4)] } : State).Inv := by
  refine ⟨by decide, by decide, by decide, trivial, by decide, by decide, by decide, by decide, ?_, by decide⟩
  intro h; cases h

/-- The invariant holds where the engine starts, for a shift of no bits and for one that fills the scratch. -/
theorem witness_ShiftDuration :
    ((beforeShift 0 []).Inv ∧ (beforeShift 0 []).noReset = true ∧
        answers (tick (beforeShift 0 [])) (fun s1 => decide (s1.trace = [.write false true false])) = true) ∧
      (beforeShift 32 [(0, 1), (1, 2), (2, 3), (3, 4), (4, 5), (5, 6), (6, 7), (7, 8)]).Inv ∧ dutiful goLevels [] = true ∧
        answers (tick (beforeShift 32 [(0, 1), (1, 2), (2, 3), (3, 4), (4, 5), (5, 6), (6, 7), (7, 8)]))
          (fun s1 => decide (s1.trace = [.write false true true])) = true := by
  refine ⟨⟨⟨by decide, by decide, by decide, trivial, by decide, by decide, by decide, by decide, ?_, by decide⟩, by decide,
      by decide⟩,
    ⟨by decide, by decide, by decide, trivial, by decide, by decide, by decide, by decide, ?_, by decide⟩, by decide, by decide⟩
  · intro _; exact ⟨by decide, rfl⟩
  · intro _; exact ⟨by decide, rfl⟩

/-- The invariant holds at the last step of a full chunk with a tail after it, and of the last chunk. -/
theorem witness_LineLevelsInAStep : lastOfFullChunk.Inv ∧ (inChunk .eLow 15 16).Inv := by
  refine ⟨⟨by decide, by decide, by decide, trivial, by decide, by decide, by decide, by decide, ?_, by decide⟩,
    ⟨by decide, by decide, by decide, trivial, by decide, by decide, by decide, by decide, ?_, by decide⟩⟩
  · intro _; exact ⟨by decide, show lastOfFullChunk.ChunkOk by decide⟩
  · intro _; exact ⟨by decide, show (inChunk .eLow 15 16).ChunkOk by decide⟩

/-- Both sides of `LineDiscipline`: an edge that raises TCK from a state of the invariant, and one after which TCK is high. -/
theorem witness_LineDiscipline :
    (inChunk .eHigh 3 16).Inv ∧ (inChunk .eHigh 3 16).tckQ = false ∧
      answers (edge (inChunk .eHigh 3 16)) (fun t => t.tckQ) = true ∧
      ({ inChunk .eSample 3 16 with tckQ := true, dlyCnt := 1 } : State).Inv ∧
      answers (edge { inChunk .eSample 3 16 with tckQ := true, dlyCnt := 1 }) (fun t => t.tckQ) = true := by
  refine ⟨⟨by decide, by decide, by decide, trivial, by decide, by decide, by decide, by decide, ?_, by decide⟩, rfl, by decide,
    ⟨by decide, by decide, by decide, trivial, by decide, by decide, by decide, by decide, ?_, by decide⟩, by decide⟩
  · intro _; exact ⟨by decide, by decide, by decide⟩
  · intro _; exact ⟨by decide, by decide, by decide⟩

/-- A step from a state of the invariant that runs a whole command. -/
theorem witness_StepKeepsInvariant :
    ({ small with stream := encode (.getinfo getinfoRem) } : State).Inv ∧
      answers (step { small with stream := encode (.getinfo getinfoRem) }) (fun t => decide (t.fst = .idle)) = true := by
  refine ⟨⟨by decide, by decide, by decide, trivial, by decide, by decide, by decide, by decide, ?_, by decide⟩, by decide⟩
  intro h; cases h

theorem witness_StepNeverFaults : ∃ s : State, s.Inv ∧ s.fst = .shRun := ⟨_, witness_ShiftDuration.2.1, rfl⟩

theorem witness_LinesAtRestAfterEveryStep : ∃ s t : State, s.Inv ∧ step s = .next t ∧ decide (t.fst = .idle) = true := by
  obtain ⟨t, ht, hf⟩ := exists_next_of_answers witness_StepKeepsInvariant.2
  exact ⟨_, t, witness_StepKeepsInvariant.1, ht, hf⟩

theorem witness_CountersFitTheirWidths : ∃ s t : State, s.Inv ∧ step s = .next t := by
  obtain ⟨t, ht, -⟩ := exists_next_of_answers witness_StepKeepsInvariant.2
  exact ⟨_, t, witness_StepKeepsInvariant.1, ht⟩

theorem witness_BuffersKeepTheirForm :
    ({ small with stream := encode (.shift shiftRem 1 [1] [1]) } : State).BuffersOk ∧
      answers (step { small with stream := encode (.shift shiftRem 1 [1] [1]), tdoDraws := drawn [true] }) (fun t =>
        decide t.BuffersOk) = true := by decide

theorem witness_DelayAndParametersFixed :
    answers (step { small with levels := { goLevels with cfgDelay := 9 }, stream := [0x78, 0x78] }) (fun t =>
        decide (t.delayR = 1 ∧ t.params = small.params)) = true ∧
      answers (step { small with
          stream := [0x78, 0x78],
          script := [turn goLevels, turn goLevels, turn goLevels, turn goLevels, turn { goLevels with rst := true }] }) (fun t =>
        decide (t.delayR = 1 ∧ t.script = [turn { goLevels with rst := true }])) = true ∧
      answers (edge { small with levels := { goLevels with rst := true, cfgDelay := 9 } }) (fun t => decide (t.delayR = 9)) =
        true := by decide

/-- A host that serves the command, and one that stops offering bytes: the command ends, or hangs. -/
theorem witness_DutifulHostCommandEnds :
    dutiful small.levels [turn goLevels, turn { goLevels with shutdown := true }] = true ∧
      answers (exec (.getinfo getinfoRem) small) (fun t => !t.busy) = true ∧
      answers (exec (.getinfo getinfoRem) { small with script := [turn { goLevels with rxOffer := false }] }) State.hung =
        true := by decide

/-- A host that makes the block wait twice and then serves it. -/
theorem witness_FragmentationHasNoEffect :
    ({ small with
          script := [turn { goLevels with rxOffer := false }, turn { goLevels with txReady := false }, turn goLevels] } :
        State).patient = true ∧
      ({ small with script := [turn { goLevels with rxOffer := false }, turn goLevels] } : State).startsCommand = true ∧
      Instr.wellFormed small.params.capacity (.getinfo getinfoRem) = true := by decide

/-- Two blocks that differ in dead registers and buffers. -/
theorem witness_CommandsAreIndependent :
    sameLive small { small with echoR := 7, lenR := 9, scratch := [(0, 1)], causeR := 4, trace := [.halt] } ∧
      answers (exec (.settck settckRem 5) small) (fun t => decide (t.fst = .idle)) = true :=
  ⟨⟨rfl, rfl, rfl, rfl, rfl, rfl, rfl, rfl, rfl⟩, by decide⟩

theorem witness_BusyBlockIgnoresCmdGo : (inState .tok 0).busy = true ∧ (inState .done 0).busy = true := by decide

theorem witness_EngineIgnoresTheHost :
    (inChunk .eLow 0 16).fst = .shRun ∧ (inChunk .eLow 0 16).levels.rst = false ∧
      ({ goLevels with shutdown := true, rxErr := true, txErr := true } : Levels).rst = false := by decide

theorem witness_ShutdownExaminedOnlyInIdleAndReads :
    ((inState .shReply 0).fst ≠ .idle ∧ (inState .shReply 0).fst.isRead = false) ∧
      (inState .init 0).fst ≠ .idle ∧ (inState .init 0).fst.isRead = false := by decide

end Sys2Proof.Machine
end

/-! PROOFS for O52. Three conjuncts of the invariant, on the counters, on `CNT_R` within its field and on the accepted shift,
are kept by every edge on their own: an engine store that answers a state has stayed inside RESULT, so nothing about chunks is
needed to bound `OFF_R`. -/

namespace Sys2Proof

/-- `NBYTES_R` is the exact ceiling (R83). -/
theorem toNat_nbytesOf (len : Word) : (nbytesOf len).toNat = ceilBytes len := by
  have hlen := len.isLt
  have hlow : len.extractLsb' 0 3 = 0 ↔ len.toNat % 8 = 0 := by
    rw [← BitVec.toNat_inj]; simp
  have hcarry : (if len.extractLsb' 0 3 = 0 then (0 : BitVec 30) else 1).toNat = if len.toNat % 8 = 0 then 0 else 1 := by
    simp only [hlow]; split <;> rfl
  rw [nbytesOf, BitVec.toNat_add, hcarry, BitVec.toNat_setWidth, BitVec.extractLsb'_toNat, Nat.shiftRight_eq_div_pow,
    ceilBytes]
  split <;> omega

theorem lt_two_pow_widthHolding {k n : Nat} (h : k ≤ n) : k < 2 ^ widthHolding n :=
  h.trans_lt Nat.lt_log2_self

end Sys2Proof

namespace Sys2Proof.Machine

/-! ### The part of the invariant that bounds the counters -/

/-- The conjuncts of `State.Inv` that speak of the counters and of the lengths that bound them. -/
structure State.CountInv (s : State) : Prop where
  counters : s.CountersOk
  field : s.FieldOk
  accepted : s.AcceptedOk

theorem State.Inv.countInv {s : State} (h : s.Inv) : s.CountInv := by
  obtain ⟨-, -, hcounters, hfield, -, -, haccepted, -⟩ := h
  exact ⟨hcounters, hfield, haccepted⟩

/-- An accepted shift is no longer than `MAX_LEN` (R152). -/
theorem State.CountInv.lenR_le {s : State} (hs : s.CountInv) (hf : s.fst = .shRun) :
    s.lenR.toNat ≤ s.params.maxLen := by
  have hn : s.nBytes = ceilBytes s.lenR := by
    rw [State.nBytes, hs.accepted.1 (by simp [hf]), toNat_nbytesOf]
  have hfit := hs.accepted.2 (by simp [hf])
  rw [hn, ceilBytes] at hfit
  unfold Params.maxLen Params.maxNbytes
  omega

/-- A framer state that bounds neither `CNT_R` nor the shift's length. -/
def Fst.isFree : Fst → Bool
  | .init | .idle | .done | .halt | .fatal => true
  | .tok | .giSkip | .giReply | .stRead | .stReply | .shSkip | .shLen | .shCheck | .shBody | .shRun | .shReply => false

theorem State.CountInv.of_free {s : State} (hf : s.fst.isFree = true) (hc : s.CountersOk) : s.CountInv := by
  cases h : s.fst <;> simp only [h, Fst.isFree, Bool.false_eq_true] at hf
  all_goals exact ⟨hc, by simp [State.FieldOk, h], by simp [State.AcceptedOk, h]⟩

theorem State.CountInv.finish {s : State} (o : CmdOutcome) (c : Cause) (hc : s.CountersOk) :
    (Machine.finish o c s).CountInv := .of_free rfl hc

theorem State.CountInv.raiseCond {s : State} (x : Cond) (hc : s.CountersOk) : (Machine.raiseCond x s).CountInv :=
  .finish _ _ hc

/-- The bytes of the field of a state whose field has a fixed length (R30); 0 for every other state. -/
def Fst.fieldLen : Fst → Nat
  | .tok => 2
  | .giSkip => 6
  | .giReply => 20
  | .stRead => 9
  | .stReply | .shSkip | .shLen => 4
  | .init | .idle | .shCheck | .shBody | .shRun | .shReply | .done | .halt | .fatal => 0

theorem Fst.fieldLen_le (f : Fst) : f.fieldLen ≤ 20 := by cases f <;> decide

theorem State.CountInv.of_field {s : State} (hcnt : s.cntR < s.fst.fieldLen) (hoff : s.offR ≤ s.params.maxNbytes)
    (hleft : s.bleftR ≤ s.params.maxLen) : s.CountInv := by
  have hle := s.fst.fieldLen_le
  refine ⟨⟨by omega, hoff, hleft⟩, ?_, ?_⟩
  · cases h : s.fst <;> simp_all [State.FieldOk, Fst.fieldLen]
  · cases h : s.fst <;> simp_all [State.AcceptedOk, Fst.fieldLen]

/-- Entering such a state starts its field at byte 0. -/
theorem State.CountInv.enter {s : State} {f : Fst} (hf : 0 < f.fieldLen) (hoff : s.offR ≤ s.params.maxNbytes)
    (hleft : s.bleftR ≤ s.params.maxLen) : (Machine.enter f s).CountInv := .of_field hf hoff hleft

/-! ### The framer's edges -/

/-- The host's turn and the bytes of the stream touch no counter. -/
theorem hostTurn_keeps_countInv {s t : State} (hs : s.CountInv) (h : hostTurn s = .next t) : t.CountInv := by
  obtain ⟨-, rfl⟩ | ⟨turn, rest, -, rfl, -⟩ := hostTurn_cases h
  · exact hs
  · exact ⟨hs.counters, hs.field, hs.accepted⟩

theorem setStream_keeps_countInv {s : State} (q : List Byte) (hs : s.CountInv) : (setStream q s).CountInv :=
  ⟨hs.counters, hs.field, hs.accepted⟩

/-- An edge in a read state keeps the bounds if what the state does with a byte does. -/
theorem readEdge_keeps_countInv {f : Byte → State → Except Fault State} {s t : State} (hs : s.CountInv)
    (hbyte : ∀ b rest, f b (consumeByte b rest s) = .ok t → t.CountInv) (h : readEdge f s = .ok t) : t.CountInv := by
  obtain ⟨x, -, rfl⟩ | ⟨-, rfl⟩ | ⟨b, rest, -, -, h⟩ := readEdge_cases h
  · exact .raiseCond x hs.counters
  · exact hs
  · exact hbyte b rest h

theorem dispatchToken_countInv {s : State} (hoff : s.offR ≤ s.params.maxNbytes) (hleft : s.bleftR ≤ s.params.maxLen) :
    (dispatchToken s).CountInv := by
  unfold dispatchToken
  split
  · exact .enter (by decide) hoff hleft
  split
  · exact .enter (by decide) hoff hleft
  split
  · exact .enter (by decide) hoff hleft
  · exact .raiseCond _ ⟨Nat.zero_le _, hoff, hleft⟩

theorem tokEdge_keeps_countInv {s t : State} (hs : s.CountInv) (hf : s.fst = .tok) (h : tokEdge s = .ok t) :
    t.CountInv := by
  refine readEdge_keeps_countInv hs (fun b rest h => ?_) h
  obtain ⟨-, hoff, hleft⟩ := hs.counters
  unfold tokByte at h
  split at h <;> cases h
  · rename_i hfirst
    exact .of_field (by simpa [hf, Fst.fieldLen] using hfirst) hoff hleft
  · exact dispatchToken_countInv hoff hleft

theorem giSkipEdge_keeps_countInv {s t : State} (hs : s.CountInv) (hf : s.fst = .giSkip) (h : giSkipEdge s = .ok t) :
    t.CountInv := by
  refine readEdge_keeps_countInv hs (fun b rest h => ?_) h
  obtain ⟨-, hoff, hleft⟩ := hs.counters
  unfold giSkipByte at h
  split at h <;> cases h
  · exact .enter (by decide) hoff hleft
  · rename_i hmore
    exact .of_field (by simpa [hf, Fst.fieldLen] using Nat.not_le.1 hmore) hoff hleft

theorem shSkipEdge_keeps_countInv {s t : State} (hs : s.CountInv) (hf : s.fst = .shSkip) (h : shSkipEdge s = .ok t) :
    t.CountInv := by
  refine readEdge_keeps_countInv hs (fun b rest h => ?_) h
  obtain ⟨-, hoff, hleft⟩ := hs.counters
  unfold shSkipByte at h
  split at h <;> cases h
  · exact .enter (by decide) hoff hleft
  · rename_i hmore
    exact .of_field (by simpa [hf, Fst.fieldLen] using Nat.not_le.1 hmore) hoff hleft

theorem stReadEdge_keeps_countInv {s t : State} (hs : s.CountInv) (hf : s.fst = .stRead) (h : stReadEdge s = .ok t) :
    t.CountInv := by
  refine readEdge_keeps_countInv hs (fun b rest h => ?_) h
  obtain ⟨-, hoff, hleft⟩ := hs.counters
  unfold stReadByte at h
  split at h
  · rename_i hskip
    cases h
    exact .of_field (by simp [hf, Fst.fieldLen] at hskip ⊢; omega) hoff hleft
  split at h <;> cases h
  · rename_i hecho
    exact .of_field (by simpa [hf, Fst.fieldLen] using hecho) hoff hleft
  · exact .enter (by decide) hoff hleft

/-- A byte consumed counts one; below the bound the counters stay within it. -/
theorem countersOk_consumeByte {s : State} (b : Byte) (rest : List Byte) (hs : s.CountersOk)
    (h : s.cntR < max s.params.capacity 20) : (consumeByte b rest s).CountersOk := ⟨h, hs.2⟩

theorem shLenEdge_keeps_countInv {s t : State} (hs : s.CountInv) (hf : s.fst = .shLen) (h : shLenEdge s = .ok t) :
    t.CountInv := by
  refine readEdge_keeps_countInv hs (fun b rest h => ?_) h
  have hc : s.cntR < 4 := by simpa [State.FieldOk, hf] using hs.field
  obtain ⟨-, hoff, hleft⟩ := hs.counters
  unfold shLenByte at h
  split at h <;> cases h
  · rename_i hmore
    exact .of_field (by simpa [hf, Fst.fieldLen] using hmore) hoff hleft
  · exact ⟨countersOk_consumeByte b rest hs.counters (by omega), by simp [State.FieldOk], by simp [State.AcceptedOk]⟩

theorem shBodyEdge_keeps_countInv {s t : State} (hs : s.CountInv) (hf : s.fst = .shBody) (h : shBodyEdge s = .ok t) :
    t.CountInv := by
  refine readEdge_keeps_countInv hs (fun b rest h => ?_) h
  have hc : s.cntR < 2 * s.nBytes := by simpa [State.FieldOk, hf] using hs.field
  have hlen : s.nbytesR = nbytesOf s.lenR := hs.accepted.1 (by simp [hf])
  have hfit : 2 * s.nBytes ≤ s.params.capacity := hs.accepted.2 (by simp [hf])
  have hcs := countersOk_consumeByte b rest hs.counters (by omega)
  unfold shBodyByte at h
  split at h
  · rename_i s1 hw
    obtain ⟨-, ⟨-, rfl⟩ | ⟨⟨⟩, -⟩⟩ := writeByte_cases hw
    split at h <;> cases h
    · exact ⟨hcs, by simp [State.FieldOk], fun _ => hlen, fun _ => hfit⟩
    · exact ⟨hcs, by simp_all [State.FieldOk], fun _ => hlen, fun _ => hfit⟩
  · cases h

theorem shCheckEdge_keeps_countInv {s : State} (hs : s.CountInv) : (shCheckEdge s).CountInv := by
  obtain ⟨hcnt, hoff, hleft⟩ := hs.counters
  unfold shCheckEdge
  split
  · exact .raiseCond _ ⟨hcnt, hoff, hleft⟩
  rename_i hfit
  have hfit : 2 * (nbytesOf s.lenR).toNat ≤ s.params.capacity := by simpa [fitsCapacity] using hfit
  split
  · exact ⟨⟨Nat.zero_le _, hoff, hleft⟩, by simp [State.FieldOk], fun _ => rfl, fun _ => hfit⟩
  · rename_i hn
    have hpos : 0 < (nbytesOf s.lenR).toNat := Nat.pos_of_ne_zero fun h => hn (BitVec.eq_of_toNat_eq h)
    exact ⟨⟨Nat.zero_le _, hoff, hleft⟩, by simpa [State.FieldOk, State.nBytes] using hpos, fun _ => rfl, fun _ => hfit⟩

/-- An edge in a reply state keeps the bounds, the reply being no longer than `CNT_R` can count. -/
theorem replyEdge_keeps_countInv {total : Nat} {f : State → Except Fault Byte} {s t : State} (hs : s.CountInv)
    (htotal : total ≤ max s.params.capacity 20)
    (hfield : ∀ b, s.cntR + 1 < total → (emitByte b s).FieldOk) (h : replyEdge total f s = .ok t) : t.CountInv := by
  obtain ⟨-, hoff, hleft⟩ := hs.counters
  obtain ⟨-, rfl⟩ | ⟨hlt, rfl | rfl | ⟨b, -, ⟨-, rfl⟩ | ⟨hmore, rfl⟩⟩⟩ := replyEdge_cases h
  · exact .finish _ _ hs.counters
  · exact .raiseCond _ hs.counters
  · exact hs
  · exact .finish _ _ ⟨hlt.trans_le htotal, hoff, hleft⟩
  · exact ⟨⟨hlt.trans_le htotal, hoff, hleft⟩, hfield b hmore, hs.accepted⟩

theorem giReplyEdge_keeps_countInv {s t : State} (hs : s.CountInv) (hf : s.fst = .giReply) (h : giReplyEdge s = .ok t) :
    t.CountInv :=
  replyEdge_keeps_countInv hs (le_max_right _ 20) (fun b hb => by simpa [State.FieldOk, hf] using hb) h

theorem stReplyEdge_keeps_countInv {s t : State} (hs : s.CountInv) (hf : s.fst = .stReply) (h : stReplyEdge s = .ok t) :
    t.CountInv :=
  replyEdge_keeps_countInv hs (by omega) (fun b hb => by simpa [State.FieldOk, hf] using hb) h

theorem shReplyEdge_keeps_countInv {s t : State} (hs : s.CountInv) (hf : s.fst = .shReply) (h : shReplyEdge s = .ok t) :
    t.CountInv := by
  have hfit : 2 * s.nBytes ≤ s.params.capacity := hs.accepted.2 (by simp [hf])
  exact replyEdge_keeps_countInv hs (by omega) (fun b hb => by simpa [State.FieldOk, hf] using hb.le) h

/-! ### The engine's edges -/

/-- A store to RESULT that answers a state has stayed inside the buffer and has changed nothing else. -/
theorem memWrite_result_inside {k a : Nat} {v : Word} {s t : State} (h : memWrite .result a k v s = .ok t)
    (ha : a ≤ s.params.maxNbytes) : a + k ≤ s.params.maxNbytes ∧ ∃ m, t = setResult m s := by
  induction k generalizing a v s with
  | zero => cases h; exact ⟨ha, t.result, rfl⟩
  | succ k ih =>
    simp only [memWrite] at h
    split at h
    · rename_i s1 h1
      obtain ⟨hlt, ⟨⟨⟩, -⟩ | ⟨-, rfl⟩⟩ := writeByte_cases h1
      obtain ⟨hin, m, rfl⟩ := ih h hlt
      exact ⟨(Nat.succ_add_eq_add_succ a k).ge.trans hin, m, rfl⟩
    · cases h

/-- A chunk's load sets the words and counters of the chunk (R134, R135). -/
theorem chunkLoad_eq_startChunk {s t : State} (h : chunkLoad s = .ok t) : ∃ tmsW tdiW, t = startChunk tmsW tdiW s := by
  unfold chunkLoad at h
  split at h
  · split at h <;> cases h
    exact ⟨_, _, rfl⟩
  · cases h

/-- A chunk's store advances `OFF_R` inside RESULT (R140, R141). -/
theorem chunkStore_inside {s t : State} (h : chunkStore s = .ok t) (hoff : s.offR ≤ s.params.maxNbytes) :
    s.offR + chunkBytes s.bleftR ≤ s.params.maxNbytes ∧ ∃ m, t = advanceChunk (setResult m s) := by
  unfold chunkStore at h
  split at h
  · rename_i s1 h1
    cases h
    obtain ⟨hin, m, rfl⟩ := memWrite_result_inside h1 hoff
    exact ⟨hin, m, rfl⟩
  · cases h

/-- The engine starts with `OFF_R = 0` and `BLEFT_R = len`, whichever way it goes (R131, R132, R143). -/
theorem engineStart_cases {s t : State} (h : engineStart s = .ok t) :
    t = restWrite (beginShift s) ∨
      ∃ tms tdi tmsW tdiW, t = setEst .eLow (startChunk tmsW tdiW (startDelay (pinWrite false tms tdi (beginShift s)))) := by
  unfold engineStart at h
  split at h
  · exact .inl (by cases h; rfl)
  split at h
  · split at h
    · split at h
      · rename_i hl
        obtain ⟨tmsW, tdiW, rfl⟩ := chunkLoad_eq_startChunk hl
        cases h
        exact .inr ⟨_, _, tmsW, tdiW, rfl⟩
      · cases h
    · cases h
  · cases h

/-- In SH_RUN the bounds are those of `OFF_R` and `BLEFT_R`, as long as the framer's registers stay. -/
theorem State.CountInv.of_running {s t : State} (hs : s.CountInv) (hf : s.fst = .shRun)
    (hkept : t.fst = s.fst ∧ t.cntR = s.cntR ∧ t.lenR = s.lenR ∧ t.nbytesR = s.nbytesR ∧ t.params = s.params)
    (hoff : t.offR ≤ s.params.maxNbytes) (hleft : t.bleftR ≤ s.params.maxLen) : t.CountInv := by
  obtain ⟨hfst, hcnt, hlen, hn, hp⟩ := hkept
  refine ⟨⟨?_, hp ▸ hoff, hp ▸ hleft⟩, by simp [State.FieldOk, hfst, hf], ?_⟩
  · rw [hcnt, hp]; exact hs.counters.1
  · simpa only [State.AcceptedOk, State.nBytes, hfst, hlen, hn, hp] using hs.accepted

theorem engineStart_keeps_countInv {s t : State} (hs : s.CountInv) (hf : s.fst = .shRun) (h : engineStart s = .ok t) :
    t.CountInv := by
  obtain rfl | ⟨tms, tdi, tmsW, tdiW, rfl⟩ := engineStart_cases h
  · exact hs.of_running hf (by simp) (by simp) (by simpa using hs.lenR_le hf)
  · exact hs.of_running hf (by simp) (by simp) (by simpa using hs.lenR_le hf)

theorem sampleEdge_keeps_countInv {s t : State} (hs : s.CountInv) (hf : s.fst = .shRun) (h : sampleEdge s = .ok t) :
    t.CountInv := by
  obtain ⟨-, hoff, hleft⟩ := hs.counters
  obtain ⟨-, h⟩ | ⟨-, rfl⟩ := sampleEdge_cases h
  · obtain ⟨s1, hstore, h⟩ := chunkEnd_cases h
    obtain ⟨hin, m, rfl⟩ := chunkStore_inside hstore hoff
    have hleft' : s.bleftR - s.nstepR.toNat ≤ s.params.maxLen := (Nat.sub_le _ _).trans hleft
    obtain ⟨-, s2, hload, rfl⟩ | ⟨-, rfl⟩ := h
    · obtain ⟨tmsW, tdiW, rfl⟩ := chunkLoad_eq_startChunk hload
      exact hs.of_running hf (by simp) (by simpa using hin) (by simpa using hleft')
    · exact hs.of_running hf (by simp) (by simpa using hin) (by simpa using hleft')
  · exact hs.of_running hf (by simp) hoff hleft

/-- The completion report begins the reply at byte 0. -/
theorem engineDone_keeps_countInv {s : State} (hs : s.CountInv) (hf : s.fst = .shRun) : (engineDone s).CountInv :=
  ⟨⟨Nat.zero_le _, hs.counters.2⟩, Nat.zero_le _, fun _ => hs.accepted.1 (by simp [hf]),
    fun _ => hs.accepted.2 (by simp [hf])⟩

theorem engineEdge_keeps_countInv {s t : State} (hs : s.CountInv) (hf : s.fst = .shRun) (h : engineEdge s = .ok t) :
    t.CountInv := by
  obtain ⟨-, hoff, hleft⟩ := hs.counters
  obtain ⟨-, h⟩ | ⟨-, h⟩ | ⟨-, ⟨-, rfl⟩ | ⟨-, rfl⟩ | ⟨-, rfl⟩ | ⟨-, rfl⟩⟩ | ⟨-, -, rfl⟩ := engineEdge_cases h
  · exact engineStart_keeps_countInv hs hf h
  · exact sampleEdge_keeps_countInv hs hf h
  · exact hs.of_running hf (by simp) hoff hleft
  · exact hs.of_running hf (by simp) hoff hleft
  · exact hs.of_running hf (by simp) hoff hleft
  · exact engineDone_keeps_countInv hs hf
  · exact hs.of_running hf (by simp) hoff hleft

/-! ### Every edge, every step -/

theorem resetEdge_countInv (s : State) : (resetEdge s).CountInv :=
  .of_free rfl ⟨Nat.zero_le _, Nat.zero_le _, Nat.zero_le _⟩

theorem initEdge_keeps_countInv {s : State} (hs : s.CountInv) : (initEdge s).CountInv := by
  unfold initEdge
  split
  · exact .of_free rfl hs.counters
  split
  · exact .of_free rfl hs.counters
  · exact .of_free rfl hs.counters

theorem idleEdge_keeps_countInv {s : State} (hs : s.CountInv) : (idleEdge s).CountInv := by
  obtain ⟨-, hoff, hleft⟩ := hs.counters
  unfold idleEdge
  split
  · exact .of_free rfl hs.counters
  split
  · exact .enter (by decide) hoff hleft
  · exact hs

theorem leaveDone_keeps_countInv {s t : State} (hs : s.CountInv) (h : leaveDone s = .next t) : t.CountInv := by
  unfold leaveDone at h
  split at h
  · cases h
  split at h <;> cases h
  · exact .of_free rfl hs.counters
  · unfold hostCloses
    split <;> exact .of_free rfl hs.counters

theorem edge_keeps_countInv {s t : State} (hs : s.CountInv) (h : edge s = .next t) : t.CountInv := by
  unfold edge at h
  split at h
  · cases h; exact resetEdge_countInv s
  cases hf : s.fst <;> simp only [hf, Result.ofExcept_eq_next, Host.Outcome.next.injEq] at h
  case init => exact h ▸ initEdge_keeps_countInv hs
  case idle => exact h ▸ idleEdge_keeps_countInv hs
  case tok => exact tokEdge_keeps_countInv hs hf h
  case giSkip => exact giSkipEdge_keeps_countInv hs hf h
  case giReply => exact giReplyEdge_keeps_countInv hs hf h
  case stRead => exact stReadEdge_keeps_countInv hs hf h
  case stReply => exact stReplyEdge_keeps_countInv hs hf h
  case shSkip => exact shSkipEdge_keeps_countInv hs hf h
  case shLen => exact shLenEdge_keeps_countInv hs hf h
  case shCheck => exact h ▸ shCheckEdge_keeps_countInv hs
  case shBody => exact shBodyEdge_keeps_countInv hs hf h
  case shRun => exact engineEdge_keeps_countInv hs hf h
  case shReply => exact shReplyEdge_keeps_countInv hs hf h
  case done => exact leaveDone_keeps_countInv hs h
  case halt => exact h ▸ hs
  case fatal => exact h ▸ hs

theorem step_keeps_countInv {s t : State} (hs : s.CountInv) (h : step s = .next t) : t.CountInv :=
  step_keeps (P := State.CountInv) (fun _ q hs => setStream_keeps_countInv q hs)
    (fun _ _ hs h => hostTurn_keeps_countInv hs h) (fun _ _ hs h => edge_keeps_countInv hs h) hs h

/-- Settles O52: every step keeps the counters' bounds, and a number fits the width that holds its bound. -/
theorem countersFitTheirWidths : Obligations.CountersFitTheirWidths := by
  intro s t hs h
  obtain ⟨hcnt, hoff, hleft⟩ := (step_keeps_countInv hs.countInv h).counters
  exact ⟨lt_two_pow_widthHolding hcnt, lt_two_pow_widthHolding hoff, lt_two_pow_widthHolding hleft⟩

end Sys2Proof.Machine

/-! PROOFS for the family of 10_state.md. First what one edge without a reset can do, said once for the whole block; the
invariants, frames and bounds after it are each a case split on that. -/

namespace Sys2Proof.Machine

/-! ### What an edge can do -/

/-- `m'` is RESULT `m` after the store of the low `k` bytes of `v` at `a` (R62, R140, R141). -/
structure Stored (a k : Nat) (v : Word) (size : Nat) (m m' : Memory) : Prop where
  read : ∀ x, m'.read x = if a ≤ x ∧ x < a + k then some (byteOf v (x - a)) else m.read x
  wf : m.wf = true → m'.wf = true
  below : m.below size = true → m'.below size = true

/-- A store to RESULT that answers a state has set those bytes and nothing else, wherever it begins. -/
theorem memWrite_result_stored {k a : Nat} {v : Word} {s t : State} (h : memWrite .result a k v s = .ok t) :
    ∃ m, t = setResult m s ∧ Stored a k v s.params.maxNbytes s.result m := by
  cases k with
  | zero => cases h; exact ⟨s.result, rfl, fun x => by rw [if_neg (by omega)], id, id⟩
  | succ k =>
    have ha : a ≤ s.params.maxNbytes := by
      simp only [memWrite] at h
      split at h
      · rename_i s1 h1; exact (writeByte_cases h1).1.le
      · cases h
    obtain ⟨m, hm, hread, hwf, hbelow⟩ := memWrite_result (v := v) (memWrite_result_inside h ha).1
    rw [hm] at h
    cases h
    exact ⟨m, rfl, hread, hwf, hbelow⟩

theorem chunkStore_stored {s t : State} (h : chunkStore s = .ok t) :
    ∃ m, t = advanceChunk (setResult m s) ∧
      Stored s.offR (chunkBytes s.bleftR) s.tdoW s.params.maxNbytes s.result m := by
  unfold chunkStore at h
  split at h
  · rename_i s1 h1
    obtain ⟨m, rfl, hm⟩ := memWrite_result_stored h1
    cases h
    exact ⟨m, rfl, hm⟩
  · cases h

/-- The state each token leads to (R104). -/
def dispatchTable : List (BitVec 16 × Fst) := [(tokenGetinfo, .giSkip), (tokenSettck, .stRead), (tokenShift, .shSkip)]

theorem mem_dispatchTable {t : BitVec 16} {f : Fst} :
    (t, f) ∈ dispatchTable ↔
      t = tokenGetinfo ∧ f = .giSkip ∨ t = tokenSettck ∧ f = .stRead ∨ t = tokenShift ∧ f = .shSkip := by
  simp [dispatchTable]

theorem fst_of_mem_dispatchTable {t : BitVec 16} {f : Fst} (h : (t, f) ∈ dispatchTable) :
    f = .giSkip ∨ f = .stRead ∨ f = .shSkip := by
  obtain ⟨-, h⟩ | ⟨-, h⟩ | ⟨-, h⟩ := mem_dispatchTable.1 h
  · exact .inl h
  · exact .inr (.inl h)
  · exact .inr (.inr h)

/-- What an edge with `rst = 0` can do from `s`, one case for each thing the framer or the engine does. -/
inductive Move (s : State) : State → Prop
  | stay (hb : s.busy = false) (hf : s.fst ≠ .init) : Move s s
  | wait (hw : s.waiting = true) : Move s s
  | setupFail (c : Cause) (hf : s.fst = .init) : Move s (record (.fatal c) (setFst .fatal s))
  | serve (hf : s.fst = .init) (hd : s.delayR ≠ 0) : Move s (setFst .idle s)
  | halt (hf : s.fst = .idle ∨ s.fst = .done) : Move s (record .halt (setFst .halt s))
  | begin (hf : s.fst = .idle) : Move s (enter .tok s)
  | leave (q : List Byte) (hf : s.fst = .done) : Move s (setStream q (setFst .idle s))
  | raise (x : Cond) (hf : s.fst.isRead = true ∨ s.fst.isReply = true) : Move s (raiseCond x s)
  | tokFirst (b : Byte) (rest : List Byte) (hs : s.stream = b :: rest) (hf : s.fst = .tok) (hc : s.cntR = 0) :
      Move s (setTok (b ++ s.tokR.extractLsb' 0 8) (consumeByte b rest s))
  | dispatch (f : Fst) (b : Byte) (rest : List Byte) (hs : s.stream = b :: rest) (hf : s.fst = .tok) (hc : s.cntR ≠ 0)
      (ht : (tokenOf (s.tokR.extractLsb' 8 8) b, f) ∈ dispatchTable) :
      Move s (enter f (setTok (tokenOf (s.tokR.extractLsb' 8 8) b) (consumeByte b rest s)))
  | badToken (b : Byte) (rest : List Byte) (hs : s.stream = b :: rest) (hf : s.fst = .tok) (hc : s.cntR ≠ 0) :
      Move s (raiseCond .badToken (setCnt 0 (setTok (tokenOf (s.tokR.extractLsb' 8 8) b) (consumeByte b rest s))))
  | skip (b : Byte) (rest : List Byte) (hs : s.stream = b :: rest)
      (hf : s.fst = .giSkip ∧ s.cntR < 5 ∨ s.fst = .stRead ∧ s.cntR < 5 ∨ s.fst = .shSkip ∧ s.cntR < 3) :
      Move s (consumeByte b rest s)
  | giSkipLast (b : Byte) (rest : List Byte) (hs : s.stream = b :: rest) (hf : s.fst = .giSkip) (hc : 5 ≤ s.cntR) :
      Move s (enter .giReply (consumeByte b rest s))
  | echoByte (b : Byte) (rest : List Byte) (hs : s.stream = b :: rest) (hf : s.fst = .stRead) (hc : 5 ≤ s.cntR ∧ s.cntR < 8) :
      Move s (setEchoByte (s.cntR - 5) b (consumeByte b rest s))
  | echoLast (b : Byte) (rest : List Byte) (hs : s.stream = b :: rest) (hf : s.fst = .stRead) (hc : 8 ≤ s.cntR) :
      Move s (enter .stReply (setEchoByte 3 b (consumeByte b rest s)))
  | shSkipLast (b : Byte) (rest : List Byte) (hs : s.stream = b :: rest) (hf : s.fst = .shSkip) (hc : 3 ≤ s.cntR) :
      Move s (enter .shLen (consumeByte b rest s))
  | lenByte (b : Byte) (rest : List Byte) (hs : s.stream = b :: rest) (hf : s.fst = .shLen) (hc : s.cntR < 3) :
      Move s (setLenByte s.cntR b (consumeByte b rest s))
  | lenLast (b : Byte) (rest : List Byte) (hs : s.stream = b :: rest) (hf : s.fst = .shLen) (hc : 3 ≤ s.cntR) :
      Move s (setFst .shCheck (latchBytes (setLenByte 3 b (consumeByte b rest s))))
  | oversize (hf : s.fst = .shCheck) (hfit : fitsCapacity s.params.capacity (nbytesOf s.lenR) = false) :
      Move s (raiseCond .oversize (latchBytes s))
  | noBody (hf : s.fst = .shCheck) (hn : nbytesOf s.lenR = 0) : Move s (startEngine (setCnt 0 (latchBytes s)))
  | body (hf : s.fst = .shCheck) (hfit : 2 * (nbytesOf s.lenR).toNat ≤ s.params.capacity) (hn : nbytesOf s.lenR ≠ 0) :
      Move s (enter .shBody (latchBytes s))
  | bodyByte (b : Byte) (rest : List Byte) (hs : s.stream = b :: rest) (hf : s.fst = .shBody) (ha : s.cntR < s.params.capacity)
      (hc : s.cntR + 1 < 2 * s.nBytes) : Move s (setScratch (s.scratch.write s.cntR b) (consumeByte b rest s))
  | bodyLast (b : Byte) (rest : List Byte) (hs : s.stream = b :: rest) (hf : s.fst = .shBody) (ha : s.cntR < s.params.capacity)
      (hc : 2 * s.nBytes ≤ s.cntR + 1) :
      Move s (startEngine (setScratch (s.scratch.write s.cntR b) (consumeByte b rest s)))
  | startEmpty (hf : s.fst = .shRun) (he : s.est = .eIdle ∨ s.est = .eStart) (hl : s.lenR = 0) :
      Move s (restWrite (beginShift s))
  | start (tms tdi : Bool) (tmsW tdiW : Word) (hf : s.fst = .shRun) (he : s.est = .eIdle ∨ s.est = .eStart) (hl : s.lenR ≠ 0) :
      Move s (setEst .eLow (startChunk tmsW tdiW (startDelay (pinWrite false tms tdi (beginShift s)))))
  | low (hf : s.fst = .shRun) (he : s.est = .eLow) (hd : s.dlyCnt = 0) : Move s (lowWrite s)
  | high (hf : s.fst = .shRun) (he : s.est = .eHigh) (hd : s.dlyCnt = 0) : Move s (highWrite s)
  | rest (hf : s.fst = .shRun) (he : s.est = .eRest) (hd : s.dlyCnt = 0) : Move s (restWrite s)
  | report (hf : s.fst = .shRun) (he : s.est = .eFinish) (hd : s.dlyCnt = 0) : Move s (engineDone s)
  | count (hf : s.fst = .shRun) (he : s.est = .eLow ∨ s.est = .eHigh ∨ s.est = .eRest ∨ s.est = .eFinish)
      (hd : s.dlyCnt ≠ 0) : Move s (tickDelay s)
  | sample (hf : s.fst = .shRun) (he : s.est = .eSample) (hmore : ¬ s.nstepR ≤ s.stepR + 1) :
      Move s (setEst .eLow (sampleAndShift s))
  | nextChunk (m : Memory) (tmsW tdiW : Word) (hf : s.fst = .shRun) (he : s.est = .eSample) (hlast : s.nstepR ≤ s.stepR + 1)
      (hm : Stored s.offR (chunkBytes s.bleftR) (sampleAndShift s).tdoW s.params.maxNbytes s.result m)
      (hleft : 0 < s.bleftR - s.nstepR.toNat) :
      Move s (setEst .eLow (startChunk tmsW tdiW (advanceChunk (setResult m (sampleAndShift s)))))
  | lastChunk (m : Memory) (hf : s.fst = .shRun) (he : s.est = .eSample) (hlast : s.nstepR ≤ s.stepR + 1)
      (hm : Stored s.offR (chunkBytes s.bleftR) (sampleAndShift s).tdoW s.params.maxNbytes s.result m)
      (hleft : s.bleftR - s.nstepR.toNat = 0) :
      Move s (setEst .eRest (advanceChunk (setResult m (sampleAndShift s))))
  | replyEnd (hf : s.fst.isReply = true) : Move s (finish .cont .none s)
  | emit (b : Byte) (hf : s.fst.isReply = true) (hc : s.cntR + 1 < s.replyTotal) : Move s (emitByte b s)
  | emitLast (b : Byte) (hf : s.fst.isReply = true) : Move s (finish .cont .none (emitByte b s))

/-- What the dispatch on a token can do (R104, R118). -/
theorem dispatchToken_cases (s : State) :
    (∃ f, (s.tokR, f) ∈ dispatchTable ∧ dispatchToken s = enter f s) ∨
      (s.tokR ∉ [tokenGetinfo, tokenSettck, tokenShift] ∧ dispatchToken s = raiseCond .badToken (setCnt 0 s)) := by
  unfold dispatchToken
  split
  · exact .inl ⟨.giSkip, by simp [dispatchTable, *], rfl⟩
  split
  · exact .inl ⟨.stRead, by simp [dispatchTable, *], rfl⟩
  split
  · exact .inl ⟨.shSkip, by simp [dispatchTable, *], rfl⟩
  · exact .inr ⟨by simp [*], rfl⟩

/-- Where a read waits, the block waits for the host. -/
theorem waiting_of_rxByte {s : State} (hr : s.levels.rst = false) (hf : s.fst.isRead = true) (h : rxByte s = .wait) :
    s.waiting = true := by
  unfold rxByte at h
  split at h
  · cases h
  split at h
  · cases h
  split at h
  · cases h
  rename_i hsd herr _ _ hno
  split at h
  · split at h <;> cases h
  rename_i heof
  have hv : s.rxValid = false := by
    cases ho : s.levels.rxOffer
    · simp [State.rxValid, ho]
    · cases hst : s.stream with
      | nil => simp [State.rxValid, hst]
      | cons b q => exact absurd hst (hno b q ho)
  simp [State.waiting, hr, hf, hsd, herr, hv, heof]

/-- An edge in a read state, given what it does with a byte. -/
theorem move_of_readEdge {f : Byte → State → Except Fault State} {s t : State} (hr : s.levels.rst = false)
    (hf : s.fst.isRead = true) (h : readEdge f s = .ok t)
    (hbyte : ∀ b rest, s.stream = b :: rest → f b (consumeByte b rest s) = .ok t → Move s t) : Move s t := by
  obtain ⟨x, -, rfl⟩ | ⟨hw, rfl⟩ | ⟨b, rest, -, hs, h⟩ := readEdge_cases h
  · exact .raise x (.inl hf)
  · exact .wait (waiting_of_rxByte hr hf hw)
  · exact hbyte b rest hs h

/-- An edge in a reply state. -/
theorem move_of_replyEdge {total : Nat} {f : State → Except Fault Byte} {s t : State} (hr : s.levels.rst = false)
    (hf : s.fst.isReply = true) (htotal : total = s.replyTotal) (h : replyEdge total f s = .ok t) : Move s t := by
  subst htotal
  unfold replyEdge at h
  split at h
  · cases h; exact .replyEnd hf
  rename_i hc
  split at h
  · cases h; exact .raise _ (.inr hf)
  rename_i herr
  split at h
  · split at h
    · split at h <;> cases h
      · exact .emitLast _ hf
      · exact .emit _ hf (by omega)
    · cases h
  · rename_i hrdy
    cases h
    exact .wait (by simp [State.waiting, State.txValid, hr, hf, herr, hrdy, Nat.lt_of_not_le hc])

theorem engineStart_empty {s : State} (hl : s.lenR = 0) : engineStart s = .ok (restWrite (beginShift s)) := if_pos hl

theorem move_of_engineStart {s t : State} (hf : s.fst = .shRun) (he : s.est = .eIdle ∨ s.est = .eStart)
    (h : engineStart s = .ok t) : Move s t := by
  by_cases hl : s.lenR = 0
  · rw [engineStart_empty hl] at h
    cases h
    exact .startEmpty hf he hl
  · unfold engineStart at h
    rw [if_neg hl] at h
    split at h
    · split at h
      · split at h
        · rename_i hload
          obtain ⟨tmsW, tdiW, rfl⟩ := chunkLoad_eq_startChunk hload
          cases h
          exact .start _ _ tmsW tdiW hf he hl
        · cases h
      · cases h
    · cases h

theorem move_of_sampleEdge {s t : State} (hf : s.fst = .shRun) (he : s.est = .eSample) (h : sampleEdge s = .ok t) :
    Move s t := by
  obtain ⟨hlast, h⟩ | ⟨hmore, rfl⟩ := sampleEdge_cases h
  · obtain ⟨s1, hstore, h⟩ := chunkEnd_cases h
    obtain ⟨m, rfl, hm⟩ := chunkStore_stored hstore
    obtain ⟨hleft, s2, hload, rfl⟩ | ⟨hleft, rfl⟩ := h
    · obtain ⟨tmsW, tdiW, rfl⟩ := chunkLoad_eq_startChunk hload
      exact .nextChunk m tmsW tdiW hf he hlast hm hleft
    · exact .lastChunk m hf he hlast hm hleft
  · exact .sample hf he hmore

theorem move_of_engineEdge {s t : State} (hf : s.fst = .shRun) (h : engineEdge s = .ok t) : Move s t := by
  obtain ⟨he, h⟩ | ⟨he, h⟩ | ⟨hd, ⟨he, rfl⟩ | ⟨he, rfl⟩ | ⟨he, rfl⟩ | ⟨he, rfl⟩⟩ | ⟨hd, he, rfl⟩ := engineEdge_cases h
  · exact move_of_engineStart hf he h
  · exact move_of_sampleEdge hf he h
  · exact .low hf he hd
  · exact .high hf he hd
  · exact .rest hf he hd
  · exact .report hf he hd
  · exact .count hf he hd

theorem move_of_initEdge {s : State} (hf : s.fst = .init) : Move s (initEdge s) := by
  unfold initEdge
  split
  · exact .setupFail _ hf
  split
  · exact .setupFail _ hf
  · rename_i hd; exact .serve hf hd

theorem move_of_idleEdge {s : State} (hf : s.fst = .idle) : Move s (idleEdge s) := by
  unfold idleEdge
  split
  · exact .halt (.inl hf)
  split
  · exact .begin hf
  · exact .stay (by simp [State.busy, hf, Fst.isBusy]) (by simp [hf])

theorem move_of_leaveDone {s t : State} (hf : s.fst = .done) (h : leaveDone s = .next t) : Move s t := by
  unfold leaveDone at h
  split at h
  · cases h
  split at h <;> cases h
  · exact .halt (.inr hf)
  unfold hostCloses
  split
  · exact .leave [] hf
  · exact .leave s.stream hf

theorem move_of_tokByte {s t : State} {b : Byte} {rest : List Byte} (hs : s.stream = b :: rest) (hf : s.fst = .tok)
    (h : tokByte b (consumeByte b rest s) = .ok t) : Move s t := by
  unfold tokByte at h
  split at h <;> rename_i hc <;> cases h
  · exact .tokFirst b rest hs hf (by simpa using hc)
  · have hc : s.cntR ≠ 0 := by simpa using hc
    obtain ⟨f, hmem, heq⟩ | ⟨-, heq⟩ := dispatchToken_cases
      (setTok (tokenOf (s.tokR.extractLsb' 8 8) b) (consumeByte b rest s))
    · exact heq ▸ .dispatch f b rest hs hf hc hmem
    · exact heq ▸ .badToken b rest hs hf hc

theorem move_of_stReadByte {s t : State} {b : Byte} {rest : List Byte} (hs : s.stream = b :: rest) (hf : s.fst = .stRead)
    (h : stReadByte b (consumeByte b rest s) = .ok t) : Move s t := by
  unfold stReadByte at h
  rw [consumeByte_cntR] at h
  split at h
  · cases h; exact .skip b rest hs (.inr (.inl ⟨hf, by omega⟩))
  split at h <;> cases h
  · exact .echoByte b rest hs hf (by omega)
  · exact .echoLast b rest hs hf (by omega)

theorem move_of_shLenByte {s t : State} {b : Byte} {rest : List Byte} (hs : s.stream = b :: rest) (hf : s.fst = .shLen)
    (h : shLenByte b (consumeByte b rest s) = .ok t) : Move s t := by
  unfold shLenByte at h
  rw [consumeByte_cntR] at h
  split at h <;> cases h
  · exact .lenByte b rest hs hf (by omega)
  · exact .lenLast b rest hs hf (by omega)

theorem move_of_shCheckEdge {s : State} (hf : s.fst = .shCheck) : Move s (shCheckEdge s) := by
  unfold shCheckEdge
  split
  · rename_i hfit; exact .oversize hf hfit
  rename_i hfit
  split
  · rename_i hn; exact .noBody hf hn
  · rename_i hn; exact .body hf (by simpa [fitsCapacity] using hfit) hn

theorem move_of_shBodyByte {s t : State} {b : Byte} {rest : List Byte} (hs : s.stream = b :: rest) (hf : s.fst = .shBody)
    (h : shBodyByte b (consumeByte b rest s) = .ok t) : Move s t := by
  unfold shBodyByte at h
  split at h
  · rename_i s1 hw
    obtain ⟨ha, ⟨-, rfl⟩ | ⟨⟨⟩, -⟩⟩ := writeByte_cases hw
    split at h <;> rename_i hc <;> cases h
    · exact .bodyLast b rest hs hf ha (by simpa using hc)
    · exact .bodyByte b rest hs hf ha (by simpa using hc)
  · cases h

/-- Every edge is a reset or one of the moves. -/
theorem edge_cases {s t : State} (h : edge s = .next t) :
    (s.levels.rst = true ∧ t = resetEdge s) ∨ (s.levels.rst = false ∧ Move s t) := by
  unfold edge at h
  split at h
  · rename_i hr; cases h; exact .inl ⟨hr, rfl⟩
  rename_i hr
  have hr : s.levels.rst = false := by simpa using hr
  refine .inr ⟨hr, ?_⟩
  cases hf : s.fst <;> simp only [hf, Result.ofExcept_eq_next, Host.Outcome.next.injEq] at h
  case init => exact h ▸ move_of_initEdge hf
  case idle => exact h ▸ move_of_idleEdge hf
  case tok => exact move_of_readEdge hr (by simp [hf, Fst.isRead]) h fun b rest hs h => move_of_tokByte hs hf h
  case giSkip =>
    refine move_of_readEdge hr (by simp [hf, Fst.isRead]) h fun b rest hs h => ?_
    unfold giSkipByte at h
    split at h <;> rename_i hc <;> cases h
    · exact .giSkipLast b rest hs hf (by simpa using hc)
    · exact .skip b rest hs (.inl ⟨hf, by simpa using hc⟩)
  case giReply => exact move_of_replyEdge hr (by simp [hf, Fst.isReply]) (by simp [State.replyTotal, hf]) h
  case stRead => exact move_of_readEdge hr (by simp [hf, Fst.isRead]) h fun b rest hs h => move_of_stReadByte hs hf h
  case stReply => exact move_of_replyEdge hr (by simp [hf, Fst.isReply]) (by simp [State.replyTotal, hf]) h
  case shSkip =>
    refine move_of_readEdge hr (by simp [hf, Fst.isRead]) h fun b rest hs h => ?_
    unfold shSkipByte at h
    split at h <;> rename_i hc <;> cases h
    · exact .shSkipLast b rest hs hf (by simpa using hc)
    · exact .skip b rest hs (.inr (.inr ⟨hf, by simpa using hc⟩))
  case shLen => exact move_of_readEdge hr (by simp [hf, Fst.isRead]) h fun b rest hs h => move_of_shLenByte hs hf h
  case shCheck => exact h ▸ move_of_shCheckEdge hf
  case shBody => exact move_of_readEdge hr (by simp [hf, Fst.isRead]) h fun b rest hs h => move_of_shBodyByte hs hf h
  case shRun => exact move_of_engineEdge hf h
  case shReply => exact move_of_replyEdge hr (by simp [hf, Fst.isReply]) (by simp [State.replyTotal, hf]) h
  case done => exact move_of_leaveDone hf h
  case halt => exact h ▸ .stay (by simp [State.busy, hf, Fst.isBusy]) (by simp [hf])
  case fatal => exact h ▸ .stay (by simp [State.busy, hf, Fst.isBusy]) (by simp [hf])

end Sys2Proof.Machine

namespace Sys2Proof.Machine

/-! ### From an edge to a step -/

/-- A step that answers begins with the host's turn. -/
theorem hostTurn_of_step {s t : State} (h : step s = .next t) : ∃ s1, hostTurn s = .next s1 := by
  unfold step at h
  split at h
  · rename_i s1 h1; exact ⟨s1, h1⟩
  · cases h
  · cases h

/-- After the host's turn a step is one edge, or a command cycle on some stream. -/
theorem step_eq_edge_or_commandCycle {s s1 : State} (h : hostTurn s = .next s1) :
    step s = edge s1 ∨ ∃ q, step s = commandCycle (setStream q s1) := by
  simp only [step, h, stepAfterTurn]
  split
  · split
    · rename_i i s2 hd
      obtain ⟨rest, -, rfl⟩ := nextCommand_some hd
      exact .inr ⟨encode i ++ rest, exec_eq_commandCycle _ _⟩
    · exact .inr ⟨s1.stream, rfl⟩
  · exact .inl rfl

theorem commandCycle_cases {s t : State} (h : commandCycle s = .next t) :
    ∃ s1, edge s = .next s1 ∧ runCommand (s.script.length + cycleEdges s) s1 = .next t := by
  unfold commandCycle at h
  split at h
  · rename_i s1 h1; exact ⟨s1, h1, h⟩
  · cases h
  · cases h

/-- A property that the clock keeps and that the first edge of a command cycle establishes holds after it. -/
theorem commandCycle_induction {P : State → Prop} (hk : ∀ s t, P s → tick s = .next t → P t) {s t : State}
    (hs : ∀ s1, edge s = .next s1 → P s1) (h : commandCycle s = .next t) : P t := by
  obtain ⟨s1, h1, hr⟩ := commandCycle_cases h
  exact runCommand_induction hk _ s1 t (hs s1 h1) hr

/-- No edge changes the host's levels or its script. -/
theorem edge_keeps_host {s t : State} (h : edge s = .next t) : t.levels = s.levels ∧ t.script = s.script := by
  obtain ⟨-, rfl⟩ | ⟨-, h⟩ := edge_cases h
  · exact ⟨rfl, rfl⟩
  · cases h <;> simp

/-! ### The delay coefficient and the parameters (R37, R38) -/

theorem Move.keeps_params {s t : State} (h : Move s t) : t.params = s.params := by cases h <;> simp

theorem Move.keeps_delayR {s t : State} (h : Move s t) : t.delayR = s.delayR := by cases h <;> simp

theorem edge_params_delayR {s t : State} (h : edge s = .next t) :
    t.params = s.params ∧ t.delayR = if s.levels.rst = true then s.levels.cfgDelay else s.delayR := by
  obtain ⟨hr, rfl⟩ | ⟨hr, h⟩ := edge_cases h
  · rw [if_pos hr]; exact ⟨rfl, rfl⟩
  · rw [if_neg (by simp [hr])]; exact ⟨h.keeps_params, h.keeps_delayR⟩

/-- `u` comes after some turns of the script of `s`; if none of them is a reset, nor the levels held where none is taken, then
no reset holds at `u` and `DELAY_R` is that of `s`. -/
structure DelayKept (s u : State) : Prop where
  script : ∃ k ≤ s.script.length, u.script = s.script.drop k
  params : u.params = s.params
  delay : (s.script = [] → s.levels.rst = false) → ((turnsTaken s u).all fun h => !h.levels.rst) = true →
    u.levels.rst = false ∧ u.delayR = s.delayR

theorem turnsTaken_drop {s u : State} {k : Nat} (hk : k ≤ s.script.length) (hu : u.script = s.script.drop k) :
    turnsTaken s u = s.script.take k := by
  rw [turnsTaken, hu, List.length_drop, Nat.sub_sub_self hk]

/-- The host's first turn: the next turn of the script, or the levels held. -/
theorem DelayKept.start {s u : State} (h : hostTurn s = .next u) : DelayKept s u := by
  obtain ⟨hs, rfl⟩ | ⟨turn, rest, hs, rfl, -⟩ := hostTurn_cases h
  · exact ⟨⟨0, Nat.zero_le _, rfl⟩, rfl, fun hr _ => ⟨hr hs, rfl⟩⟩
  · have hdrop : (takeTurn turn rest s).script = s.script.drop 1 := by simp [hs]
    have hlen : 1 ≤ s.script.length := by simp [hs]
    refine ⟨⟨1, hlen, hdrop⟩, rfl, fun _ hall => ?_⟩
    rw [turnsTaken_drop hlen hdrop] at hall
    exact ⟨by simpa [hs] using hall, rfl⟩

theorem DelayKept.edge {s u v : State} (hu : DelayKept s u) (h : edge u = .next v) : DelayKept s v := by
  obtain ⟨hlevels, hscript⟩ := edge_keeps_host h
  obtain ⟨hparams, hdelay⟩ := edge_params_delayR h
  refine ⟨hscript ▸ hu.script, hparams.trans hu.params, fun hnil hall => ?_⟩
  obtain ⟨hr, hd⟩ := hu.delay hnil (by rwa [turnsTaken, hscript] at hall)
  exact ⟨hlevels ▸ hr, by rw [hdelay, hr]; exact hd⟩

/-- A later turn of the host adds one turn to those taken. -/
theorem DelayKept.hostTurn {s u v : State} (hu : DelayKept s u) (h : hostTurn u = .next v) : DelayKept s v := by
  obtain ⟨-, rfl⟩ | ⟨turn, rest, hs, rfl, -⟩ := hostTurn_cases h
  · exact hu
  obtain ⟨⟨k, hk, hdrop⟩, hparams, hdelay⟩ := hu
  have hcons : s.script.drop k = turn :: rest := hdrop ▸ hs
  have hlt : k < s.script.length := by
    by_contra hge; simp [List.drop_eq_nil_of_le (Nat.not_lt.1 hge)] at hcons
  rw [List.drop_eq_getElem_cons hlt, List.cons.injEq] at hcons
  obtain ⟨hturn, hrest⟩ := hcons
  refine ⟨⟨k + 1, hlt, hrest.symm⟩, hparams, fun hnil hall => ?_⟩
  rw [turnsTaken_drop hlt hrest.symm, List.take_succ_eq_append_getElem hlt, List.all_append, Bool.and_eq_true] at hall
  rw [turnsTaken_drop hk hdrop] at hdelay
  exact ⟨by simpa [hturn] using hall.2, (hdelay hnil hall.1).2⟩

theorem DelayKept.tick {s u v : State} (hu : DelayKept s u) (h : tick u = .next v) : DelayKept s v := by
  obtain ⟨w, hw, hv⟩ := tick_cases h
  exact (hu.hostTurn hw).edge hv

theorem DelayKept.setStream {s u : State} (q : List Byte) (hu : DelayKept s u) : DelayKept s (setStream q u) :=
  ⟨hu.script, hu.params, hu.delay⟩

/-- Settles O54: an edge loads `DELAY_R` only with `rst = 1`; a step's edges take their levels from the turns it takes, or from
the levels held when the script is empty. -/
theorem delayAndParametersFixed : Obligations.DelayAndParametersFixed := by
  refine ⟨fun s t h => edge_params_delayR h, fun s t h => ?_⟩
  have hkept : DelayKept s t := by
    obtain ⟨s1, h1⟩ := hostTurn_of_step h
    have hs1 := DelayKept.start h1
    obtain hstep | ⟨q, hstep⟩ := step_eq_edge_or_commandCycle h1 <;> rw [hstep] at h
    · exact hs1.edge h
    · exact commandCycle_induction (fun _ _ hu hv => hu.tick hv) (fun _ hv => (hs1.setStream q).edge hv) h
  exact ⟨hkept.params, fun hnil hall => (hkept.delay hnil hall).2⟩

/-! ### The lines (R41) -/

/-- A move either makes one pin write, its only event, or leaves the lines and writes nothing. -/
theorem Move.lines_cases {s t : State} (h : Move s t) :
    (∃ tck tms tdi, t.lines = (tck, tms, tdi) ∧ t.trace = s.trace ++ [.write tck tms tdi]) ∨
      (t.lines = s.lines ∧ t.trace = s.trace ++ eventsSince s t ∧ ((eventsSince s t).any Event.isWrite) = false) := by
  cases h with
  | startEmpty => exact .inl ⟨_, _, _, rfl, by simp⟩
  | start tms tdi => exact .inl ⟨_, _, _, rfl, by simp⟩
  | low => exact .inl ⟨_, _, _, rfl, by simp⟩
  | high => exact .inl ⟨_, _, _, rfl, by simp⟩
  | rest => exact .inl ⟨_, _, _, rfl, by simp⟩
  | _ => exact .inr (by simp [State.lines, eventsSince, Event.isWrite])

/-- Settles O38: of all moves only the pin writes touch the lines. -/
theorem linesChangeOnlyByPinWrites : Obligations.LinesChangeOnlyByPinWrites := by
  intro s t h
  refine ⟨?_, rfl⟩
  obtain ⟨hr, rfl⟩ | ⟨hr, h⟩ := edge_cases h
  · rw [if_pos hr]; rfl
  · rw [if_neg (by simp [hr])]; exact h.lines_cases.imp_right fun ⟨hl, ht, hw⟩ => ⟨hl, _, ht, hw⟩

/-! ### The buffers' form (R45, R46) -/

theorem Move.keeps_buffersOk {s t : State} (h : Move s t) (hs : s.BuffersOk) : t.BuffersOk := by
  obtain ⟨hswf, hsbelow, hrwf, hrbelow⟩ := hs
  cases h with
  | bodyByte b rest _ _ ha => exact ⟨Memory.wf_write _ _ hswf, Memory.below_write _ ha hsbelow, hrwf, hrbelow⟩
  | bodyLast b rest _ _ ha => exact ⟨Memory.wf_write _ _ hswf, Memory.below_write _ ha hsbelow, hrwf, hrbelow⟩
  | nextChunk m _ _ _ _ _ hm => simp [State.BuffersOk, hswf, hsbelow, hm.wf hrwf, hm.below hrbelow]
  | lastChunk m _ _ _ hm => simp [State.BuffersOk, hswf, hsbelow, hm.wf hrwf, hm.below hrbelow]
  | _ => simp [State.BuffersOk, *]

theorem edge_keeps_buffersOk {s t : State} (hs : s.BuffersOk) (h : edge s = .next t) : t.BuffersOk := by
  obtain ⟨-, rfl⟩ | ⟨-, h⟩ := edge_cases h
  · exact ⟨rfl, rfl, rfl, rfl⟩
  · exact h.keeps_buffersOk hs

/-- The host's turn changes the host's side only. -/
theorem hostTurn_eq {s t : State} (h : hostTurn s = .next t) :
    ∃ l r q, t = { s with levels := l, script := r, stream := q } := by
  obtain ⟨-, rfl⟩ | ⟨turn, rest, -, rfl, -⟩ := hostTurn_cases h
  · exact ⟨_, _, _, rfl⟩
  · exact ⟨_, _, _, rfl⟩

/-- Settles O53: only the body's bytes and the chunks' stores write a buffer, each inside it. -/
theorem buffersKeepTheirForm : Obligations.BuffersKeepTheirForm := by
  intro s t hs h
  refine step_keeps (P := State.BuffersOk) (fun _ _ hs => hs) (fun _ _ hs h => ?_)
    (fun _ _ hs h => edge_keeps_buffersOk hs h) hs h
  obtain ⟨_, _, _, rfl⟩ := hostTurn_eq h
  exact hs

/-! ### The order of the framer's states (R25) -/

theorem isRead_or_isReply_of_waiting {s : State} (h : s.waiting = true) : s.fst.isRead = true ∨ s.fst.isReply = true := by
  simp only [State.waiting, State.txValid, Bool.and_eq_true, Bool.or_eq_true] at h
  tauto

theorem Fst.done_mem_next {f : Fst} (h : f.isRead = true ∨ f.isReply = true) : f ∈ f.next ∧ Fst.done ∈ f.next := by
  cases f <;> simp [Fst.isRead, Fst.isReply, Fst.next] at h ⊢

theorem Move.fst_mem_next {s t : State} (h : Move s t) : t.fst ∈ s.fst.next := by
  cases h with
  | stay hb hf => cases hs : s.fst <;> simp [State.busy, Fst.isBusy, Fst.next, hs] at hb hf ⊢
  | wait hw => exact (Fst.done_mem_next (isRead_or_isReply_of_waiting hw)).1
  | raise x hf => exact (Fst.done_mem_next hf).2
  | replyEnd hf => exact (Fst.done_mem_next (.inr hf)).2
  | emit b hf => exact (Fst.done_mem_next (.inr hf)).1
  | emitLast b hf => exact (Fst.done_mem_next (.inr hf)).2
  | dispatch f b rest _ hf _ ht =>
    obtain rfl | rfl | rfl := fst_of_mem_dispatchTable ht <;> simp [hf, Fst.next]
  | halt hf => obtain hf | hf := hf <;> simp [hf, Fst.next]
  | skip b rest _ hf => obtain ⟨hf, -⟩ | ⟨hf, -⟩ | ⟨hf, -⟩ := hf <;> simp [hf, Fst.next]
  | _ => simp [Fst.next, *]

/-- Settles O14: each move names the framer state it goes to. -/
theorem framerStateOrder : Obligations.FramerStateOrder := by
  intro s t hr h
  obtain ⟨hr', -⟩ | ⟨-, h⟩ := edge_cases h
  · simp [hr] at hr'
  · exact h.fst_mem_next

end Sys2Proof.Machine

namespace Sys2Proof.Machine

/-! ### What a run of a command relies on -/

/-- Where the engine is in its shift: the part of `State.EngineOk` that says which bytes are read and written. -/
def State.ShiftPlace (s : State) : Prop :=
  match s.est with
  | .eIdle => False
  | .eStart => True
  | .eLow | .eHigh | .eSample => s.ChunkOk
  | .eRest | .eFinish => s.bleftR = 0 ∧ s.result.filled s.nBytes

/-- The part of the invariant on which it rests that no edge faults and that a command ends. It does not speak of the lines, of
the buffers' form or of dead counters, so it holds of every block in IDLE. -/
structure State.RunOk (s : State) : Prop where
  field : s.FieldOk
  accepted : s.AcceptedOk
  body : s.BodyOk
  place : s.fst = .shRun → s.ShiftPlace
  reply : s.ReplyOk
  code : s.fst = .done → s.causeR < 10

theorem State.Inv.runOk {s : State} (h : s.Inv) : s.RunOk := by
  obtain ⟨-, hcodes, -, hfield, -, -, haccepted, hbody, hengine, hreply⟩ := h
  refine ⟨hfield, haccepted, hbody, fun hf => ?_, hreply, fun _ => ?_⟩
  · obtain ⟨-, hplace⟩ := hengine hf
    unfold ShiftPlace
    cases he : s.est <;> simp only [he] at hplace ⊢ <;> tauto
  · simp only [State.CodesOk, List.mem_cons, Prod.mk.injEq, List.not_mem_nil, or_false] at hcodes
    obtain ⟨-, h⟩ | ⟨-, h⟩ | ⟨-, h⟩ | ⟨-, h⟩ | ⟨-, h⟩ | ⟨-, h⟩ | ⟨-, h⟩ | ⟨-, h⟩ := hcodes <;> rw [h] <;> decide

/-- In IDLE and the other states outside a command nothing is relied on. -/
theorem State.RunOk.of_not_busy {s : State} (h : s.busy = false) : s.RunOk := by
  cases hf : s.fst <;> simp only [State.busy, hf, Fst.isBusy, Bool.true_eq_false] at h
  all_goals
    exact ⟨by simp [State.FieldOk, hf], by simp [State.AcceptedOk, hf], by simp [State.BodyOk, hf], by simp [hf],
      by simp [State.ReplyOk, hf], by simp [hf]⟩

theorem Move.keeps_field {s t : State} (h : Move s t) (hs : s.FieldOk) : t.FieldOk := by
  cases h with
  | stay => exact hs
  | wait => exact hs
  | dispatch f b rest _ hf _ ht =>
    obtain rfl | rfl | rfl := fst_of_mem_dispatchTable ht <;> simp [State.FieldOk]
  | skip b rest _ hf => obtain ⟨hf, hc⟩ | ⟨hf, hc⟩ | ⟨hf, hc⟩ := hf <;> simp [State.FieldOk, hf] <;> omega
  | body hf _ hn =>
    have : (nbytesOf s.lenR).toNat ≠ 0 := fun h0 => hn (BitVec.eq_of_toNat_eq h0)
    simpa [State.FieldOk, State.nBytes, Nat.pos_iff_ne_zero] using this
  | emit b hf hc => cases hs : s.fst <;> simp_all [State.FieldOk, State.replyTotal, Fst.isReply, infoBytes, Nat.lt_of_succ_lt]
  | echoByte b rest _ hf hc => simp [State.FieldOk, hf]; omega
  | lenByte b rest _ hf hc => simp [State.FieldOk, hf]; omega
  | _ => simp [State.FieldOk, *]

theorem Move.keeps_accepted {s t : State} (h : Move s t) (hs : s.AcceptedOk) : t.AcceptedOk := by
  cases h with
  | dispatch f b rest _ hf _ ht =>
    obtain rfl | rfl | rfl := fst_of_mem_dispatchTable ht <;> simp [State.AcceptedOk]
  | body hf hfit => simpa [State.AcceptedOk, State.nBytes] using hfit
  | noBody hf hn => simp [State.AcceptedOk, State.nBytes, hn]
  | _ => simp_all [State.AcceptedOk]

theorem Memory.filled_stored {a k size : Nat} {v : Word} {m m' : Memory} (hm : m.filled a) (h : Stored a k v size m m') :
    m'.filled (a + k) := by
  intro j hj
  rw [h.read j]
  split
  · rfl
  · exact hm j (by omega)

theorem Move.keeps_body {s t : State} (h : Move s t) (hs : s.BodyOk) : t.BodyOk := by
  cases h with
  | dispatch f b rest _ hf _ ht =>
    obtain rfl | rfl | rfl := fst_of_mem_dispatchTable ht <;> simp [State.BodyOk]
  | noBody hf hn => simp [State.BodyOk, State.nBytes, hn, Memory.filled]
  | bodyByte b rest _ hf _ _ =>
    refine ⟨fun _ => Memory.filled_write _ _ fun j hj hne => hs.1 hf j ?_, by simp [hf]⟩
    simp at hj; omega
  | bodyLast b rest _ hf _ hc =>
    refine ⟨by simp, fun _ => Memory.filled_write _ _ fun j hj hne => hs.1 hf j ?_⟩
    simp at hj; omega
  | stay => exact hs
  | wait => exact hs
  | skip b rest _ hf => obtain ⟨hf, -⟩ | ⟨hf, -⟩ | ⟨hf, -⟩ := hf <;> simp [State.BodyOk, hf]
  | emit b hf => cases h : s.fst <;> simp [h, Fst.isReply, State.BodyOk] at hf ⊢
  | _ => simp_all [State.BodyOk, Memory.filled]

theorem Move.keeps_reply {s t : State} (h : Move s t) (hplace : s.fst = .shRun → s.ShiftPlace) (hs : s.ReplyOk) :
    t.ReplyOk := by
  cases h with
  | dispatch f b rest _ hf _ ht =>
    obtain rfl | rfl | rfl := fst_of_mem_dispatchTable ht <;> simp [State.ReplyOk]
  | report hf he =>
    obtain ⟨-, hfilled⟩ : s.bleftR = 0 ∧ s.result.filled s.nBytes := by simpa only [State.ShiftPlace, he] using hplace hf
    exact fun _ => hfilled
  | stay => exact hs
  | wait => exact hs
  | emit => exact hs
  | skip b rest _ hf => obtain ⟨hf, -⟩ | ⟨hf, -⟩ | ⟨hf, -⟩ := hf <;> simp [State.ReplyOk, hf]
  | _ => simp [State.ReplyOk, *]

theorem Move.keeps_code {s t : State} (h : Move s t) (hs : s.fst = .done → s.causeR < 10) : t.fst = .done → t.causeR < 10 := by
  have hc : ∀ x : Cond, x.cause.code < 10 := by intro x; cases x <;> decide
  cases h with
  | stay => exact hs
  | wait => exact hs
  | raise x => exact fun _ => hc x
  | badToken => exact fun _ => hc .badToken
  | oversize => exact fun _ => hc .oversize
  | replyEnd => exact fun _ => show Cause.none.code < 10 by decide
  | emitLast => exact fun _ => show Cause.none.code < 10 by decide
  | emit => exact hs
  | dispatch f b rest _ hf _ ht =>
    obtain rfl | rfl | rfl := fst_of_mem_dispatchTable ht <;> simp
  | skip b rest _ hf => obtain ⟨hf, -⟩ | ⟨hf, -⟩ | ⟨hf, -⟩ := hf <;> simp [hf]
  | _ => simp [*]

/-! ### The engine's place in the shift -/

theorem shiftPlace_iff_chunkOk {s : State} (he : s.est = .eLow ∨ s.est = .eHigh ∨ s.est = .eSample) :
    s.ShiftPlace ↔ s.ChunkOk := by
  obtain he | he | he := he <;> simp only [State.ShiftPlace, he]

theorem shiftPlace_iff_filled {s : State} (he : s.est = .eRest ∨ s.est = .eFinish) :
    s.ShiftPlace ↔ s.bleftR = 0 ∧ s.result.filled s.nBytes := by
  obtain he | he := he <;> simp only [State.ShiftPlace, he]

theorem State.ChunkOk.of_eq {s t : State} (hs : s.ChunkOk)
    (h : t.lenR = s.lenR ∧ t.bleftR = s.bleftR ∧ t.offR = s.offR ∧ t.nstepR = s.nstepR ∧ t.stepR = s.stepR ∧
      t.result = s.result) : t.ChunkOk := by
  obtain ⟨hlen, hleft, hoff, hn, hstep, hres⟩ := h
  simpa only [State.ChunkOk, hlen, hleft, hoff, hn, hstep, hres] using hs

/-- A chunk's load sets its step counters to the first step. -/
theorem State.ChunkOk.of_startChunk {s : State} (tmsW tdiW : Word) (hpos : 0 < s.bleftR) (hle : s.bleftR ≤ s.lenR.toNat)
    (hwhole : (s.lenR.toNat - s.bleftR) % 32 = 0) (hoff : 8 * s.offR = s.lenR.toNat - s.bleftR)
    (hfilled : s.result.filled s.offR) : (startChunk tmsW tdiW s).ChunkOk := by
  have hn : (startChunk tmsW tdiW s).nstepR.toNat = chunkSteps s.bleftR := toNat_ofNat_chunkSteps _
  exact ⟨hpos, hle, hwhole, hoff, hn, hn ▸ chunkSteps_pos hpos, hfilled⟩

/-- A step counted within `NSTEP_R` does not wrap. -/
theorem toNat_stepR_succ {s : State} (h : s.ChunkOk) : (s.stepR + 1).toNat = s.stepR.toNat + 1 := by
  obtain ⟨-, -, -, -, hn, hlt, -⟩ := h
  have := chunkSteps_le_chunk s.bleftR
  rw [BitVec.toNat_add]
  exact Nat.mod_eq_of_lt (by simp; omega)

theorem chunkOk_sample {s : State} (h : s.ChunkOk) (hmore : ¬ s.nstepR ≤ s.stepR + 1) : (sampleAndShift s).ChunkOk := by
  obtain ⟨hpos, hle, hwhole, hoff, hn, -, hfilled⟩ := h
  refine ⟨hpos, hle, hwhole, hoff, hn, ?_, hfilled⟩
  simpa only [BitVec.not_le, BitVec.lt_def, sampleAndShift_stepR, sampleAndShift_nstepR] using hmore

/-- A chunk that leaves bits over is a full one (R133). -/
theorem State.ChunkOk.full {s : State} (h : s.ChunkOk) (hleft : 0 < s.bleftR - s.nstepR.toNat) : 32 < s.bleftR := by
  obtain ⟨-, -, -, -, hn, -, -⟩ := h
  by_contra hc
  rw [hn, chunkSteps] at hleft
  split at hleft <;> omega

/-- After a chunk that leaves bits over, the next one begins after its bytes. -/
theorem chunkOk_nextChunk {s : State} {m : Memory} (tmsW tdiW : Word) (h : s.ChunkOk)
    (hm : Stored s.offR (chunkBytes s.bleftR) (sampleAndShift s).tdoW s.params.maxNbytes s.result m)
    (hleft : 0 < s.bleftR - s.nstepR.toNat) :
    (startChunk tmsW tdiW (advanceChunk (setResult m (sampleAndShift s)))).ChunkOk := by
  have hfull := h.full hleft
  obtain ⟨hpos, hle, hwhole, hoff, hn, hlt, hfilled⟩ := h
  have hnext := chunk_next hle hwhole hoff hfull
  rw [← hn] at hnext
  exact .of_startChunk _ _ (by simpa using hleft) (by simp; omega) (by simpa using hnext.1) (by simpa using hnext.2)
    (by simpa using Memory.filled_stored hfilled hm)

/-- After the last chunk RESULT holds the whole vector. -/
theorem nBytes_le_of_lastChunk {s : State} (h : s.ChunkOk) (hn : s.nbytesR = nbytesOf s.lenR)
    (hleft : s.bleftR - s.nstepR.toNat = 0) : s.nBytes ≤ s.offR + chunkBytes s.bleftR := by
  obtain ⟨hpos, hle, -, hoff, hsteps, -, -⟩ := h
  rw [State.nBytes, hn, toNat_nbytesOf, ceilBytes, chunkBytes]
  rw [hsteps, chunkSteps] at hleft
  split at hleft <;> split <;> omega

theorem Move.keeps_place {s t : State} (h : Move s t) (hacc : s.AcceptedOk) (hs : s.fst = .shRun → s.ShiftPlace) :
    t.fst = .shRun → t.ShiftPlace := by
  cases h with
  | stay => exact hs
  | wait => exact hs
  | emit => exact hs
  | dispatch f b rest _ hf _ ht =>
    obtain rfl | rfl | rfl := fst_of_mem_dispatchTable ht <;> simp
  | skip b rest _ hf => obtain ⟨hf, -⟩ | ⟨hf, -⟩ | ⟨hf, -⟩ := hf <;> simp [hf]
  | noBody => exact fun _ => trivial
  | bodyLast => exact fun _ => trivial
  | startEmpty hf _ hl =>
    have hn : s.nBytes = 0 := by rw [State.nBytes, hacc.1 (by simp [hf]), hl]; rfl
    exact fun _ => (shiftPlace_iff_filled (.inr rfl)).2 ⟨by simp [hl], fun j hj => absurd hj (by simp [hn])⟩
  | start tms tdi tmsW tdiW _ _ hl =>
    have hpos : 0 < s.lenR.toNat := Nat.pos_of_ne_zero fun h => hl (BitVec.eq_of_toNat_eq h)
    refine fun _ => (shiftPlace_iff_chunkOk (.inl rfl)).2 (State.ChunkOk.of_eq (.of_startChunk tmsW tdiW
      (s := startDelay (pinWrite false tms tdi (beginShift s))) ?_ ?_ ?_ ?_ ?_) (by simp)) <;> simp [hpos, Memory.filled]
  | low hf he =>
    have hchunk := (shiftPlace_iff_chunkOk (.inl he)).1 (hs hf)
    exact fun _ => (shiftPlace_iff_chunkOk (.inr (.inl rfl))).2 (hchunk.of_eq (by simp))
  | high hf he =>
    have hchunk := (shiftPlace_iff_chunkOk (.inr (.inl he))).1 (hs hf)
    exact fun _ => (shiftPlace_iff_chunkOk (.inr (.inr rfl))).2 (hchunk.of_eq (by simp))
  | rest hf he =>
    have hend := (shiftPlace_iff_filled (.inl he)).1 (hs hf)
    exact fun _ => (shiftPlace_iff_filled (.inr rfl)).2 (by simpa using hend)
  | count => exact hs
  | sample hf he hmore =>
    have hchunk := (shiftPlace_iff_chunkOk (.inr (.inr he))).1 (hs hf)
    exact fun _ => (shiftPlace_iff_chunkOk (.inl rfl)).2 ((chunkOk_sample hchunk hmore).of_eq (by simp))
  | nextChunk m tmsW tdiW hf he _ hm hleft =>
    have hchunk := (shiftPlace_iff_chunkOk (.inr (.inr he))).1 (hs hf)
    exact fun _ => (shiftPlace_iff_chunkOk (.inl rfl)).2 ((chunkOk_nextChunk tmsW tdiW hchunk hm hleft).of_eq (by simp))
  | lastChunk m hf he _ hm hleft =>
    have hchunk := (shiftPlace_iff_chunkOk (.inr (.inr he))).1 (hs hf)
    have hn := nBytes_le_of_lastChunk hchunk (hacc.1 (by simp [hf])) hleft
    obtain ⟨-, -, -, -, -, -, hfilled⟩ := hchunk
    have hall : m.filled s.nBytes := fun j hj => Memory.filled_stored hfilled hm j (lt_of_lt_of_le hj hn)
    exact fun _ => (shiftPlace_iff_filled (.inl rfl)).2 ⟨by simpa using hleft, by simpa using hall⟩
  | _ => simp [*]

theorem Move.keeps_runOk {s t : State} (h : Move s t) (hs : s.RunOk) : t.RunOk :=
  ⟨h.keeps_field hs.field, h.keeps_accepted hs.accepted, h.keeps_body hs.body, h.keeps_place hs.accepted hs.place,
    h.keeps_reply hs.place hs.reply, h.keeps_code hs.code⟩

theorem edge_keeps_runOk {s t : State} (hs : s.RunOk) (h : edge s = .next t) : t.RunOk := by
  obtain ⟨-, rfl⟩ | ⟨-, h⟩ := edge_cases h
  · exact .of_not_busy rfl
  · exact h.keeps_runOk hs

theorem hostTurn_keeps_runOk {s t : State} (hs : s.RunOk) (h : hostTurn s = .next t) : t.RunOk := by
  obtain ⟨_, _, _, rfl⟩ := hostTurn_eq h
  exact ⟨hs.field, hs.accepted, hs.body, hs.place, hs.reply, hs.code⟩

end Sys2Proof.Machine

namespace Sys2Proof.Machine

/-! ### Every edge of such a run answers -/

theorem memRead_filled {buf : Buf} {s : State} {a k n : Nat} (ha : a + k ≤ n) (hn : n ≤ s.bufSize buf)
    (hf : (s.buf buf).filled n) : ∃ w, memRead buf a k s = .ok w := by
  obtain ⟨w, hw, -⟩ := memRead_ok (buf := buf) (s := s) (k := k) (a := a) (f := fun j => ((s.buf buf).read (a + j)).getD 0)
    fun j hj => by
      obtain ⟨b, hb, hr⟩ := readByte_filled (a := a + j) (by omega) hn hf
      rw [hr, hb, Option.getD_some]
  exact ⟨w, hw⟩

/-- A chunk whose bytes lie in the body is loaded (R134, R135). -/
theorem chunkLoad_filled {s : State} (hoff : s.offR + chunkBytes s.bleftR ≤ s.nBytes) (hfit : 2 * s.nBytes ≤ s.params.capacity)
    (hf : s.scratch.filled (2 * s.nBytes)) : ∃ tmsW tdiW, chunkLoad s = .ok (startChunk tmsW tdiW s) := by
  obtain ⟨tmsW, htms⟩ := memRead_filled (buf := .scratch) (s := s) (a := s.offR) (k := chunkBytes s.bleftR) (by omega) hfit hf
  obtain ⟨tdiW, htdi⟩ := memRead_filled (buf := .scratch) (s := s) (a := s.nBytes + s.offR) (k := chunkBytes s.bleftR)
    (by omega) hfit hf
  exact ⟨tmsW, tdiW, by simp only [chunkLoad, htms, htdi]⟩

/-- A chunk of the vector lies within its bytes. -/
theorem State.ChunkOk.fits {s : State} (h : s.ChunkOk) (hn : s.nbytesR = nbytesOf s.lenR) :
    s.offR + chunkBytes s.bleftR ≤ s.nBytes := by
  obtain ⟨-, hle, hwhole, hoff, -⟩ := h
  rw [State.nBytes, hn, toNat_nbytesOf]
  exact chunk_fits hle hwhole hoff

/-- The next chunk's bytes lie in the vector (R133, R152). -/
theorem State.ChunkOk.next_fits {s : State} (h : s.ChunkOk) (hn : s.nbytesR = nbytesOf s.lenR)
    (hleft : 0 < s.bleftR - s.nstepR.toNat) :
    s.offR + chunkBytes s.bleftR + chunkBytes (s.bleftR - s.nstepR.toNat) ≤ s.nBytes := by
  have hfull := h.full hleft
  obtain ⟨-, hle, hwhole, hoff, hsteps, -⟩ := h
  obtain ⟨hwhole', hoff'⟩ := chunk_next hle hwhole hoff hfull
  rw [hsteps, State.nBytes, hn, toNat_nbytesOf, ceilBytes]
  exact chunk_fits ((Nat.sub_le _ _).trans hle) hwhole' hoff'

theorem engineStart_answers {s : State} (hn : s.nbytesR = nbytesOf s.lenR) (hfit : 2 * s.nBytes ≤ s.params.capacity)
    (hf : s.scratch.filled (2 * s.nBytes)) : ∃ t, engineStart s = .ok t := by
  by_cases hl : s.lenR = 0
  · exact ⟨_, engineStart_empty hl⟩
  have hlen : 0 < s.lenR.toNat := Nat.pos_of_ne_zero fun h => hl (BitVec.eq_of_toNat_eq h)
  have hnb : s.nBytes = (s.lenR.toNat + 7) / 8 := by rw [State.nBytes, hn, toNat_nbytesOf, ceilBytes]
  obtain ⟨tms, -, htms⟩ := readByte_filled (buf := .scratch) (s := s) (a := 0) (by omega) hfit hf
  obtain ⟨tdi, -, htdi⟩ := readByte_filled (buf := .scratch) (s := s) (a := s.nBytes) (by omega) hfit hf
  obtain ⟨tmsW, tdiW, hload⟩ := chunkLoad_filled
    (s := startDelay (pinWrite false (tms.getLsbD 0) (tdi.getLsbD 0) (beginShift s)))
    (by simp only [startDelay_offR, startDelay_bleftR, startDelay_nBytes, pinWrite_offR, pinWrite_bleftR, pinWrite_nBytes,
          beginShift_offR, beginShift_bleftR, beginShift_nBytes, hnb]
        exact chunk_fits le_rfl (by simp) (by simp))
    (by simpa using hfit) (by simpa using hf)
  exact ⟨_, by simp only [engineStart, hl, htms, htdi, hload, if_false]; rfl⟩

theorem sampleEdge_answers {s : State} (hchunk : s.ChunkOk) (hn : s.nbytesR = nbytesOf s.lenR)
    (hfit : 2 * s.nBytes ≤ s.params.capacity) (hf : s.scratch.filled (2 * s.nBytes)) : ∃ t, sampleEdge s = .ok t := by
  unfold sampleEdge
  split
  · have hin : s.offR + chunkBytes s.bleftR ≤ s.params.maxNbytes :=
      (hchunk.fits hn).trans (by unfold Params.maxNbytes; omega)
    obtain ⟨m, hw, -⟩ := memWrite_result (s := sampleAndShift s) (v := (sampleAndShift s).tdoW) (by simpa using hin)
    have hstore : chunkStore (sampleAndShift s) = .ok (advanceChunk (setResult m (sampleAndShift s))) := by
      simp only [chunkStore, sampleAndShift_offR, sampleAndShift_bleftR, hw]
    simp only [chunkEnd, hstore]
    split
    · rename_i hleft
      have hnext := hchunk.next_fits hn (by simpa using hleft)
      obtain ⟨tmsW, tdiW, hload⟩ := chunkLoad_filled (s := advanceChunk (setResult m (sampleAndShift s)))
        (by simpa using hnext) (by simpa using hfit) (by simpa using hf)
      exact ⟨_, by rw [hload]⟩
    · exact ⟨_, rfl⟩
  · exact ⟨_, rfl⟩

theorem engineEdge_answers {s : State} (hs : s.RunOk) (hf : s.fst = .shRun) : ∃ t, engineEdge s = .ok t := by
  have hn := hs.accepted.1 (by simp [hf])
  have hfit := hs.accepted.2 (by simp [hf])
  have hfilled := hs.body.2 hf
  unfold engineEdge
  split
  · exact engineStart_answers hn hfit hfilled
  · exact engineStart_answers hn hfit hfilled
  · unfold afterDelay; split <;> exact ⟨_, rfl⟩
  · unfold afterDelay; split <;> exact ⟨_, rfl⟩
  · rename_i he
    exact sampleEdge_answers ((shiftPlace_iff_chunkOk (.inr (.inr he))).1 (hs.place hf)) hn hfit hfilled
  · unfold afterDelay; split <;> exact ⟨_, rfl⟩
  · unfold afterDelay; split <;> exact ⟨_, rfl⟩

theorem readEdge_answers {f : Byte → State → Except Fault State} {s : State}
    (hbyte : ∀ b rest, ∃ t, f b (consumeByte b rest s) = .ok t) : ∃ t, readEdge f s = .ok t := by
  cases h : readEdge f s with
  | ok t => exact ⟨t, rfl⟩
  | error e =>
    obtain ⟨b, rest, -, he⟩ := readEdge_error h
    obtain ⟨t, ht⟩ := hbyte b rest
    simp [he] at ht

theorem replyEdge_answers {total : Nat} {f : State → Except Fault Byte} {s : State}
    (hbyte : s.cntR < total → ∃ b, f s = .ok b) : ∃ t, replyEdge total f s = .ok t := by
  cases h : replyEdge total f s with
  | ok t => exact ⟨t, rfl⟩
  | error e =>
    obtain ⟨hc, he⟩ := replyEdge_error h
    obtain ⟨b, hb⟩ := hbyte hc
    simp [he] at hb

theorem shBodyByte_answers {s : State} (b : Byte) (rest : List Byte) (hc : s.cntR < s.params.capacity) :
    ∃ t, shBodyByte b (consumeByte b rest s) = .ok t := by
  have hw := writeByte_scratch (a := s.cntR) (b := b) (s := consumeByte b rest s) hc
  simp only [shBodyByte, consumeByte_cntR, Nat.add_sub_cancel, hw]
  split <;> exact ⟨_, rfl⟩

theorem leaveDone_answers {s : State} (hc : s.causeR < 10) : ∃ t, leaveDone s = .next t := by
  unfold leaveDone
  rw [if_neg (by simpa using hc)]
  split <;> exact ⟨_, rfl⟩

/-- No edge of such a run faults or is refused. -/
theorem edge_answers {s : State} (hs : s.RunOk) : ∃ t, edge s = .next t := by
  unfold edge
  split
  · exact ⟨_, rfl⟩
  cases hf : s.fst <;> simp only [Result.ofExcept_eq_next]
  case init => exact ⟨_, rfl⟩
  case idle => exact ⟨_, rfl⟩
  case tok => exact readEdge_answers fun b rest => by unfold tokByte; split <;> exact ⟨_, rfl⟩
  case giSkip => exact readEdge_answers fun b rest => by unfold giSkipByte; split <;> exact ⟨_, rfl⟩
  case giReply => exact replyEdge_answers fun _ => ⟨_, rfl⟩
  case stRead =>
    refine readEdge_answers fun b rest => ?_
    unfold stReadByte
    split
    · exact ⟨_, rfl⟩
    · split <;> exact ⟨_, rfl⟩
  case stReply => exact replyEdge_answers fun _ => ⟨_, rfl⟩
  case shSkip => exact readEdge_answers fun b rest => by unfold shSkipByte; split <;> exact ⟨_, rfl⟩
  case shLen => exact readEdge_answers fun b rest => by unfold shLenByte; split <;> exact ⟨_, rfl⟩
  case shCheck => exact ⟨_, rfl⟩
  case shBody =>
    have hc : s.cntR < 2 * s.nBytes := by simpa only [State.FieldOk, hf] using hs.field
    exact readEdge_answers fun b rest => shBodyByte_answers b rest (hc.trans_le (hs.accepted.2 (by simp [hf])))
  case shRun => exact engineEdge_answers hs hf
  case shReply =>
    refine replyEdge_answers fun hc => ?_
    have hfit := hs.accepted.2 (by simp [hf])
    obtain ⟨b, -, hb⟩ := readByte_filled (buf := .result) hc (by show s.nBytes ≤ s.params.capacity / 2; omega) (hs.reply hf)
    exact ⟨b, hb⟩
  case done => exact leaveDone_answers (hs.code hf)
  case halt => exact ⟨_, rfl⟩
  case fatal => exact ⟨_, rfl⟩

theorem State.RunOk.setStream {s : State} (q : List Byte) (hs : s.RunOk) : (Machine.setStream q s).RunOk :=
  ⟨hs.field, hs.accepted, hs.body, hs.place, hs.reply, hs.code⟩

theorem tick_keeps_runOk {s t : State} (hs : s.RunOk) (h : tick s = .next t) : t.RunOk := by
  obtain ⟨s1, h1, h2⟩ := tick_cases h
  exact edge_keeps_runOk (hostTurn_keeps_runOk hs h1) h2

theorem edge_ne_fault {s : State} (f : Fault) (hs : s.RunOk) : edge s ≠ .fault f := by
  obtain ⟨t, ht⟩ := edge_answers hs
  simp [ht]

theorem tick_ne_fault {s : State} (f : Fault) (hs : s.RunOk) : tick s ≠ .fault f := by
  unfold tick
  split
  · rename_i s1 h1; exact edge_ne_fault f (hostTurn_keeps_runOk hs h1)
  · rename_i e he; exact absurd he (hostTurn_ne_fault s e)
  · simp

theorem commandCycle_ne_fault {s : State} (f : Fault) (hs : s.RunOk) : commandCycle s ≠ .fault f := by
  obtain ⟨s1, h1⟩ := edge_answers hs
  simp only [commandCycle, h1]
  exact runCommand_ne_fault (fun _ _ => tick_keeps_runOk) (fun _ f => tick_ne_fault f) _ s1 f (edge_keeps_runOk hs h1)

/-- Settles O50: the invariant gives what a run relies on, every edge keeps it, and with it every edge answers. -/
theorem stepNeverFaults : Obligations.StepNeverFaults := by
  intro s f hs h
  cases h1 : hostTurn s with
  | next s1 =>
    have hs1 := hostTurn_keeps_runOk hs.runOk h1
    obtain hstep | ⟨q, hstep⟩ := step_eq_edge_or_commandCycle h1 <;> rw [hstep] at h
    · exact edge_ne_fault f hs1 h
    · exact commandCycle_ne_fault f (hs1.setStream q) h
  | fault e => exact hostTurn_ne_fault s e h1
  | refused r => simp [step, h1] at h

/-! ### The rest of the invariant -/

/-- The part of the invariant on the codes, the delay and the lines. -/
structure State.LineOk (s : State) : Prop where
  codes : s.CodesOk
  delay : s.DelayOk
  rest : s.RestOk
  count : s.fst = .shRun → s.dlyCnt ≤ s.delayR
  lines : s.fst = .shRun →
    (s.est = .eStart ∨ s.est = .eFinish → s.lines = restLines) ∧
      (s.est = .eHigh → s.lines = (false, s.tmsW.getLsbD 0, s.tdiW.getLsbD 0)) ∧
        (s.est = .eSample → s.lines = (true, s.tmsW.getLsbD 0, s.tdiW.getLsbD 0))

theorem inv_iff {s : State} : s.Inv ↔ s.BuffersOk ∧ s.CountInv ∧ s.RunOk ∧ s.LineOk := by
  constructor
  · intro h
    have hcount := h.countInv
    have hrun := h.runOk
    obtain ⟨hbuf, hcodes, -, -, hdelay, hrest, -, -, hengine, -⟩ := h
    refine ⟨hbuf, hcount, hrun, hcodes, hdelay, hrest, fun hf => (hengine hf).1, fun hf => ?_⟩
    obtain ⟨-, hplace⟩ := hengine hf
    cases he : s.est <;> simp only [he] at hplace <;> simp [hplace]
  · rintro ⟨hbuf, hcount, hrun, hline⟩
    refine ⟨hbuf, hline.codes, hcount.counters, hcount.field, hline.delay, hline.rest, hcount.accepted, hrun.body,
      fun hf => ⟨hline.count hf, ?_⟩, hrun.reply⟩
    obtain ⟨hrest, hhigh, hsample⟩ := hline.lines hf
    have hplace := hrun.place hf
    unfold State.ShiftPlace at hplace
    cases he : s.est <;> simp only [he] at hplace
    case eStart => exact hrest (.inl he)
    case eLow => exact hplace
    case eHigh => exact ⟨hplace, hhigh he⟩
    case eSample => exact ⟨hplace, hsample he⟩
    case eRest => exact hplace
    case eFinish => exact ⟨hplace.1, hplace.2, hrest (.inr he)⟩

theorem Move.keeps_codes {s t : State} (h : Move s t) (hs : s.CodesOk) : t.CodesOk := by
  have hcond : ∀ x : Cond, (x.outcome.code, x.cause.code) ∈
      ([(0, 0), (1, 1), (2, 2), (2, 3), (2, 4), (2, 5), (2, 6), (3, 7)] : List (BitVec 2 × BitVec 4)) := by
    intro x; cases x <;> decide
  cases h with
  | raise x => exact hcond x
  | badToken => exact hcond .badToken
  | oversize => exact hcond .oversize
  | replyEnd => exact List.mem_cons_self
  | emitLast => exact List.mem_cons_self
  | _ => simpa [State.CodesOk] using hs

/-- INIT is left for a served state only with a positive delay (R170). -/
theorem Move.delayR_ne_zero_of_init {s t : State} (h : Move s t) (hi : s.fst = .init) (ht : t.fst = .idle) : s.delayR ≠ 0 := by
  cases h with
  | serve _ hd => exact hd
  | wait hw => simp [hi] at ht
  | raise => simp at ht
  | _ => simp_all

theorem Move.keeps_delayOk {s t : State} (h : Move s t) (hs : s.DelayOk) : t.DelayOk := by
  intro hi hfatal
  rw [h.keeps_delayR]
  have hnext := h.fst_mem_next
  by_cases hinit : s.fst = .init
  · simp only [hinit, Fst.next, List.mem_cons, hfatal, List.not_mem_nil, or_false] at hnext
    exact h.delayR_ne_zero_of_init hinit hnext
  · refine hs hinit fun hf => hfatal ?_
    simpa only [hf, Fst.next, List.mem_singleton] using hnext

/-- Outside SH_RUN no move but a reset touches the lines or the engine's pacing. -/
theorem Move.engine_frame {s t : State} (h : Move s t) (hs : s.fst ≠ .shRun) :
    t.lines = s.lines ∧ t.dlyCnt = s.dlyCnt ∧ (t.fst ≠ .shRun → t.est = s.est) ∧ (t.fst = .shRun → t.est = .eStart) := by
  cases h with
  | stay => exact ⟨rfl, rfl, fun _ => rfl, fun h => absurd h hs⟩
  | wait => exact ⟨rfl, rfl, fun _ => rfl, fun h => absurd h hs⟩
  | emit => exact ⟨rfl, rfl, fun _ => rfl, fun h => absurd h hs⟩
  | dispatch f b rest _ hf _ ht =>
    obtain rfl | rfl | rfl := fst_of_mem_dispatchTable ht <;> simp [State.lines]
  | skip => exact ⟨rfl, rfl, fun _ => rfl, fun h => absurd h hs⟩
  | _ => simp_all [State.lines]

/-- SH_RUN is left at the completion report only. -/
theorem Move.eq_engineDone {s t : State} (h : Move s t) (hs : s.fst = .shRun) (ht : t.fst ≠ .shRun) :
    s.est = .eFinish ∧ s.dlyCnt = 0 ∧ t = engineDone s := by
  cases h with
  | report _ he hd => exact ⟨he, hd, rfl⟩
  | raise x hf => simp [hs, Fst.isRead, Fst.isReply] at hf
  | replyEnd hf => simp [hs, Fst.isReply] at hf
  | emitLast b hf => simp [hs, Fst.isReply] at hf
  | _ => simp_all

theorem Move.keeps_rest {s t : State} (h : Move s t) (hs : s.LineOk) : t.RestOk := by
  intro ht
  by_cases hf : s.fst = .shRun
  · obtain ⟨he, hd, rfl⟩ := h.eq_engineDone hf ht
    exact ⟨(hs.lines hf).1 (.inr he), rfl, hd⟩
  · obtain ⟨hlines, hd, he, -⟩ := h.engine_frame hf
    rw [hlines, hd, he ht]
    exact hs.rest hf

theorem tickDelay_dlyCnt_le {s : State} (h : s.dlyCnt ≤ s.delayR) : (tickDelay s).dlyCnt ≤ s.delayR := by
  rw [tickDelay_dlyCnt]
  split <;> bv_omega

theorem Move.keeps_count {s t : State} (h : Move s t) (hs : s.LineOk) (ht : t.fst = .shRun) : t.dlyCnt ≤ t.delayR := by
  rw [h.keeps_delayR]
  by_cases hf : s.fst = .shRun
  · have hd := hs.count hf
    cases h with
    | count => exact tickDelay_dlyCnt_le hd
    | sample => exact tickDelay_dlyCnt_le hd
    | nextChunk => simpa using tickDelay_dlyCnt_le hd
    | lastChunk => simpa using tickDelay_dlyCnt_le hd
    | _ => simp_all
  · rw [(h.engine_frame hf).2.1, (hs.rest hf).2.2]
    exact BitVec.le_def.2 (Nat.zero_le _)

theorem Move.keeps_lines {s t : State} (h : Move s t) (hs : s.LineOk) (ht : t.fst = .shRun) :
    (t.est = .eStart ∨ t.est = .eFinish → t.lines = restLines) ∧
      (t.est = .eHigh → t.lines = (false, t.tmsW.getLsbD 0, t.tdiW.getLsbD 0)) ∧
        (t.est = .eSample → t.lines = (true, t.tmsW.getLsbD 0, t.tdiW.getLsbD 0)) := by
  by_cases hf : s.fst = .shRun
  · have hl := hs.lines hf
    cases h with
    | stay => exact hl
    | wait => exact hl
    | count => simpa [State.lines] using hl
    | report => simp at ht
    | _ => simp_all [State.lines, restLines]
  · obtain ⟨hlines, -, -, he⟩ := h.engine_frame hf
    simp [he ht, hlines, (hs.rest hf).1]

theorem edge_keeps_lineOk {s t : State} (hs : s.LineOk) (h : edge s = .next t) : t.LineOk := by
  obtain ⟨-, rfl⟩ | ⟨-, h⟩ := edge_cases h
  · exact ⟨List.mem_cons_self, fun h => absurd rfl h, fun _ => ⟨rfl, rfl, rfl⟩, nofun, nofun⟩
  · exact ⟨h.keeps_codes hs.codes, h.keeps_delayOk hs.delay, h.keeps_rest hs, h.keeps_count hs, h.keeps_lines hs⟩

/-! ### Every step keeps the invariant -/

theorem edge_keeps_inv {s t : State} (hs : s.Inv) (h : edge s = .next t) : t.Inv := by
  obtain ⟨hbuf, hcount, hrun, hline⟩ := inv_iff.1 hs
  exact inv_iff.2 ⟨edge_keeps_buffersOk hbuf h, edge_keeps_countInv hcount h, edge_keeps_runOk hrun h,
    edge_keeps_lineOk hline h⟩

/-- Settles O49: each part of the invariant is kept by every edge, and none speaks of the host's side. -/
theorem stepKeepsInvariant : Obligations.StepKeepsInvariant := by
  intro s t hs h
  refine step_keeps (P := State.Inv) (fun _ _ hs => hs) (fun _ _ hs h => ?_) (fun _ _ hs h => edge_keeps_inv hs h) hs h
  obtain ⟨_, _, _, rfl⟩ := hostTurn_eq h
  exact hs

/-- Settles O51: it is a conjunct of the invariant, which the step keeps. -/
theorem linesAtRestAfterEveryStep : Obligations.LinesAtRestAfterEveryStep := by
  intro s t hs h hf
  obtain ⟨-, -, -, hline⟩ := inv_iff.1 (stepKeepsInvariant s t hs h)
  exact (hline.rest hf).1

/-- Settles O48: nothing has been read, written or counted yet. -/
theorem invariantAtReset : Obligations.InvariantAtReset :=
  inv_iff.2 ⟨by decide, .of_free rfl (by decide), .of_not_busy rfl, by decide, fun h => absurd rfl h, fun _ => ⟨rfl, rfl, rfl⟩,
    nofun, nofun⟩

end Sys2Proof.Machine

namespace Sys2Proof.Machine

/-! ### How many edges a command still takes

A number that every move but a wait lowers: the bytes of the present field still to come, the actions the engine still makes and
the delays after them, and a bound on the states after these. -/

/-- A bound on the edges from one write of the engine to the next (R138); with `DELAY_R = 0` the sample's edge is one more. -/
def State.pace (s : State) : Nat := s.delayR.toNat + 2

/-- The edges of SH_RUN and of the states after it. -/
def State.engineBudget (s : State) : Nat :=
  s.nBytes + 2 +
    match s.est with
    | .eIdle | .eStart => 2 * (s.pace * s.lenR.toNat) + 2 * s.pace
    | .eLow => s.dlyCnt.toNat + 2 * (s.pace * (s.bleftR - s.stepR.toNat)) + s.pace
    | .eHigh => s.dlyCnt.toNat + 2 * (s.pace * (s.bleftR - s.stepR.toNat - 1)) + 2 * s.pace + 1
    | .eSample => s.dlyCnt.toNat + 2 * (s.pace * (s.bleftR - s.stepR.toNat - 1)) + s.pace + 1
    | .eRest => s.dlyCnt.toNat + s.pace
    | .eFinish => s.dlyCnt.toNat + 1

/-- The edges of an accepted shift after its check, whatever its length. -/
def State.shiftBudget (s : State) : Nat := 3 * s.params.capacity + (8 * s.params.capacity + 8) * s.pace

/-- The edges that a command still takes at most if the block waits for nothing. -/
def State.budget (s : State) : Nat :=
  match s.fst with
  | .init | .idle | .halt | .fatal => 0
  | .tok => 2 - s.cntR + 40 + s.shiftBudget
  | .giSkip => 6 - s.cntR + 25
  | .giReply => 20 - s.cntR + 2
  | .stRead => 9 - s.cntR + 10
  | .stReply => 4 - s.cntR + 2
  | .shSkip => 4 - s.cntR + 12 + s.shiftBudget
  | .shLen => 4 - s.cntR + 6 + s.shiftBudget
  | .shCheck => 4 + s.shiftBudget
  | .shBody => 2 * s.nBytes - s.cntR + (s.nBytes + 2) + 2 * (s.pace * s.lenR.toNat) + 2 * s.pace
  | .shRun => s.engineBudget
  | .shReply => s.nBytes - s.cntR + 2
  | .done => 1

theorem budget_pos {s : State} (h : s.busy = true) : 0 < s.budget := by
  cases hf : s.fst <;> simp only [State.busy, hf, Fst.isBusy, Bool.false_eq_true] at h <;>
    simp only [State.budget, State.engineBudget, hf] <;> omega

theorem budget_of_not_busy {s : State} (h : s.busy = false) : s.budget = 0 := by
  cases hf : s.fst <;> simp only [State.busy, hf, Fst.isBusy, Bool.true_eq_false] at h <;> simp only [State.budget, hf]

theorem Move.keeps_pace {s t : State} (h : Move s t) : t.pace = s.pace := by rw [State.pace, State.pace, h.keeps_delayR]

theorem Move.keeps_shiftBudget {s t : State} (h : Move s t) : t.shiftBudget = s.shiftBudget := by
  rw [State.shiftBudget, State.shiftBudget, h.keeps_pace, h.keeps_params]

/-- A shift that passes the check takes no more than the bound. -/
theorem le_shiftBudget {s : State} (hfit : 2 * (nbytesOf s.lenR).toNat ≤ s.params.capacity) :
    3 * (nbytesOf s.lenR).toNat + 2 + 2 * (s.pace * s.lenR.toNat) + 2 * s.pace < 4 + s.shiftBudget := by
  have hlen : s.lenR.toNat ≤ 4 * s.params.capacity := by
    rw [toNat_nbytesOf, ceilBytes] at hfit; omega
  have hmul : s.pace * s.lenR.toNat ≤ s.pace * (4 * s.params.capacity) := Nat.mul_le_mul_left _ hlen
  have hexp : (8 * s.params.capacity + 8) * s.pace = 2 * (s.pace * (4 * s.params.capacity)) + 8 * s.pace := by ring
  rw [State.shiftBudget, hexp]
  omega

/-- One edge of `Delay()` (R138). -/
theorem delay_count_le (d : Word) : (if d = 0 then 0 else d - 1).toNat ≤ d.toNat := by split <;> bv_omega

theorem delay_count_lt {d : Word} (h : d ≠ 0) : (if d = 0 then 0 else d - 1).toNat < d.toNat := by rw [if_neg h]; bv_omega

/-- The steps of a chunk that are left with one step made. -/
theorem mul_steps_left {s : State} (h : s.ChunkOk) :
    s.pace * (s.bleftR - s.stepR.toNat) = s.pace * (s.bleftR - s.stepR.toNat - 1) + s.pace := by
  obtain ⟨-, -, -, -, hn, hlt, -⟩ := h
  have := chunkSteps_le_left s.bleftR
  rw [← Nat.mul_succ, Nat.succ_eq_add_one, Nat.sub_add_cancel (by omega)]

/-- At a chunk's last step the steps made are those of the chunk. -/
theorem nstepR_eq_of_last {s : State} (h : s.ChunkOk) (hlast : s.nstepR ≤ s.stepR + 1) :
    s.nstepR.toNat = s.stepR.toNat + 1 := by
  rw [BitVec.le_def, toNat_stepR_succ h] at hlast
  obtain ⟨-, -, -, -, -, hlt, -⟩ := h
  omega

/-- In SH_RUN every move lowers the bound. -/
theorem Move.engineBudget_lt {s t : State} (h : Move s t) (hf : s.fst = .shRun) (hplace : s.ShiftPlace) :
    t.budget < s.engineBudget := by
  have hpace := h.keeps_pace
  have hdelay : s.pace = s.delayR.toNat + 2 := rfl
  cases h with
  | stay hb => simp [State.busy, hf, Fst.isBusy] at hb
  | wait hw => simp [State.waiting, State.txValid, hf, Fst.isRead, Fst.isReply] at hw
  | raise x hr => simp [hf, Fst.isRead, Fst.isReply] at hr
  | replyEnd hr => simp [hf, Fst.isReply] at hr
  | emit b hr => simp [hf, Fst.isReply] at hr
  | emitLast b hr => simp [hf, Fst.isReply] at hr
  | startEmpty _ he hl =>
    obtain he | he := he <;> simp [State.budget, State.engineBudget, hf, he] <;> omega
  | start tms tdi tmsW tdiW _ he hl =>
    obtain he | he := he <;> simp [State.budget, State.engineBudget, hf, he, hpace] <;> omega
  | low _ he hd =>
    have hmul := mul_steps_left ((shiftPlace_iff_chunkOk (.inl he)).1 hplace)
    simp [State.budget, State.engineBudget, hf, he, hpace, hmul]
    omega
  | high _ he hd =>
    simp [State.budget, State.engineBudget, hf, he, hpace]
    omega
  | rest _ he hd =>
    simp [State.budget, State.engineBudget, hf, he]
    omega
  | report _ he hd => simp [State.budget, State.engineBudget, he]
  | count _ he hd =>
    have hlt := delay_count_lt hd
    obtain he | he | he | he := he <;> simp [State.budget, State.engineBudget, hf, he, hpace] at hlt ⊢ <;> omega
  | sample _ he =>
    have hstep : (s.stepR + 1#6).toNat = s.stepR.toNat + 1 :=
      toNat_stepR_succ ((shiftPlace_iff_chunkOk (.inr (.inr he))).1 hplace)
    have hle := delay_count_le s.dlyCnt
    simp [State.budget, State.engineBudget, hf, he, hpace, -BitVec.toNat_add, hstep, Nat.sub_add_eq] at hle ⊢
    omega
  | nextChunk m tmsW tdiW _ he hlast =>
    have hstep := nstepR_eq_of_last ((shiftPlace_iff_chunkOk (.inr (.inr he))).1 hplace) hlast
    have hle := delay_count_le s.dlyCnt
    simp [State.budget, State.engineBudget, hf, he, hpace, hstep, Nat.sub_add_eq] at hle ⊢
    omega
  | lastChunk m _ he =>
    have hle := delay_count_le s.dlyCnt
    simp [State.budget, State.engineBudget, hf, he, hpace] at hle ⊢
    omega
  | _ => simp_all

theorem one_lt_budget {s : State} (h : s.fst.isRead = true ∨ s.fst.isReply = true) : 1 < s.budget := by
  cases hf : s.fst <;> simp only [hf, Fst.isRead, Fst.isReply, Bool.false_eq_true, or_self] at h <;>
    simp only [State.budget, hf, State.pace] <;> omega

theorem Move.budget_lt {s t : State} (h : Move s t) (hs : s.RunOk) (hb : s.busy = true) :
    t.budget < s.budget ∨ s.waiting = true ∧ t = s := by
  have hpace := h.keeps_pace
  have hshift := h.keeps_shiftBudget
  by_cases hf : s.fst = .shRun
  · exact .inl (by simpa only [State.budget, hf] using h.engineBudget_lt hf (hs.place hf))
  have hfield := hs.field
  cases h with
  | wait hw => exact .inr ⟨hw, rfl⟩
  | stay hn => simp [hb] at hn
  | setupFail c hf => simp [State.busy, Fst.isBusy, hf] at hb
  | serve hf => simp [State.busy, Fst.isBusy, hf] at hb
  | begin hf => simp [State.busy, Fst.isBusy, hf] at hb
  | halt hf => exact .inl (budget_pos hb)
  | leave q hf => exact .inl (budget_pos hb)
  | raise x hf => exact .inl (one_lt_budget hf)
  | badToken b rest _ hf => exact .inl (one_lt_budget (by simp [hf, Fst.isRead]))
  | oversize hf => left; simp [State.budget, hf]; omega
  | replyEnd hf => exact .inl (one_lt_budget (.inr hf))
  | emitLast b hf => exact .inl (one_lt_budget (.inr hf))
  | dispatch f b rest _ hf _ ht =>
    left
    obtain rfl | rfl | rfl := fst_of_mem_dispatchTable ht <;> simp [State.budget, hf, hshift] <;> simp [State.FieldOk, hf] at hfield <;> omega
  | skip b rest _ hf => left; obtain ⟨hf, hc⟩ | ⟨hf, hc⟩ | ⟨hf, hc⟩ := hf <;> simp [State.budget, hf, hshift] <;> omega
  | emit b hf hc => left; cases h : s.fst <;> simp_all [State.budget, Fst.isReply, State.replyTotal, infoBytes] <;> omega
  | tokFirst b rest _ hf hc => left; simp [State.budget, hf, hshift, hc]
  | giSkipLast b rest _ hf hc => left; simp [State.budget, hf]
  | echoByte b rest _ hf hc => left; simp [State.budget, hf]; omega
  | echoLast b rest _ hf hc => left; simp [State.budget, hf]
  | shSkipLast b rest _ hf hc => left; simp [State.budget, hf, hshift]
  | lenByte b rest _ hf hc => left; simp [State.budget, hf, hshift]; omega
  | lenLast b rest _ hf hc => left; simp [State.budget, hf, hshift]
  | noBody hf hn =>
    have hle := le_shiftBudget (s := s) (by simp [hn])
    left
    simp [State.budget, State.engineBudget, State.nBytes, hf, hpace, hn] at hle ⊢
    omega
  | body hf hfit =>
    have hle := le_shiftBudget hfit
    left
    simp [State.budget, State.nBytes, hf, hpace]
    omega
  | bodyByte b rest _ hf => left; simp [State.budget, State.FieldOk, hf, hpace] at hfield ⊢; omega
  | bodyLast b rest _ hf =>
    left
    simp [State.budget, State.engineBudget, State.FieldOk, hf, hpace] at hfield ⊢
    omega
  | _ => exact absurd ‹s.fst = .shRun› hf

/-! ### A command with a dutiful host ends -/

/-- A dutiful host's turn is accepted; it takes one turn of the script if there is one, and touches no register. -/
theorem hostTurn_dutiful {s : State} (h : dutiful s.levels s.script = true) :
    ∃ s1, hostTurn s = .next s1 ∧ dutiful s1.levels s1.script = true ∧
      ((s.script = [] ∧ s1 = s) ∨ s.script.length = s1.script.length + 1) := by
  cases hs : s.script with
  | nil => exact ⟨s, hostTurn_nil hs, h, .inl ⟨rfl, rfl⟩⟩
  | cons turn rest =>
    simp only [hs, dutiful, Bool.and_eq_true, Bool.not_eq_true', Option.isNone_iff_eq_none] at h
    obtain ⟨⟨hclear, hattach⟩, hrest⟩ := h
    exact ⟨takeTurn turn rest s, by simp [hostTurn, hs, hclear, hattach], hrest, .inr rfl⟩

theorem hostTurn_keeps_budget {s t : State} (h : hostTurn s = .next t) : t.budget = s.budget := by
  obtain ⟨_, _, _, rfl⟩ := hostTurn_eq h
  rfl

theorem hostTurn_keeps_busy {s t : State} (h : hostTurn s = .next t) : t.busy = s.busy := by
  obtain ⟨_, _, _, rfl⟩ := hostTurn_eq h
  rfl

/-- A turn of the clock that is no hang brings a command nearer to its end: it takes a turn of the script, or an edge off the
bound. -/
theorem tick_progress {s : State} (hs : s.RunOk) (hd : dutiful s.levels s.script = true) (hb : s.busy = true)
    (hh : s.hung = false) :
    ∃ t, tick s = .next t ∧ t.RunOk ∧ dutiful t.levels t.script = true ∧
      t.script.length + t.budget < s.script.length + s.budget := by
  obtain ⟨s1, h1, hd1, hscript⟩ := hostTurn_dutiful hd
  have hs1 := hostTurn_keeps_runOk hs h1
  obtain ⟨t, ht⟩ := edge_answers hs1
  obtain ⟨hlevels, hrest⟩ := edge_keeps_host ht
  refine ⟨t, by simp only [tick, h1, ht], edge_keeps_runOk hs1 ht, by rw [hlevels, hrest]; exact hd1, ?_⟩
  have hbudget := hostTurn_keeps_budget h1
  have hpos := budget_pos hb
  rw [hrest]
  obtain ⟨-, rfl⟩ | ⟨-, hmove⟩ := edge_cases ht
  · have h0 : (resetEdge s1).budget = 0 := budget_of_not_busy rfl
    obtain ⟨-, rfl⟩ | hlen := hscript <;> omega
  · obtain hlt | ⟨hw, rfl⟩ := hmove.budget_lt hs1 (hostTurn_keeps_busy h1 ▸ hb)
    · obtain ⟨-, rfl⟩ | hlen := hscript <;> omega
    · obtain ⟨hnil, rfl⟩ | hlen := hscript
      · simp [State.hung, hnil, hw] at hh
      · omega

/-- With fuel for the turns of the script and the edges of the bound a run comes to its end or to a hang. -/
theorem runCommand_ends {n : Nat} {s : State} (hs : s.RunOk) (hd : dutiful s.levels s.script = true)
    (hn : s.script.length + s.budget ≤ n) : ∃ t, runCommand n s = .next t ∧ (t.busy = false ∨ t.hung = true) := by
  induction n generalizing s with
  | zero =>
    refine ⟨s, rfl, .inl ?_⟩
    by_contra hb
    have := budget_pos (Bool.eq_true_of_not_eq_false hb)
    omega
  | succ n ih =>
    by_cases hgo : (s.busy && !s.hung) = true
    · simp only [Bool.and_eq_true, Bool.not_eq_true'] at hgo
      obtain ⟨t, ht, hrun, hdut, hlt⟩ := tick_progress hs hd hgo.1 hgo.2
      obtain ⟨u, hu, hend⟩ := ih hrun hdut (by omega)
      exact ⟨u, by simp only [runCommand, hgo, ht, Bool.not_false, Bool.and_self, if_true, hu], hend⟩
    · refine ⟨s, by simp only [runCommand, if_neg hgo], ?_⟩
      cases hb : s.busy <;> simp_all

theorem edge_startsCommand {s : State} (h : s.startsCommand = true) : edge s = .next (enter .tok s) := by
  simp only [State.startsCommand, Bool.and_eq_true, decide_eq_true_eq, Bool.not_eq_true'] at h
  obtain ⟨⟨⟨hf, hr⟩, hsd⟩, hgo⟩ := h
  simp [edge, idleEdge, hf, hr, hsd, hgo]

theorem not_busy_of_startsCommand {s : State} (h : s.startsCommand = true) : s.busy = false := by
  simp only [State.startsCommand, Bool.and_eq_true, decide_eq_true_eq] at h
  simp [State.busy, h.1.1.1, Fst.isBusy]

/-- Whatever a block in IDLE holds, the edge that takes `cmd_go` begins a run. -/
theorem runOk_of_startsCommand {s : State} (i : Instr) (h : s.startsCommand = true) : (enter .tok (offerCommand i s)).RunOk :=
  edge_keeps_runOk (.of_not_busy (not_busy_of_startsCommand (s := offerCommand i s) h))
    (edge_startsCommand (s := offerCommand i s) h)

/-- Settles O55: the fuel of a command cycle is no less than the bound at its first state. -/
theorem dutifulHostCommandEnds : Obligations.DutifulHostCommandEnds := by
  intro s i hgo hd
  have hedge := edge_startsCommand (s := offerCommand i s) hgo
  have hfuel : s.script.length + (enter .tok (offerCommand i s)).budget ≤
      (offerCommand i s).script.length + cycleEdges (offerCommand i s) := by
    simp [State.budget, State.shiftBudget, State.pace, cycleEdges]
    omega
  obtain ⟨t, ht, hend⟩ := runCommand_ends (runOk_of_startsCommand i hgo) hd hfuel
  exact ⟨t, by simp only [exec_eq_commandCycle, commandCycle, hedge, ht], hend⟩

end Sys2Proof.Machine

namespace Sys2Proof.Machine

/-! ### Two runs that differ in dead state only (R48, R51) -/

/-- The low `n` bytes of two words are the same. -/
def sameLowBytes (n : Nat) (w v : Word) : Prop := ∀ i < 8 * n, w.getLsbD i = v.getLsbD i

theorem sameLowBytes_zero (w v : Word) : sameLowBytes 0 w v := fun _ hi => absurd hi (Nat.not_lt_zero _)

theorem eq_of_sameLowBytes {w v : Word} (h : sameLowBytes 4 w v) : w = v := BitVec.eq_of_getLsbD_eq h

/-- Setting the next byte of `w` to that of `v` makes one more byte the same. -/
theorem sameLowBytes_setByte {n : Nat} {w v : Word} (hn : n < 4) (h : sameLowBytes n w v) :
    sameLowBytes (n + 1) (setByte w n (byteOf v n)) v := by
  intro i hi
  rw [getLsbD_setByte _ _ _ _ (by omega)]
  split
  · simp only [byteOf, BitVec.getLsbD_extractLsb', show i - 8 * n < 8 by omega, decide_true, Bool.true_and]
    congr 1; omega
  · exact h i (by omega)

theorem byteOf_setByte (w : Word) {n : Nat} (hn : n < 4) (b : Byte) : byteOf (setByte w n b) n = b := by
  apply BitVec.eq_of_getLsbD_eq
  intro i hi
  rw [byteOf, BitVec.getLsbD_extractLsb', getLsbD_setByte _ _ _ _ (by omega)]
  simp [hi]

theorem sameLowBytes_setByte_both {n : Nat} {w v : Word} (b : Byte) (hn : n < 4) (h : sameLowBytes n w v) :
    sameLowBytes (n + 1) (setByte w n b) (setByte v n b) := by
  have hlow : sameLowBytes n w (setByte v n b) := fun i hi => by
    rw [getLsbD_setByte _ _ _ _ (by omega), if_neg (by omega)]; exact h i hi
  simpa only [byteOf_setByte v hn] using sameLowBytes_setByte hn hlow

/-- Two buffers read the same below `n`. -/
def sameBelow (n : Nat) (m m' : Memory) : Prop := ∀ a < n, m.read a = m'.read a

theorem sameBelow_write {n : Nat} {m m' : Memory} (b : Byte) (h : sameBelow n m m') :
    sameBelow (n + 1) (m.write n b) (m'.write n b) := by
  intro a ha
  rw [Memory.read_write, Memory.read_write]
  split
  · rfl
  · exact h a (by omega)

theorem sameBelow_stored {a k size : Nat} {v : Word} {m m' p p' : Memory} (h : sameBelow a m m')
    (hm : Stored a k v size m p) (hm' : Stored a k v size m' p') : sameBelow (a + k) p p' := by
  intro x hx
  rw [hm.read, hm'.read]
  split
  · rfl
  · exact h x (by omega)

/-- The registers of the present chunk are the same, and so are the bytes of RESULT before it. -/
structure SameChunk (s s' : State) : Prop where
  tmsW : s'.tmsW = s.tmsW
  tdiW : s'.tdiW = s.tdiW
  tdoW : s'.tdoW = s.tdoW
  stepR : s'.stepR = s.stepR
  nstepR : s'.nstepR = s.nstepR
  offR : s'.offR = s.offR
  bleftR : s'.bleftR = s.bleftR
  dlyCnt : s'.dlyCnt = s.dlyCnt
  result : sameBelow s.offR s.result s'.result

/-- What the engine still reads is the same. -/
def sameEngine (s s' : State) : Prop :=
  match s.est with
  | .eIdle | .eStart => True
  | .eLow | .eHigh | .eSample => SameChunk s s'
  | .eRest | .eFinish => s'.dlyCnt = s.dlyCnt ∧ sameBelow s.nBytes s.result s'.result

/-- What the present framer state still reads is the same in `s` and `s'` (R51). -/
def samePhase (s s' : State) : Prop :=
  match s.fst with
  | .init | .idle | .halt | .fatal | .giSkip | .giReply | .shSkip => True
  | .tok => s.cntR ≠ 0 → s'.tokR.extractLsb' 8 8 = s.tokR.extractLsb' 8 8
  | .stRead => sameLowBytes (s.cntR - 5) s.echoR s'.echoR
  | .stReply => s'.echoR = s.echoR
  | .shLen => sameLowBytes s.cntR s.lenR s'.lenR
  | .shCheck => s'.lenR = s.lenR
  | .shBody => s'.lenR = s.lenR ∧ s'.nbytesR = s.nbytesR ∧ sameBelow s.cntR s.scratch s'.scratch
  | .shRun =>
    s'.lenR = s.lenR ∧ s'.nbytesR = s.nbytesR ∧ s'.est = s.est ∧ sameBelow (2 * s.nBytes) s.scratch s'.scratch ∧ sameEngine s s'
  | .shReply => s'.nbytesR = s.nbytesR ∧ sameBelow s.nBytes s.result s'.result
  | .done => s'.outcomeR = s.outcomeR ∧ s'.causeR = s.causeR

/-- Two runs at the same point: the same live state, the same events since the first `n` and `n'` of them, and the same in all
that the rest of the command reads. -/
structure Alike (n n' : Nat) (s s' : State) : Prop where
  live : sameLive s' s
  began : n ≤ s.trace.length
  began' : n' ≤ s'.trace.length
  events : s'.trace.drop n' = s.trace.drop n
  count : s.busy = true → s'.cntR = s.cntR
  phase : samePhase s s'

section
variable {n n' : Nat} {s s' : State}

theorem Alike.live_eqs (h : Alike n n' s s') :
    s'.fst = s.fst ∧ s'.delayR = s.delayR ∧ (s'.tckQ = s.tckQ ∧ s'.tmsQ = s.tmsQ ∧ s'.tdiQ = s.tdiQ) ∧ s'.params = s.params ∧
      s'.levels = s.levels ∧ s'.stream = s.stream ∧ s'.script = s.script ∧ s'.tdoDraws = s.tdoDraws ∧ s'.draws = s.draws := by
  simpa [sameLive, State.lines] using h.live

theorem Alike.fst_eq (h : Alike n n' s s') : s'.fst = s.fst := h.live_eqs.1

/-- The same events recorded on both sides keep the runs alike. -/
theorem Alike.step {t t' : State} (l : List Event) (h : Alike n n' s s') (ht : t.trace = s.trace ++ l)
    (ht' : t'.trace = s'.trace ++ l) (hlive : sameLive t' t) (hcount : t.busy = true → t'.cntR = t.cntR)
    (hphase : samePhase t t') : Alike n n' t t' := by
  refine ⟨hlive, ?_, ?_, ?_, hcount, hphase⟩
  · rw [ht, List.length_append]; exact Nat.le_add_right_of_le h.began
  · rw [ht', List.length_append]; exact Nat.le_add_right_of_le h.began'
  · rw [ht, ht', List.drop_append_of_le_length h.began, List.drop_append_of_le_length h.began', h.events]

theorem Alike.finish (h : Alike n n' s s') (hb : s.busy = true) (o : CmdOutcome) (c : Cause) :
    Alike n n' (finish o c s) (finish o c s') :=
  h.step [.done o c] rfl rfl (by simp [sameLive, State.lines, h.live_eqs]) (fun _ => h.count hb) ⟨rfl, rfl⟩

theorem Alike.emitByte (h : Alike n n' s s') (hf : s.fst.isReply = true) (b : Byte) :
    Alike n n' (emitByte b s) (emitByte b s') := by
  have hb : s.busy = true := by cases hs : s.fst <;> simp [hs, Fst.isReply, State.busy, Fst.isBusy] at hf ⊢
  refine h.step [.emit b] rfl rfl (by simp [sameLive, State.lines, h.live_eqs]) (fun _ => by simp [h.count hb]) ?_
  have hphase := h.phase
  cases hs : s.fst <;> simp [hs, Fst.isReply] at hf <;> simp only [samePhase, hs, emitByte_fst] at hphase ⊢ <;> exact hphase

/-- Whatever the first of two edges answers, the second answers the like. -/
def SimE (n n' : Nat) (r r' : Except Fault State) : Prop := ∀ t, r = .ok t → ∃ t', r' = .ok t' ∧ Alike n n' t t'

theorem SimE.ok {t t' : State} (h : Alike n n' t t') : SimE n n' (.ok t) (.ok t') := by
  rintro _ ⟨⟩; exact ⟨t', rfl, h⟩

theorem SimE.ite {c : Prop} [Decidable c] {r₁ r₁' r₂ r₂' : Except Fault State} (h₁ : c → SimE n n' r₁ r₁')
    (h₂ : ¬ c → SimE n n' r₂ r₂') : SimE n n' (if c then r₁ else r₂) (if c then r₁' else r₂') := by
  split
  · exact h₁ ‹c›
  · exact h₂ ‹¬ c›

theorem rxByte_alike (h : Alike n n' s s') (hb : s.busy = true) :
    (∀ x, rxByte s = .raise x → rxByte s' = .raise x) ∧ (rxByte s = .wait → rxByte s' = .wait) ∧
      ∀ b rest, rxByte s = .byte b (consumeByte b rest s) → rxByte s' = .byte b (consumeByte b rest s') := by
  obtain ⟨hfst, -, -, -, hlevels, hstream, -⟩ := h.live_eqs
  refine ⟨fun x => ?_, ?_, fun b rest => ?_⟩
  · simp only [rxByte, hfst, hlevels, hstream, h.count hb]
    split <;> [exact id; split] <;> [exact id; split] <;> simp
  · simp only [rxByte, hfst, hlevels, hstream, h.count hb]
    split <;> [exact id; split] <;> [exact id; split] <;> simp
  · simp only [rxByte_byte_iff, hlevels, hstream]
    rintro ⟨h1, h2, h3, rest', h4, h5⟩
    have hrest : rest = rest' := by simpa using congrArg State.stream h5
    exact ⟨h1, h2, h3, rest', h4, by rw [hrest]⟩

theorem readEdge_alike {f : Byte → State → Except Fault State} (h : Alike n n' s s') (hb : s.busy = true)
    (hbyte : ∀ b rest, SimE n n' (f b (consumeByte b rest s)) (f b (consumeByte b rest s'))) :
    SimE n n' (readEdge f s) (readEdge f s') := by
  intro t ht
  obtain ⟨hraise, hwait, hrx⟩ := rxByte_alike h hb
  obtain ⟨x, hx, rfl⟩ | ⟨hw, rfl⟩ | ⟨b, rest, hrb, -, ht⟩ := readEdge_cases ht
  · exact ⟨raiseCond x s', by simp only [readEdge, hraise x hx], h.finish hb _ _⟩
  · exact ⟨s', by simp only [readEdge, hwait hw], h⟩
  · obtain ⟨t', ht', hal⟩ := hbyte b rest t ht
    exact ⟨t', by simp only [readEdge, hrx b rest hrb, ht'], hal⟩

theorem replyEdge_alike {total : Nat} {f : State → Except Fault Byte} (h : Alike n n' s s') (hf : s.fst.isReply = true)
    (hbyte : s.cntR < total → f s' = f s) : SimE n n' (replyEdge total f s) (replyEdge total f s') := by
  have hb : s.busy = true := by cases hs : s.fst <;> simp [hs, Fst.isReply, State.busy, Fst.isBusy] at hf ⊢
  obtain ⟨-, -, -, -, hlevels, -⟩ := h.live_eqs
  simp only [replyEdge, hlevels, h.count hb]
  refine .ite (fun _ => .ok (h.finish hb _ _)) fun hc => .ite (fun _ => .ok (h.finish hb _ _)) fun _ => .ite (fun _ => ?_)
    fun _ => .ok h
  rw [hbyte (Nat.lt_of_not_le hc)]
  cases f s with
  | ok b =>
    have hemit := h.emitByte hf b
    exact .ite (fun _ => .ok (hemit.finish (by simpa only [State.busy, emitByte_fst] using hb) _ _)) fun _ => .ok hemit
  | error e => intro t ht; cases ht

/-- The high byte of a token value. -/
theorem tokenOf_high (b c : Byte) : (tokenOf b c).extractLsb' 8 8 = b := by
  apply BitVec.eq_of_getLsbD_eq
  intro i hi
  simp only [tokenOf, BitVec.getLsbD_extractLsb', BitVec.getLsbD_append]
  simp [hi]

theorem dispatchToken_alike {u u' : State} (b : Byte) (h : Alike n n' s s') (hu : u.trace = s.trace ++ [.consume b])
    (hu' : u'.trace = s'.trace ++ [.consume b]) (hlive : sameLive u' u) (htok : u'.tokR = u.tokR) :
    Alike n n' (dispatchToken u) (dispatchToken u') := by
  simp only [sameLive, State.lines, Prod.mk.injEq] at hlive
  unfold dispatchToken
  rw [htok]
  split
  · exact h.step [.consume b] hu hu' (by simp [sameLive, State.lines, hlive]) (fun _ => rfl) trivial
  split
  · exact h.step [.consume b] hu hu' (by simp [sameLive, State.lines, hlive]) (fun _ => rfl)
      (by simp [samePhase, sameLowBytes_zero])
  split
  · exact h.step [.consume b] hu hu' (by simp [sameLive, State.lines, hlive]) (fun _ => rfl) trivial
  · exact h.step [.consume b, .done .closeError .badToken] (by simp [hu, Cond.outcome, Cond.cause])
      (by simp [hu', Cond.outcome, Cond.cause]) (by simp [sameLive, State.lines, hlive]) (fun _ => rfl) ⟨rfl, rfl⟩

theorem tokEdge_alike (h : Alike n n' s s') (hf : s.fst = .tok) : SimE n n' (tokEdge s) (tokEdge s') := by
  have hb : s.busy = true := by simp [State.busy, hf, Fst.isBusy]
  have hphase : s.cntR ≠ 0 → s'.tokR.extractLsb' 8 8 = s.tokR.extractLsb' 8 8 := by simpa only [samePhase, hf] using h.phase
  refine readEdge_alike h hb fun b rest => ?_
  simp only [tokByte, consumeByte_cntR, h.count hb]
  refine .ite (fun hfirst => .ok (h.step [.consume b] rfl rfl ?_ ?_ ?_)) fun hlast => .ok ?_
  · simp [sameLive, State.lines, h.live_eqs]
  · simp [h.count hb]
  · simp only [samePhase, setTok_fst, consumeByte_fst, hf, setTok_tokR, consumeByte_tokR]
    exact fun _ => (tokenOf_high _ _).trans (tokenOf_high _ _).symm
  · refine dispatchToken_alike b h rfl rfl (by simp [sameLive, State.lines, h.live_eqs]) ?_
    simp [hphase (by omega)]

theorem giSkipEdge_alike (h : Alike n n' s s') (hf : s.fst = .giSkip) : SimE n n' (giSkipEdge s) (giSkipEdge s') := by
  have hb : s.busy = true := by simp [State.busy, hf, Fst.isBusy]
  refine readEdge_alike h hb fun b rest => ?_
  simp only [giSkipByte, consumeByte_cntR, h.count hb]
  refine .ite (fun _ => .ok (h.step [.consume b] rfl rfl ?_ ?_ ?_)) fun _ => .ok (h.step [.consume b] rfl rfl ?_ ?_ ?_) <;>
    simp [sameLive, State.lines, h.live_eqs, h.count hb, samePhase, hf]

theorem shSkipEdge_alike (h : Alike n n' s s') (hf : s.fst = .shSkip) : SimE n n' (shSkipEdge s) (shSkipEdge s') := by
  have hb : s.busy = true := by simp [State.busy, hf, Fst.isBusy]
  refine readEdge_alike h hb fun b rest => ?_
  simp only [shSkipByte, consumeByte_cntR, h.count hb]
  refine .ite (fun _ => .ok (h.step [.consume b] rfl rfl ?_ ?_ ?_)) fun _ => .ok (h.step [.consume b] rfl rfl ?_ ?_ ?_) <;>
    simp [sameLive, State.lines, h.live_eqs, h.count hb, samePhase, hf, sameLowBytes_zero]

theorem stReadEdge_alike (h : Alike n n' s s') (hf : s.fst = .stRead) (hc : s.cntR < 9) :
    SimE n n' (stReadEdge s) (stReadEdge s') := by
  have hb : s.busy = true := by simp [State.busy, hf, Fst.isBusy]
  have hphase : sameLowBytes (s.cntR - 5) s.echoR s'.echoR := by simpa only [samePhase, hf] using h.phase
  refine readEdge_alike h hb fun b rest => ?_
  simp only [stReadByte, consumeByte_cntR, h.count hb]
  refine .ite (fun hskip => .ok (h.step [.consume b] rfl rfl ?_ ?_ ?_)) fun hskip => .ite
    (fun hmore => .ok (h.step [.consume b] rfl rfl ?_ ?_ ?_)) fun hmore => .ok (h.step [.consume b] rfl rfl ?_ ?_ ?_)
  · simp [sameLive, State.lines, h.live_eqs]
  · simp [h.count hb]
  · simp [samePhase, hf, show s.cntR + 1 - 5 = 0 by omega, sameLowBytes_zero]
  · simp [sameLive, State.lines, h.live_eqs]
  · simp [h.count hb]
  · have hnext := sameLowBytes_setByte_both b (by omega) hphase
    simpa [samePhase, hf, show s.cntR + 1 - 5 = s.cntR - 5 + 1 by omega] using hnext
  · simp [sameLive, State.lines, h.live_eqs]
  · simp
  · have hlast := sameLowBytes_setByte_both b (by omega) hphase
    rw [show s.cntR - 5 = 3 by omega] at hlast
    simpa [samePhase] using (eq_of_sameLowBytes hlast).symm

theorem shLenEdge_alike (h : Alike n n' s s') (hf : s.fst = .shLen) (hc : s.cntR < 4) :
    SimE n n' (shLenEdge s) (shLenEdge s') := by
  have hb : s.busy = true := by simp [State.busy, hf, Fst.isBusy]
  have hphase : sameLowBytes s.cntR s.lenR s'.lenR := by simpa only [samePhase, hf] using h.phase
  have hnext : ∀ b, sameLowBytes (s.cntR + 1) (setByte s.lenR s.cntR b) (setByte s'.lenR s.cntR b) :=
    fun b => sameLowBytes_setByte_both b hc hphase
  refine readEdge_alike h hb fun b rest => ?_
  simp only [shLenByte, consumeByte_cntR, h.count hb, Nat.add_sub_cancel]
  refine .ite (fun _ => .ok (h.step [.consume b] rfl rfl ?_ ?_ ?_)) fun hmore => .ok (h.step [.consume b] rfl rfl ?_ ?_ ?_)
  · simp [sameLive, State.lines, h.live_eqs]
  · simp [h.count hb]
  · simpa [samePhase, hf] using hnext b
  · simp [sameLive, State.lines, h.live_eqs]
  · simp [h.count hb]
  · have hlast := hnext b
    rw [show s.cntR = 3 by omega] at hlast
    simpa [samePhase] using (eq_of_sameLowBytes hlast).symm

theorem shCheckEdge_alike (h : Alike n n' s s') (hf : s.fst = .shCheck) :
    Alike n n' (shCheckEdge s) (shCheckEdge s') := by
  have hb : s.busy = true := by simp [State.busy, hf, Fst.isBusy]
  have hlen : s'.lenR = s.lenR := by simpa only [samePhase, hf] using h.phase
  obtain ⟨-, -, -, hparams, -⟩ := h.live_eqs
  simp only [shCheckEdge, hlen, hparams]
  split
  · exact h.step [.done .closeError .oversize] rfl rfl (by simp [sameLive, State.lines, h.live_eqs]) (by simp [h.count hb])
      ⟨rfl, rfl⟩
  split
  · rename_i hn
    exact h.step [] (by simp) (by simp) (by simp [sameLive, State.lines, h.live_eqs]) (by simp)
      (by simp [samePhase, sameEngine, sameBelow, State.nBytes, hlen, hn])
  · exact h.step [] (by simp) (by simp) (by simp [sameLive, State.lines, h.live_eqs]) (by simp)
      (by simp [samePhase, sameBelow, hlen])

theorem shBodyEdge_alike (h : Alike n n' s s') (hf : s.fst = .shBody) : SimE n n' (shBodyEdge s) (shBodyEdge s') := by
  have hb : s.busy = true := by simp [State.busy, hf, Fst.isBusy]
  obtain ⟨hlen, hn, hscr⟩ : s'.lenR = s.lenR ∧ s'.nbytesR = s.nbytesR ∧ sameBelow s.cntR s.scratch s'.scratch := by
    simpa only [samePhase, hf] using h.phase
  obtain ⟨-, -, -, hparams, -⟩ := h.live_eqs
  refine readEdge_alike h hb fun b rest => ?_
  have hwrite := sameBelow_write b hscr
  by_cases ha : s.cntR < s.params.capacity
  · have hnb : s'.nBytes = s.nBytes := by rw [State.nBytes, hn, State.nBytes]
    have hw := writeByte_scratch (b := b) (s := consumeByte b rest s) ha
    have hw' := writeByte_scratch (b := b) (s := consumeByte b rest s') (hparams ▸ ha)
    simp only [shBodyByte, consumeByte_cntR, h.count hb, Nat.add_sub_cancel, hw, hw', setScratch_nBytes, setScratch_cntR,
      consumeByte_nBytes, hnb]
    refine .ite (fun hc => .ok (h.step [.consume b] rfl rfl ?_ ?_ ?_)) fun hc => .ok (h.step [.consume b] rfl rfl ?_ ?_ ?_)
    · simp [sameLive, State.lines, h.live_eqs]
    · simp [h.count hb]
    · have hall : sameBelow (2 * s.nBytes) (s.scratch.write s.cntR b) (s'.scratch.write s.cntR b) :=
        fun a ha => hwrite a (ha.trans_le hc)
      simpa [samePhase, sameEngine, hlen, hn] using hall
    · simp [sameLive, State.lines, h.live_eqs]
    · simp [h.count hb]
    · simpa [samePhase, hf, hlen, hn] using hwrite
  · intro t ht
    simp only [shBodyByte, consumeByte_cntR, Nat.add_sub_cancel, writeByte, State.bufSize, consumeByte_params, if_neg ha] at ht
    cases ht

/-! The engine. -/

/-- A read of bytes that are the same reads the same. -/
theorem memRead_congr {buf : Buf} {k a : Nat} {u u' : State} (hsize : u'.bufSize buf = u.bufSize buf)
    (hread : ∀ x, a ≤ x → x < a + k → (u'.buf buf).read x = (u.buf buf).read x) : memRead buf a k u' = memRead buf a k u := by
  induction k generalizing a with
  | zero => rfl
  | succ k ih =>
    have hbyte : readByte buf a u' = readByte buf a u := by
      simp only [readByte, hsize, hread a le_rfl (by omega)]
    simp only [memRead, hbyte, ih (a := a + 1) fun x h1 h2 => hread x (by omega) (by omega)]

/-- A chunk's load takes the same words from the same body bytes. -/
theorem chunkLoad_congr {u u' t : State} (hp : u'.params = u.params) (hoff : u'.offR = u.offR) (hleft : u'.bleftR = u.bleftR)
    (hn : u'.nBytes = u.nBytes) (hscr : sameBelow (2 * u.nBytes) u.scratch u'.scratch)
    (hfits : u.offR + chunkBytes u.bleftR ≤ u.nBytes) (h : chunkLoad u = .ok t) :
    ∃ tmsW tdiW, t = startChunk tmsW tdiW u ∧ chunkLoad u' = .ok (startChunk tmsW tdiW u') := by
  have hread : ∀ a, a + chunkBytes u.bleftR ≤ 2 * u.nBytes →
      memRead .scratch a (chunkBytes u.bleftR) u' = memRead .scratch a (chunkBytes u.bleftR) u :=
    fun a ha => memRead_congr (by simp [State.bufSize, hp]) fun x _ hx => (hscr x (by omega)).symm
  simp only [chunkLoad, hoff, hleft, hn, hread _ (show u.offR + chunkBytes u.bleftR ≤ 2 * u.nBytes by omega),
    hread _ (show u.nBytes + u.offR + chunkBytes u.bleftR ≤ 2 * u.nBytes by omega)] at h ⊢
  split at h
  · split at h <;> cases h
    exact ⟨_, _, rfl, rfl⟩
  · cases h

/-- What the runs have in common in SH_RUN. -/
theorem Alike.running (h : Alike n n' s s') (hf : s.fst = .shRun) :
    s'.lenR = s.lenR ∧ s'.nbytesR = s.nbytesR ∧ s'.est = s.est ∧ sameBelow (2 * s.nBytes) s.scratch s'.scratch ∧
      sameEngine s s' := by simpa only [samePhase, hf] using h.phase

theorem Alike.nBytes_eq (h : Alike n n' s s') (hf : s.fst = .shRun) : s'.nBytes = s.nBytes := by
  rw [State.nBytes, (h.running hf).2.1, State.nBytes]

/-- A step inside SH_RUN keeps the runs alike if the framer's registers and SCRATCH stay and the engines remain the same. -/
theorem Alike.run_step {t t' : State} (l : List Event) (h : Alike n n' s s') (hf : s.fst = .shRun)
    (ht : t.trace = s.trace ++ l) (ht' : t'.trace = s'.trace ++ l) (hlive : sameLive t' t)
    (hkept : t.fst = s.fst ∧ t.cntR = s.cntR ∧ t.lenR = s.lenR ∧ t.nbytesR = s.nbytesR ∧ t.scratch = s.scratch)
    (hkept' : t'.cntR = s'.cntR ∧ t'.lenR = s'.lenR ∧ t'.nbytesR = s'.nbytesR ∧ t'.scratch = s'.scratch)
    (hest : t'.est = t.est) (hengine : sameEngine t t') : Alike n n' t t' := by
  obtain ⟨hlen, hn, -, hscr, -⟩ := h.running hf
  obtain ⟨hfst, hcnt, hlen₁, hn₁, hscr₁⟩ := hkept
  obtain ⟨hcnt', hlen', hn', hscr'⟩ := hkept'
  refine h.step l ht ht' hlive (fun _ => ?_) ?_
  · rw [hcnt, hcnt', h.count (by simp [State.busy, hf, Fst.isBusy])]
  · simp only [samePhase, hfst, hf]
    refine ⟨by rw [hlen₁, hlen', hlen], by rw [hn₁, hn', hn], hest, ?_, hengine⟩
    rw [State.nBytes, hn₁, hscr₁, hscr']
    exact hscr

/-- A load of the same words at the same place makes the chunks the same. -/
theorem SameChunk.of_startChunk {u u' : State} (tmsW tdiW : Word) (hoff : u'.offR = u.offR) (hleft : u'.bleftR = u.bleftR)
    (hdly : u'.dlyCnt = u.dlyCnt) (hres : sameBelow u.offR u.result u'.result) :
    SameChunk (startChunk tmsW tdiW u) (startChunk tmsW tdiW u') :=
  ⟨rfl, rfl, rfl, rfl, by simp [hleft], hoff, hleft, hdly, hres⟩

theorem sameEngine_eLow {u u' : State} (h : SameChunk u u') : sameEngine (setEst .eLow u) (setEst .eLow u') :=
  ⟨h.tmsW, h.tdiW, h.tdoW, h.stepR, h.nstepR, h.offR, h.bleftR, h.dlyCnt, h.result⟩

theorem engineStart_alike (h : Alike n n' s s') (hf : s.fst = .shRun) (hlen : s.nbytesR = nbytesOf s.lenR) :
    SimE n n' (engineStart s) (engineStart s') := by
  obtain ⟨hlenR, hn, -, hscr, -⟩ := h.running hf
  obtain ⟨-, hdelay, -, hparams, -⟩ := h.live_eqs
  have hnb := h.nBytes_eq hf
  have hnlen : s.nBytes = (s.lenR.toNat + 7) / 8 := by rw [State.nBytes, hlen, toNat_nbytesOf, ceilBytes]
  by_cases hl : s.lenR = 0
  · rw [engineStart_empty hl, engineStart_empty (hlenR.trans hl)]
    refine .ok (h.run_step [.write false true false] hf rfl rfl ?_ ?_ ?_ rfl ?_)
    · simp [sameLive, State.lines, h.live_eqs]
    · simp
    · simp
    · have hzero : s.nBytes = 0 := by simp [hnlen, hl]
      simp [sameEngine, hdelay, sameBelow, hzero]
  have hpos : 0 < s.lenR.toNat := Nat.pos_of_ne_zero fun h => hl (BitVec.eq_of_toNat_eq h)
  have hbyte : ∀ a, a < 2 * s.nBytes → readByte .scratch a s' = readByte .scratch a s := fun a ha => by
    simp only [readByte, State.bufSize, State.buf, hparams, hscr a ha]
  intro t ht
  simp only [engineStart, hlenR, hl, if_false, hnb, hbyte 0 (by omega), hbyte s.nBytes (by omega)] at ht ⊢
  split at ht
  · rename_i tms _
    split at ht
    · rename_i tdi _
      split at ht
      · rename_i hload
        obtain ⟨tmsW, tdiW, rfl, hload'⟩ := chunkLoad_congr
          (u' := startDelay (pinWrite false (tms.getLsbD 0) (tdi.getLsbD 0) (beginShift s')))
          (by simp [hparams]) (by simp) (by simp [hlenR]) (by simp [hnb]) (by simpa using hscr)
          (by simpa [hnlen] using chunk_fits (len := s.lenR.toNat) (b := s.lenR.toNat) (off := 0) le_rfl (by simp) (by simp)) hload
        cases ht
        rw [hload']
        refine ⟨_, rfl, h.run_step [.write false (tms.getLsbD 0) (tdi.getLsbD 0)] hf ?_ ?_ ?_ ?_ ?_ rfl
          (sameEngine_eLow (.of_startChunk tmsW tdiW ?_ ?_ ?_ ?_))⟩ <;>
          simp [sameLive, State.lines, h.live_eqs, hlenR, sameBelow]
      · cases ht
    · cases ht
  · cases ht

/-- The sample draws the same value (R137). -/
theorem Alike.drawValue_eq (h : Alike n n' s s') : s'.drawValue 0 = s.drawValue 0 := by
  obtain ⟨-, -, -, hparams, -, -, -, hdraws, hdrawn⟩ := h.live_eqs
  have hdraw : s'.draw 0 = s.draw 0 := by simp only [State.draw, hdraws, hdrawn]
  rw [State.drawValue, State.drawValue, hdraw, hparams]

theorem SameChunk.sampleAndShift (h : SameChunk s s') (hv : s'.drawValue 0 = s.drawValue 0) :
    SameChunk (sampleAndShift s) (sampleAndShift s') := by
  obtain ⟨htms, htdi, htdo, hstep, hnstep, hoff, hleft, hdly, hres⟩ := h
  exact ⟨by simp [htms], by simp [htdi], by simp [htdo, hstep, hv], by simp [hstep], by simp [hnstep], by simp [hoff],
    by simp [hleft], by simp [hdly], by simpa using hres⟩

/-- Storing the same chunk advances both runs alike and makes its bytes of RESULT the same. -/
theorem SameChunk.stored {m m' : Memory} (h : SameChunk s s') (hp : s'.params = s.params)
    (hm : Stored s.offR (chunkBytes s.bleftR) s.tdoW s.params.maxNbytes s.result m)
    (hm' : Stored s'.offR (chunkBytes s'.bleftR) s'.tdoW s'.params.maxNbytes s'.result m') :
    sameBelow (s.offR + chunkBytes s.bleftR) m m' := by
  rw [h.offR, h.bleftR, h.tdoW, hp] at hm'
  exact sameBelow_stored h.result hm hm'

theorem chunkEnd_alike {u u' t t' : State} (hsame : SameChunk u u') (hp : u'.params = u.params) (hnb : u'.nBytes = u.nBytes)
    (hscr : sameBelow (2 * u.nBytes) u.scratch u'.scratch) (hchunk : u.bleftR - u.nstepR.toNat = 0 → u.nBytes ≤ u.offR + chunkBytes u.bleftR)
    (hnext : 0 < u.bleftR - u.nstepR.toNat →
      u.offR + chunkBytes u.bleftR + chunkBytes (u.bleftR - u.nstepR.toNat) ≤ u.nBytes)
    (h : chunkEnd u = .ok t) (h' : chunkEnd u' = .ok t') :
    ∃ m m', sameEngine t t' ∧
      ((∃ w v, t = setEst .eLow (startChunk w v (advanceChunk (setResult m u))) ∧
          t' = setEst .eLow (startChunk w v (advanceChunk (setResult m' u')))) ∨
        (t = setEst .eRest (advanceChunk (setResult m u)) ∧ t' = setEst .eRest (advanceChunk (setResult m' u')))) := by
  obtain ⟨s1, hstore, hafter⟩ := chunkEnd_cases h
  obtain ⟨s1', hstore', hafter'⟩ := chunkEnd_cases h'
  obtain ⟨m, rfl, hm⟩ := chunkStore_stored hstore
  obtain ⟨m', rfl, hm'⟩ := chunkStore_stored hstore'
  have hres := hsame.stored hp hm hm'
  have hleft : (advanceChunk (setResult m' u')).bleftR = (advanceChunk (setResult m u)).bleftR := by
    simp [hsame.bleftR, hsame.nstepR]
  have hoff : (advanceChunk (setResult m' u')).offR = (advanceChunk (setResult m u)).offR := by
    simp [hsame.bleftR, hsame.offR]
  refine ⟨m, m', ?_⟩
  obtain ⟨hpos, s2, hload, rfl⟩ | ⟨hzero, rfl⟩ := hafter <;> obtain ⟨hpos', s2', hload', rfl⟩ | ⟨hzero', rfl⟩ := hafter'
  · obtain ⟨w, v, rfl, hload₂⟩ := chunkLoad_congr (u' := advanceChunk (setResult m' u')) (by simp [hp]) hoff hleft
      (by simp [hnb]) (by simpa using hscr) (by simpa using hnext (by simpa using hpos)) hload
    rw [hload₂] at hload'
    cases hload'
    exact ⟨sameEngine_eLow (.of_startChunk w v hoff hleft (by simp [hsame.dlyCnt]) (by simpa using hres)),
      .inl ⟨w, v, rfl, rfl⟩⟩
  · omega
  · omega
  · refine ⟨⟨by simp [hsame.dlyCnt], fun a ha => ?_⟩, .inr ⟨rfl, rfl⟩⟩
    have hlt : a < u.offR + chunkBytes u.bleftR := lt_of_lt_of_le (by simpa using ha) (hchunk (by simpa using hzero))
    simpa using hres a hlt

theorem sampleEdge_alike (h : Alike n n' s s') (hf : s.fst = .shRun) (he : s.est = .eSample) (hs : s.RunOk)
    (hs' : s'.RunOk) : SimE n n' (sampleEdge s) (sampleEdge s') := by
  obtain ⟨-, -, hest, hscr, hengine⟩ := h.running hf
  have hsame : SameChunk s s' := by simpa only [sameEngine, he] using hengine
  obtain ⟨-, -, -, hparams, -⟩ := h.live_eqs
  have hv := h.drawValue_eq
  have hchunk := (shiftPlace_iff_chunkOk (.inr (.inr he))).1 (hs.place hf)
  have hlen := hs.accepted.1 (by simp [hf])
  intro t ht
  obtain ⟨t', ht'⟩ : ∃ t', sampleEdge s' = .ok t' := by
    have hf' : s'.fst = .shRun := h.fst_eq.trans hf
    exact sampleEdge_answers ((shiftPlace_iff_chunkOk (.inr (.inr (hest.trans he)))).1 (hs'.place hf'))
      (hs'.accepted.1 (by simp [hf'])) (hs'.accepted.2 (by simp [hf'])) (hs'.body.2 hf')
  refine ⟨t', ht', ?_⟩
  have hlast : s'.nstepR ≤ s'.stepR + 1 ↔ s.nstepR ≤ s.stepR + 1 := by rw [hsame.nstepR, hsame.stepR]
  obtain ⟨hl, hend⟩ | ⟨hl, rfl⟩ := sampleEdge_cases ht <;> obtain ⟨hl', hend'⟩ | ⟨hl', rfl⟩ := sampleEdge_cases ht'
  · obtain ⟨m, m', hengine, ⟨w, v, rfl, rfl⟩ | ⟨rfl, rfl⟩⟩ := chunkEnd_alike (hsame.sampleAndShift hv) (by simp [hparams])
      (by simp [h.nBytes_eq hf]) (by simpa using hscr) (by simpa using nBytes_le_of_lastChunk hchunk hlen)
      (by simpa using hchunk.next_fits hlen) hend hend'
    · refine h.run_step [.sample (s.drawValue 0)] hf ?_ ?_ ?_ ?_ ?_ rfl hengine <;>
        simp [hv, sameLive, State.lines, h.live_eqs]
    · refine h.run_step [.sample (s.drawValue 0)] hf ?_ ?_ ?_ ?_ ?_ rfl hengine <;>
        simp [hv, sameLive, State.lines, h.live_eqs]
  · exact absurd (hlast.2 hl) hl'
  · exact absurd (hlast.1 hl') hl
  · have hnext := hsame.sampleAndShift hv
    have hengine := sameEngine_eLow hnext
    refine h.run_step [.sample (s.drawValue 0)] hf ?_ ?_ ?_ ?_ ?_ rfl hengine <;>
      simp [hv, sameLive, State.lines, h.live_eqs]

/-- In the engine states within a chunk, the engines are the same exactly when the chunks are. -/
theorem sameEngine_iff_sameChunk (he : s.est = .eLow ∨ s.est = .eHigh ∨ s.est = .eSample) :
    sameEngine s s' ↔ SameChunk s s' := by
  obtain he | he | he := he <;> simp only [sameEngine, he]

theorem sameEngine_iff_sameReply (he : s.est = .eRest ∨ s.est = .eFinish) :
    sameEngine s s' ↔ s'.dlyCnt = s.dlyCnt ∧ sameBelow s.nBytes s.result s'.result := by
  obtain he | he := he <;> simp only [sameEngine, he]

/-- Registers changed alike, none of them the counters of the chunk, leave the chunks the same. -/
theorem SameChunk.of_kept {t t' : State} (h : SameChunk s s')
    (hkept : t.stepR = s.stepR ∧ t.nstepR = s.nstepR ∧ t.offR = s.offR ∧ t.bleftR = s.bleftR ∧ t.result = s.result ∧
      t.tmsW = s.tmsW ∧ t.tdiW = s.tdiW ∧ t.tdoW = s.tdoW)
    (hkept' : t'.stepR = s'.stepR ∧ t'.nstepR = s'.nstepR ∧ t'.offR = s'.offR ∧ t'.bleftR = s'.bleftR ∧
      t'.result = s'.result ∧ t'.tmsW = s'.tmsW ∧ t'.tdiW = s'.tdiW ∧ t'.tdoW = s'.tdoW)
    (hdly : t'.dlyCnt = t.dlyCnt) : SameChunk t t' := by
  obtain ⟨h1, h2, h3, h4, h5, h6, h7, h8⟩ := hkept
  obtain ⟨h1', h2', h3', h4', h5', h6', h7', h8'⟩ := hkept'
  exact ⟨by rw [h6', h6, h.tmsW], by rw [h7', h7, h.tdiW], by rw [h8', h8, h.tdoW], by rw [h1', h1, h.stepR],
    by rw [h2', h2, h.nstepR], by rw [h3', h3, h.offR], by rw [h4', h4, h.bleftR], hdly, by rw [h3, h5, h5']; exact h.result⟩

/-- A paced edge of the engine: its action keeps the runs alike, and so does an edge that only counts. -/
theorem afterDelay_alike {act : State → State} (h : Alike n n' s s') (hf : s.fst = .shRun) (hdly : s'.dlyCnt = s.dlyCnt)
    (hact : Alike n n' (act s) (act s')) (hcount : sameEngine (tickDelay s) (tickDelay s')) :
    SimE n n' (afterDelay (fun u => .ok (act u)) s) (afterDelay (fun u => .ok (act u)) s') := by
  obtain ⟨-, -, hest, -, -⟩ := h.running hf
  simp only [afterDelay, hdly]
  refine .ite (fun _ => .ok hact) fun _ => .ok (h.run_step [] hf ?_ ?_ ?_ ?_ ?_ hest hcount) <;>
    simp [sameLive, State.lines, h.live_eqs]

theorem engineEdge_alike (h : Alike n n' s s') (hf : s.fst = .shRun) (hs : s.RunOk) (hs' : s'.RunOk) :
    SimE n n' (engineEdge s) (engineEdge s') := by
  obtain ⟨hlenR, hn, hest, hscr, hengine⟩ := h.running hf
  obtain ⟨-, hdelay, -⟩ := h.live_eqs
  have hnb := h.nBytes_eq hf
  unfold engineEdge
  rw [hest]
  cases he : s.est <;> dsimp only
  case eIdle => exact engineStart_alike h hf (hs.accepted.1 (by simp [hf]))
  case eStart => exact engineStart_alike h hf (hs.accepted.1 (by simp [hf]))
  case eSample => exact sampleEdge_alike h hf he hs hs'
  case eLow =>
    have hchunk := (sameEngine_iff_sameChunk (.inl he)).1 hengine
    have hwrite := (sameEngine_iff_sameChunk (s := lowWrite s) (.inr (.inl rfl))).2
      (hchunk.of_kept (t' := lowWrite s') (by simp) (by simp) (by simp [hdelay]))
    refine afterDelay_alike h hf hchunk.dlyCnt
      (h.run_step [.write false (s.tmsW.getLsbD 0) (s.tdiW.getLsbD 0)] hf ?_ ?_ ?_ ?_ ?_ rfl hwrite)
      ((sameEngine_iff_sameChunk (s := tickDelay s) (.inl he)).2
        (hchunk.of_kept (by simp) (by simp) (by simp [hchunk.dlyCnt]))) <;>
      simp [sameLive, State.lines, h.live_eqs, hchunk.tmsW, hchunk.tdiW]
  case eHigh =>
    have hchunk := (sameEngine_iff_sameChunk (.inr (.inl he))).1 hengine
    have hwrite := (sameEngine_iff_sameChunk (s := highWrite s) (.inr (.inr rfl))).2
      (hchunk.of_kept (t' := highWrite s') (by simp) (by simp) (by simp [hdelay]))
    refine afterDelay_alike h hf hchunk.dlyCnt
      (h.run_step [.write true (s.tmsW.getLsbD 0) (s.tdiW.getLsbD 0)] hf ?_ ?_ ?_ ?_ ?_ rfl hwrite)
      ((sameEngine_iff_sameChunk (s := tickDelay s) (.inr (.inl he))).2
        (hchunk.of_kept (by simp) (by simp) (by simp [hchunk.dlyCnt]))) <;>
      simp [sameLive, State.lines, h.live_eqs, hchunk.tmsW, hchunk.tdiW]
  case eRest =>
    obtain ⟨hdly, hres⟩ := (sameEngine_iff_sameReply (.inl he)).1 hengine
    have hwrite := (sameEngine_iff_sameReply (s := restWrite s) (s' := restWrite s') (.inr rfl)).2
      ⟨by simp [hdelay], by simpa using hres⟩
    refine afterDelay_alike h hf hdly (h.run_step [.write false true false] hf ?_ ?_ ?_ ?_ ?_ rfl hwrite)
      ((sameEngine_iff_sameReply (s := tickDelay s) (.inl he)).2 ⟨by simp [hdly], by simpa using hres⟩) <;>
      simp [sameLive, State.lines, h.live_eqs]
  case eFinish =>
    obtain ⟨hdly, hres⟩ := (sameEngine_iff_sameReply (.inr he)).1 hengine
    refine afterDelay_alike h hf hdly (h.step [] ?_ ?_ ?_ ?_ ?_)
      ((sameEngine_iff_sameReply (s := tickDelay s) (.inr he)).2 ⟨by simp [hdly], by simpa using hres⟩)
    · simp
    · simp
    · simp [sameLive, State.lines, h.live_eqs]
    · simp
    · exact ⟨hn, by simpa using hres⟩

/-! Every edge, every command. -/

/-- Whatever the first of two results answers, the second answers the like. -/
def SimR (n n' : Nat) (r r' : Result) : Prop := ∀ t, r = .next t → ∃ t', r' = .next t' ∧ Alike n n' t t'

theorem SimR.next {t t' : State} (h : Alike n n' t t') : SimR n n' (.next t) (.next t') := by
  rintro _ ⟨⟩; exact ⟨t', rfl, h⟩

theorem SimE.ofExcept {r r' : Except Fault State} (h : SimE n n' r r') : SimR n n' (.ofExcept r) (.ofExcept r') := by
  intro t ht
  obtain ⟨t', ht', hal⟩ := h t (Result.ofExcept_eq_next.1 ht)
  exact ⟨t', Result.ofExcept_eq_next.2 ht', hal⟩

theorem initEdge_alike (h : Alike n n' s s') : Alike n n' (initEdge s) (initEdge s') := by
  obtain ⟨-, hdelay, -, -, hlevels, -⟩ := h.live_eqs
  simp only [initEdge, hdelay, hlevels]
  split
  · exact h.step [.fatal .setupFail] rfl rfl (by simp [sameLive, State.lines, h.live_eqs]) nofun trivial
  split
  · exact h.step [.fatal .badDelay] rfl rfl (by simp [sameLive, State.lines, h.live_eqs]) nofun trivial
  · exact h.step [] (by simp) (by simp) (by simp [sameLive, State.lines, h.live_eqs]) nofun trivial

theorem idleEdge_alike (h : Alike n n' s s') : Alike n n' (idleEdge s) (idleEdge s') := by
  obtain ⟨-, -, -, -, hlevels, -⟩ := h.live_eqs
  simp only [idleEdge, hlevels]
  split
  · exact h.step [.halt] rfl rfl (by simp [sameLive, State.lines, h.live_eqs]) nofun trivial
  split
  · exact h.step [] (by simp) (by simp) (by simp [sameLive, State.lines, h.live_eqs]) (by simp) (by simp [samePhase])
  · exact h

theorem hostCloses_alike (h : Alike n n' s s') (hf : s.fst = .idle) (hout : s'.outcomeR = s.outcomeR) :
    Alike n n' (hostCloses s) (hostCloses s') := by
  simp only [hostCloses]
  rw [hout]
  split
  · exact h.step [] (by simp) (by simp) (by simp [sameLive, State.lines, h.live_eqs]) (by simp [State.busy, hf, Fst.isBusy])
      (by simp [samePhase, hf])
  · exact h

theorem leaveDone_alike (h : Alike n n' s s') (hf : s.fst = .done) : SimR n n' (leaveDone s) (leaveDone s') := by
  obtain ⟨hout, hcause⟩ : s'.outcomeR = s.outcomeR ∧ s'.causeR = s.causeR := by simpa only [samePhase, hf] using h.phase
  have hidle : Alike n n' (setFst .idle s) (setFst .idle s') :=
    h.step [] (by simp) (by simp) (by simp [sameLive, State.lines, h.live_eqs]) nofun trivial
  intro t ht
  simp only [leaveDone, hcause, hout] at ht ⊢
  split at ht
  · cases ht
  rename_i hlegal
  rw [if_neg hlegal]
  split at ht <;> rename_i hshut <;> cases ht
  · rw [if_pos hshut]
    exact ⟨_, rfl, h.step [.halt] rfl rfl (by simp [sameLive, State.lines, h.live_eqs]) nofun trivial⟩
  · rw [if_neg hshut]
    exact ⟨_, rfl, hostCloses_alike hidle rfl hout⟩

theorem shReplyEdge_alike (h : Alike n n' s s') (hf : s.fst = .shReply) : SimE n n' (shReplyEdge s) (shReplyEdge s') := by
  obtain ⟨hn, hres⟩ : s'.nbytesR = s.nbytesR ∧ sameBelow s.nBytes s.result s'.result := by
    simpa only [samePhase, hf] using h.phase
  have hnb : s'.nBytes = s.nBytes := by rw [State.nBytes, hn, State.nBytes]
  have hcnt := h.count (by simp [State.busy, hf, Fst.isBusy])
  obtain ⟨-, -, -, hparams, -⟩ := h.live_eqs
  rw [shReplyEdge, shReplyEdge, hnb]
  refine replyEdge_alike h (by simp [hf, Fst.isReply]) fun hc => ?_
  simp only [shReplyByte, readByte, State.bufSize, State.buf, hparams, hcnt, hres _ hc]

/-- Two runs alike answer alike at every edge. -/
theorem edge_alike (h : Alike n n' s s') (hs : s.RunOk) (hs' : s'.RunOk) : SimR n n' (edge s) (edge s') := by
  obtain ⟨hfst, -, -, -, hlevels, -⟩ := h.live_eqs
  unfold edge
  rw [hfst, hlevels]
  split
  · refine .next (h.step [] ?_ ?_ ?_ nofun trivial) <;> simp [resetEdge, sameLive, State.lines, h.live_eqs]
  have hfield := hs.field
  cases hf : s.fst <;> simp only [State.FieldOk, hf] at hfield <;> dsimp only
  case init => exact .next (initEdge_alike h)
  case idle => exact .next (idleEdge_alike h)
  case tok => exact (tokEdge_alike h hf).ofExcept
  case giSkip => exact (giSkipEdge_alike h hf).ofExcept
  case giReply =>
    refine (replyEdge_alike h (by simp [hf, Fst.isReply]) fun _ => ?_).ofExcept
    simp only [giReplyByte, h.count (by simp [State.busy, hf, Fst.isBusy])]
  case stRead => exact (stReadEdge_alike h hf hfield).ofExcept
  case stReply =>
    have hecho : s'.echoR = s.echoR := by simpa only [samePhase, hf] using h.phase
    refine (replyEdge_alike h (by simp [hf, Fst.isReply]) fun _ => ?_).ofExcept
    simp only [stReplyByte, hecho, h.count (by simp [State.busy, hf, Fst.isBusy])]
  case shSkip => exact (shSkipEdge_alike h hf).ofExcept
  case shLen => exact (shLenEdge_alike h hf hfield).ofExcept
  case shCheck => exact .next (shCheckEdge_alike h hf)
  case shBody => exact (shBodyEdge_alike h hf).ofExcept
  case shRun => exact (engineEdge_alike h hf hs hs').ofExcept
  case shReply => exact (shReplyEdge_alike h hf).ofExcept
  case done => exact leaveDone_alike h hf
  case halt => exact .next h
  case fatal => exact .next h

theorem busy_alike (h : Alike n n' s s') : s'.busy = s.busy := by rw [State.busy, h.fst_eq, State.busy]

theorem sameEngine_takeTurn (turn : HostTurn) (rest : List HostTurn) (h : sameEngine s s') :
    sameEngine (takeTurn turn rest s) (takeTurn turn rest s') := by
  have hchunk : SameChunk s s' → SameChunk (takeTurn turn rest s) (takeTurn turn rest s') :=
    fun hc => hc.of_kept (by simp) (by simp) (by simp [hc.dlyCnt])
  cases he : s.est <;> simp only [sameEngine, he, takeTurn_est] at h ⊢
  case eLow => exact hchunk h
  case eHigh => exact hchunk h
  case eSample => exact hchunk h
  case eRest => exact h
  case eFinish => exact h

theorem samePhase_takeTurn (turn : HostTurn) (rest : List HostTurn) (h : samePhase s s') :
    samePhase (takeTurn turn rest s) (takeTurn turn rest s') := by
  cases hf : s.fst <;> simp only [samePhase, hf, takeTurn_fst] at h ⊢
  case shRun =>
    obtain ⟨hlen, hn, hest, hscr, hengine⟩ := h
    exact ⟨hlen, hn, hest, hscr, sameEngine_takeTurn turn rest hengine⟩
  all_goals exact h

theorem hostTurn_alike (h : Alike n n' s s') : SimR n n' (hostTurn s) (hostTurn s') := by
  obtain ⟨-, -, -, -, hlevels, -, hscript, -⟩ := h.live_eqs
  intro t ht
  simp only [hostTurn, hscript, hlevels, busy_alike h] at ht ⊢
  split at ht
  · cases ht; exact ⟨_, rfl, h⟩
  rename_i turn rest hs
  split at ht
  · cases ht
  split at ht
  · cases ht
  rename_i hclear hattach
  cases ht
  refine ⟨takeTurn turn rest s', by rw [if_neg hclear, if_neg hattach], h.step [] ?_ ?_ ?_ h.count
    (samePhase_takeTurn turn rest h.phase)⟩ <;>
    simp [sameLive, State.lines, h.live_eqs]

theorem tick_alike (h : Alike n n' s s') (hs : s.RunOk) (hs' : s'.RunOk) : SimR n n' (tick s) (tick s') := by
  intro t ht
  obtain ⟨s1, h1, h2⟩ := tick_cases ht
  obtain ⟨s1', h1', hal⟩ := hostTurn_alike h s1 h1
  obtain ⟨t', ht', hal'⟩ := edge_alike hal (hostTurn_keeps_runOk hs h1) (hostTurn_keeps_runOk hs' h1') t h2
  exact ⟨t', by simp only [tick, h1', ht'], hal'⟩

theorem hung_alike (h : Alike n n' s s') : s'.hung = s.hung := by
  obtain ⟨hfst, -, -, -, hlevels, hstream, hscript, -⟩ := h.live_eqs
  have htx : s'.txValid = s.txValid := by
    have hphase := h.phase
    have hcount := h.count
    cases hf : s.fst <;>
      simp [State.txValid, State.replyTotal, State.nBytes, hfst, hf, Fst.isReply, State.busy, Fst.isBusy, samePhase] at hphase hcount ⊢ <;>
      simp [hcount, hphase]
  simp only [State.hung, State.waiting, State.rxValid, hfst, hlevels, hstream, hscript, htx]

theorem runCommand_alike (k : Nat) (h : Alike n n' s s') (hs : s.RunOk) (hs' : s'.RunOk) :
    SimR n n' (runCommand k s) (runCommand k s') := by
  induction k generalizing s s' with
  | zero => exact .next h
  | succ k ih =>
    intro t ht
    simp only [runCommand, busy_alike h, hung_alike h] at ht ⊢
    split at ht
    · rename_i hgo
      rw [if_pos hgo]
      split at ht
      · rename_i s1 h1
        obtain ⟨s1', h1', hal⟩ := tick_alike h hs hs' s1 h1
        obtain ⟨t', ht', hal'⟩ := ih hal (tick_keeps_runOk hs h1) (tick_keeps_runOk hs' h1') t ht
        exact ⟨t', by simp only [h1', ht'], hal'⟩
      · cases ht
      · cases ht
    · rename_i hstop
      rw [if_neg hstop]
      cases ht
      exact ⟨_, rfl, h⟩

end

/-- Settles O57: right after the edge that takes `cmd_go` the two runs are alike, whatever the dead state was. -/
theorem commandsAreIndependent : Obligations.CommandsAreIndependent := by
  intro s s' t i hgo hlive hexec
  rw [exec_eq_commandCycle] at hexec
  have hlive' := hlive
  simp only [sameLive, State.lines, Prod.mk.injEq] at hlive'
  obtain ⟨hfst, hdelay, ⟨htck, htms, htdi⟩, hparams, hlevels, hstream, hscript, hdraws, hdrawn⟩ := hlive'
  have hgo' : s'.startsCommand = true := by simpa only [State.startsCommand, hfst, hlevels] using hgo
  have hedge := edge_startsCommand (s := offerCommand i s) hgo
  have hedge' := edge_startsCommand (s := offerCommand i s') hgo'
  have hstart : Alike s.trace.length s'.trace.length (enter .tok (offerCommand i s)) (enter .tok (offerCommand i s')) :=
    ⟨by simp [sameLive, State.lines, *], le_rfl, le_rfl, by simp, fun _ => rfl, fun h => absurd rfl h⟩
  simp only [commandCycle, hedge] at hexec
  obtain ⟨t', ht', hal⟩ := runCommand_alike _ hstart (runOk_of_startsCommand i hgo)
    (runOk_of_startsCommand i hgo') t hexec
  have hfuel : (offerCommand i s').script.length + cycleEdges (offerCommand i s') =
      (offerCommand i s).script.length + cycleEdges (offerCommand i s) := by
    simp [cycleEdges, hscript, hparams, hdelay]
  obtain ⟨hf, hd, ⟨hl1, hl2, hl3⟩, hp, hlv, hq, hsc, hdr, hdn⟩ := hal.live_eqs
  exact ⟨t', by simp only [exec_eq_commandCycle, commandCycle, hedge', hfuel, ht'], hal.events,
    by simp [sameLive, State.lines, *]⟩

end Sys2Proof.Machine

namespace Sys2Proof.Machine

/-! ### What a command leaves as it was -/

/-- The host's turn in a busy block that is not to be reset sets levels only. -/
theorem hostTurn_busy {s t : State} (hb : s.busy = true) (hr : s.noReset = true) (h : hostTurn s = .next t) :
    t = { s with levels := t.levels, script := t.script } ∧ t.noReset = true := by
  obtain ⟨-, rfl⟩ | ⟨turn, rest, hs, rfl, hduty⟩ := hostTurn_cases h
  · exact ⟨rfl, hr⟩
  simp only [State.noReset, hs, List.all_cons, Bool.and_eq_true, Bool.not_eq_true'] at hr
  obtain ⟨-, hturn, hrest⟩ := hr
  obtain hrst | ⟨-, hattach⟩ := hduty
  · simp [hturn] at hrst
  · exact ⟨by simp [takeTurn, hattach hb], by simp [State.noReset, hturn]; simpa using hrest⟩

/-- A property that no change of levels touches and every move of a busy block keeps is kept by a run without a reset. -/
theorem runCommand_induction_of_noReset {P : State → Prop} (hlevels : ∀ u l r, P u → P { u with levels := l, script := r })
    (hmove : ∀ u v, u.busy = true → P u → Move u v → P v) {k : Nat} {s t : State} (hs : P s) (hr : s.noReset = true)
    (h : runCommand k s = .next t) : P t := by
  induction k generalizing s with
  | zero => cases h; exact hs
  | succ k ih =>
    simp only [runCommand] at h
    split at h
    · rename_i hgo
      have hb : s.busy = true := (Bool.and_eq_true_iff.1 hgo).1
      split at h
      · rename_i v hv
        obtain ⟨u, hu, hedge⟩ := tick_cases hv
        obtain ⟨heq, hur⟩ := hostTurn_busy hb hr hu
        have hub : u.busy = true := hostTurn_keeps_busy hu ▸ hb
        have hPu : P u := heq ▸ hlevels s _ _ hs
        have hrst : u.levels.rst = false := by
          simp only [State.noReset, Bool.and_eq_true, Bool.not_eq_true'] at hur; exact hur.1
        obtain ⟨hr', -⟩ | ⟨-, hm⟩ := edge_cases hedge
        · simp [hrst] at hr'
        · obtain ⟨hl, hsc⟩ := edge_keeps_host hedge
          exact ih (hmove u v hub hPu hm) (by rw [State.noReset, hl, hsc]; exact hur) h
      · cases h
      · cases h
    · cases h; exact hs

theorem exec_induction_of_noReset {P : State → Prop} (hlevels : ∀ u l r, P u → P { u with levels := l, script := r })
    (hmove : ∀ u v, u.busy = true → P u → Move u v → P v) {s t : State} {i : Instr} (hgo : s.startsCommand = true)
    (hr : s.noReset = true) (hs : P (enter .tok (offerCommand i s))) (h : exec i s = .next t) : P t := by
  rw [exec_eq_commandCycle, commandCycle, edge_startsCommand (s := offerCommand i s) hgo] at h
  exact runCommand_induction_of_noReset hlevels hmove hs hr h

/-- Outside the body and the run of a shift no move touches the engine's side. -/
theorem Move.keeps_engineSide {s u v : State} (h : Move u v) (hbody : u.fst ≠ .shBody) (hrun : u.fst ≠ .shRun)
    (hv : v.fst ≠ .shRun) (hs : engineSideKept s u) : engineSideKept s v := by
  cases h with
  | bodyByte b rest _ hf => exact absurd hf hbody
  | bodyLast b rest _ hf => exact absurd hf hbody
  | noBody => simp at hv
  | stay => exact hs
  | wait => exact hs
  | _ => simp_all [engineSideKept, State.lines]

/-- The framer reads the token `b0 b1`, with `q` after it. -/
def State.ReadsToken (b0 b1 : Byte) (q : List Byte) (u : State) : Prop :=
  (u.cntR = 0 ∧ u.stream = b0 :: b1 :: q) ∨ (u.cntR ≠ 0 ∧ u.tokR.extractLsb' 8 8 = b0 ∧ u.stream = b1 :: q)

/-- From TOK on a known token the framer ends the command, reads the token's second byte, or goes to the token's state. -/
theorem Move.readsToken {b0 b1 : Byte} {q : List Byte} {u v : State} (h : Move u v) (hf : u.fst = .tok)
    (hu : u.ReadsToken b0 b1 q) :
    v.fst = .done ∨ (v.fst = .tok ∧ v.ReadsToken b0 b1 q) ∨
      ((tokenOf b0 b1, v.fst) ∈ dispatchTable ∧ v.cntR = 0 ∧ v.stream = q) := by
  cases h with
  | wait => exact .inr (.inl ⟨hf, hu⟩)
  | tokFirst b rest hs _ hc =>
    obtain ⟨-, hstream⟩ | ⟨hne, -⟩ := hu
    · rw [hs] at hstream
      cases hstream
      exact .inr (.inl ⟨hf, .inr ⟨by simp, tokenOf_high _ _, rfl⟩⟩)
    · exact absurd hc hne
  | dispatch f b rest hs _ hc ht =>
    obtain ⟨h0, -⟩ | ⟨-, hhigh, hstream⟩ := hu
    · exact absurd h0 hc
    · rw [hs] at hstream
      cases hstream
      exact .inr (.inr ⟨by simpa [hhigh] using ht, rfl, rfl⟩)
  | raise => exact .inl rfl
  | badToken => exact .inl rfl
  | stay hb => simp [State.busy, hf, Fst.isBusy] at hb
  | replyEnd hr => simp [hf, Fst.isReply] at hr
  | emit b hr => simp [hf, Fst.isReply] at hr
  | emitLast b hr => simp [hf, Fst.isReply] at hr
  | _ => simp_all

/-! SETTCK. -/

/-- Where the framer is from `cmd_go` on when the stream begins with the token of SETTCK. -/
def State.SettckPhase (q : List Byte) (u : State) : Prop :=
  match u.fst with
  | .tok => u.ReadsToken 0x73 0x65 q
  | .stRead | .stReply | .done | .idle | .halt => True
  | .init | .fatal | .giSkip | .giReply | .shSkip | .shLen | .shCheck | .shBody | .shRun | .shReply => False

theorem Move.keeps_settckPhase {q : List Byte} {u v : State} (h : Move u v) (hb : u.busy = true) (hu : u.SettckPhase q) :
    v.SettckPhase q := by
  have hnext := h.fst_mem_next
  cases hf : u.fst <;> simp only [State.SettckPhase, hf] at hu
  case tok =>
    obtain hdone | ⟨htok, hreads⟩ | ⟨hmem, -, -⟩ := h.readsToken hf hu
    · simp only [State.SettckPhase, hdone]
    · simpa only [State.SettckPhase, htok] using hreads
    · have hst : v.fst = .stRead := by
        obtain ⟨h, -⟩ | ⟨-, h⟩ | ⟨h, -⟩ := mem_dispatchTable.1 hmem
        · exact absurd h (by decide)
        · exact h
        · exact absurd h (by decide)
      simp only [State.SettckPhase, hst]
  case idle => simp [State.busy, hf, Fst.isBusy] at hb
  case halt => simp [State.busy, hf, Fst.isBusy] at hb
  all_goals cases hv : v.fst <;> simp [hf, hv, Fst.next, State.SettckPhase] at hnext ⊢

/-- What SETTCK keeps along its run. -/
structure SettckKept (s : State) (q : List Byte) (u : State) : Prop where
  engine : engineSideKept s u
  lenR : u.lenR = s.lenR
  nbytesR : u.nbytesR = s.nbytesR
  delayR : u.delayR = s.delayR
  params : u.params = s.params
  phase : u.SettckPhase q

/-- Only the states of SHIFT write the length registers. -/
theorem Move.keeps_len {u v : State} (h : Move u v) (hlen : u.fst ≠ .shLen) (hcheck : u.fst ≠ .shCheck) :
    v.lenR = u.lenR ∧ v.nbytesR = u.nbytesR := by
  cases h with
  | _ => simp_all

theorem Move.keeps_settckKept {s : State} {q : List Byte} {u v : State} (h : Move u v) (hb : u.busy = true) (hu : SettckKept s q u) :
    SettckKept s q v := by
  obtain ⟨hengine, hlen, hn, hdelay, hparams, hphase⟩ := hu
  have hphase' := h.keeps_settckPhase hb hphase
  have hout : ∀ {w : State}, w.SettckPhase q → w.fst ≠ .shLen ∧ w.fst ≠ .shCheck ∧ w.fst ≠ .shBody ∧ w.fst ≠ .shRun := by
    intro w hw
    refine ⟨?_, ?_, ?_, ?_⟩ <;> intro hf <;> simp only [State.SettckPhase, hf] at hw
  obtain ⟨h1, h2, h3, h4⟩ := hout hphase
  obtain ⟨hlen', hn'⟩ := h.keeps_len h1 h2
  exact ⟨h.keeps_engineSide h3 h4 (hout hphase').2.2.2 hengine, hlen'.trans hlen, hn'.trans hn, h.keeps_delayR.trans hdelay,
    h.keeps_params.trans hparams, hphase'⟩

/-- Settles O31: after its token SETTCK goes through ST_READ and ST_REPLY only. -/
theorem settckFrame : Obligations.SettckFrame := by
  intro s t rem5 period hgo hr h _
  have hkept : SettckKept s (rem5 ++ wordBytes period ++ s.stream) t := by
    refine exec_induction_of_noReset (fun u l r hu => ⟨hu.engine, hu.lenR, hu.nbytesR, hu.delayR, hu.params, hu.phase⟩)
      (fun u v hb hu hm => hm.keeps_settckKept hb hu) hgo hr ⟨?_, rfl, rfl, rfl, rfl, .inl ⟨rfl, ?_⟩⟩ h
    · simp [engineSideKept, State.lines]
    · simp [encode, tokenBytes, tokenSettck]
  exact ⟨hkept.engine, hkept.lenR, hkept.nbytesR, hkept.delayR, hkept.params⟩

/-! SHIFT. -/

/-- Where the framer is from `cmd_go` on when the stream begins with a SHIFT of `len` bits, `q` after the length. -/
def State.ShiftPhase (rem4 : List Byte) (len : Word) (q : List Byte) (u : State) : Prop :=
  match u.fst with
  | .tok => u.ReadsToken 0x73 0x68 (rem4 ++ wordBytes len ++ q)
  | .shSkip => u.stream = rem4.drop u.cntR ++ wordBytes len ++ q
  | .shLen => u.stream = (wordBytes len).drop u.cntR ++ q ∧ sameLowBytes u.cntR u.lenR len
  | .shCheck => u.lenR = len
  | .shBody | .shRun | .shReply => u.lenR = len ∧ fitsCapacity u.params.capacity (nbytesOf len) = true
  | .done | .idle | .halt => True
  | .init | .fatal | .giSkip | .giReply | .stRead | .stReply => False

theorem drop_wordBytes {k : Nat} (w : Word) (hk : k < 4) :
    (wordBytes w).drop k = byteOf w k :: (wordBytes w).drop (k + 1) := by
  obtain rfl | rfl | rfl | rfl : k = 0 ∨ k = 1 ∨ k = 2 ∨ k = 3 := by omega
  all_goals rfl

theorem Move.shiftPhase_of_tok {rem4 : List Byte} {len : Word} {q : List Byte} {u v : State} (h : Move u v)
    (hf : u.fst = .tok) (hu : u.ShiftPhase rem4 len q) : v.ShiftPhase rem4 len q := by
  obtain hdone | ⟨htok, hreads⟩ | ⟨hmem, hcnt, hstream⟩ := h.readsToken hf (by simpa only [State.ShiftPhase, hf] using hu)
  · simp only [State.ShiftPhase, hdone]
  · simpa only [State.ShiftPhase, htok] using hreads
  · have hsh : v.fst = .shSkip := by
      obtain ⟨h, -⟩ | ⟨h, -⟩ | ⟨-, h⟩ := mem_dispatchTable.1 hmem
      · exact absurd h (by decide)
      · exact absurd h (by decide)
      · exact h
    simp [State.ShiftPhase, hsh, hcnt, hstream]

/-- What is left of the stream after a byte in SH_SKIP. -/
theorem State.ShiftPhase.rest_of_shSkip {rem4 : List Byte} {len : Word} {q : List Byte} {u : State} {b : Byte} {rest : List Byte}
    (hu : u.ShiftPhase rem4 len q) (hf : u.fst = .shSkip) (hc : u.cntR < rem4.length) (hs : u.stream = b :: rest) :
    rest = rem4.drop (u.cntR + 1) ++ wordBytes len ++ q := by
  simp only [State.ShiftPhase, hf] at hu
  rw [hs, List.drop_eq_getElem_cons hc] at hu
  simpa using (List.cons.inj hu).2

/-- A byte in SH_LEN is the next byte of the length. -/
theorem State.ShiftPhase.next_of_shLen {rem4 : List Byte} {len : Word} {q : List Byte} {u : State} {b : Byte} {rest : List Byte}
    (hu : u.ShiftPhase rem4 len q) (hf : u.fst = .shLen) (hc : u.cntR < 4) (hs : u.stream = b :: rest) :
    (wordBytes len).drop (u.cntR + 1) ++ q = rest ∧ sameLowBytes (u.cntR + 1) (setByte u.lenR u.cntR b) len := by
  simp only [State.ShiftPhase, hf] at hu
  obtain ⟨hstream, hlow⟩ := hu
  rw [hs, drop_wordBytes len hc, List.cons_append, List.cons.injEq] at hstream
  obtain ⟨rfl, hrest⟩ := hstream
  exact ⟨hrest.symm, sameLowBytes_setByte hc hlow⟩

theorem Move.keeps_shiftPhase {rem4 : List Byte} {len : Word} {q : List Byte} {u v : State} (hrem : rem4.length = 4)
    (h : Move u v) (hb : u.busy = true) (hrun : u.RunOk) (hu : u.ShiftPhase rem4 len q) : v.ShiftPhase rem4 len q := by
  have hfield := hrun.field
  by_cases htok : u.fst = .tok
  · exact h.shiftPhase_of_tok htok hu
  cases h with
  | wait => exact hu
  | begin hf => simp [State.busy, hf, Fst.isBusy] at hb
  | skip b rest hs hf =>
    obtain ⟨hf, -⟩ | ⟨hf, -⟩ | ⟨hf, hc⟩ := hf
    · simp only [State.ShiftPhase, hf] at hu
    · simp only [State.ShiftPhase, hf] at hu
    · simpa [State.ShiftPhase, hf] using hu.rest_of_shSkip hf (by omega) hs
  | shSkipLast b rest hs hf hc =>
    simp only [State.FieldOk, hf] at hfield
    have hrest := hu.rest_of_shSkip hf (by omega) hs
    rw [List.drop_eq_nil_of_le (by omega)] at hrest
    simp [State.ShiftPhase, hrest, sameLowBytes_zero]
  | lenByte b rest hs hf hc =>
    obtain ⟨hrest, hlow⟩ := hu.next_of_shLen hf (by omega) hs
    simpa [State.ShiftPhase, hf, hrest] using hlow
  | lenLast b rest hs hf hc =>
    simp only [State.FieldOk, hf] at hfield
    obtain ⟨-, hlow⟩ := hu.next_of_shLen hf hfield hs
    rw [show u.cntR = 3 by omega] at hlow
    simpa [State.ShiftPhase] using eq_of_sameLowBytes hlow
  | noBody hf hn =>
    simp only [State.ShiftPhase, hf] at hu
    subst hu
    simp [State.ShiftPhase, fitsCapacity, hn]
  | body hf hfit =>
    simp only [State.ShiftPhase, hf] at hu
    subst hu
    exact ⟨rfl, decide_eq_true hfit⟩
  | emit b hf => cases h : u.fst <;> simp [State.ShiftPhase, h, Fst.isReply] at hu hf ⊢; exact hu
  | _ => simp_all [State.ShiftPhase]

/-- What a SHIFT of `len` bits keeps along its run. -/
structure ShiftKept (s : State) (rem4 : List Byte) (len : Word) (q : List Byte) (u : State) : Prop where
  run : u.RunOk
  echoR : u.echoR = s.echoR
  delayR : u.delayR = s.delayR
  params : u.params = s.params
  scratch : ∀ a, 2 * (nbytesOf len).toNat ≤ a → u.scratch.read a = s.scratch.read a
  result : ∀ a, (nbytesOf len).toNat ≤ a → u.result.read a = s.result.read a
  engine : fitsCapacity s.params.capacity (nbytesOf len) = false → engineSideKept s u
  phase : u.ShiftPhase rem4 len q

/-- The body is the one writer of SCRATCH, below `2n`. -/
theorem Move.keeps_scratch_above {u v : State} (h : Move u v) (hrun : u.RunOk) {a : Nat}
    (ha : u.fst = .shBody → 2 * u.nBytes ≤ a) : v.scratch.read a = u.scratch.read a := by
  have hne : u.fst = .shBody → a ≠ u.cntR := fun hf => by
    have hfield := hrun.field
    simp only [State.FieldOk, hf] at hfield
    have := ha hf
    omega
  cases h with
  | bodyByte b rest _ hf => simpa using Memory.read_write_other _ _ (hne hf)
  | bodyLast b rest _ hf => simpa using Memory.read_write_other _ _ (hne hf)
  | _ => simp

/-- The chunks' stores are the one writer of RESULT, below `n` (R152). -/
theorem Move.keeps_result_above {u v : State} (h : Move u v) (hrun : u.RunOk) {a : Nat}
    (ha : u.fst = .shRun → u.nBytes ≤ a) : v.result.read a = u.result.read a := by
  have hstored : ∀ m : Memory, u.fst = .shRun → u.est = .eSample →
      Stored u.offR (chunkBytes u.bleftR) (sampleAndShift u).tdoW u.params.maxNbytes u.result m →
      m.read a = u.result.read a := fun m hf he hm => by
    have hfits := ((shiftPlace_iff_chunkOk (.inr (.inr he))).1 (hrun.place hf)).fits (hrun.accepted.1 (by simp [hf]))
    have := ha hf
    rw [hm.read, if_neg (by omega)]
  cases h with
  | nextChunk m _ _ hf he _ hm => simpa using hstored m hf he hm
  | lastChunk m hf he _ hm => simpa using hstored m hf he hm
  | _ => simp

theorem Move.keeps_echoR {u v : State} (h : Move u v) (hf : u.fst ≠ .stRead) : v.echoR = u.echoR := by
  cases h with
  | _ => simp_all

/-- A shift is under way only if it passes the check, and then `NBYTES_R` is its byte length. -/
theorem State.ShiftPhase.running {rem4 : List Byte} {len : Word} {q : List Byte} {u : State} (hu : u.ShiftPhase rem4 len q)
    (hrun : u.RunOk) (hf : u.fst = .shBody ∨ u.fst = .shRun) :
    u.nBytes = (nbytesOf len).toNat ∧ fitsCapacity u.params.capacity (nbytesOf len) = true := by
  have hn := hrun.accepted.1 (by tauto)
  obtain ⟨hlen, hfit⟩ : u.lenR = len ∧ fitsCapacity u.params.capacity (nbytesOf len) = true := by
    obtain hf | hf := hf <;> simpa only [State.ShiftPhase, hf] using hu
  exact ⟨by rw [State.nBytes, hn, hlen], hfit⟩

theorem Move.keeps_shiftKept {s : State} {rem4 : List Byte} {len : Word} {q : List Byte} {u v : State}
    (hrem : rem4.length = 4) (h : Move u v) (hb : u.busy = true) (hu : ShiftKept s rem4 len q u) : ShiftKept s rem4 len q v := by
  obtain ⟨hrun, hecho, hdelay, hparams, hscr, hres, hengine, hphase⟩ := hu
  have hrun' := h.keeps_runOk hrun
  have hphase' := h.keeps_shiftPhase hrem hb hrun hphase
  have hst : u.fst ≠ .stRead := fun hf => by simp only [State.ShiftPhase, hf] at hphase
  refine ⟨hrun', (h.keeps_echoR hst).trans hecho, h.keeps_delayR.trans hdelay, h.keeps_params.trans hparams,
    fun a ha => ?_, fun a ha => ?_, fun hno => ?_, hphase'⟩
  · exact (h.keeps_scratch_above hrun fun hf => (hphase.running hrun (.inl hf)).1 ▸ ha).trans (hscr a ha)
  · exact (h.keeps_result_above hrun fun hf => (hphase.running hrun (.inr hf)).1 ▸ ha).trans (hres a ha)
  · have hidle : ∀ {w : State}, w.params = s.params → w.ShiftPhase rem4 len q → w.RunOk →
        w.fst ≠ .shBody ∧ w.fst ≠ .shRun := fun hp hw hwrun =>
      ⟨fun hf => by simp [← hp, (hw.running hwrun (.inl hf)).2] at hno,
        fun hf => by simp [← hp, (hw.running hwrun (.inr hf)).2] at hno⟩
    obtain ⟨hbody, hshrun⟩ := hidle hparams hphase hrun
    exact h.keeps_engineSide hbody hshrun (hidle (h.keeps_params.trans hparams) hphase' hrun').2 (hengine hno)

/-- Settles O32: along the run of a SHIFT the buffers are written below its byte length only, and nothing of the engine's side
where the check fails. -/
theorem shiftFrame : Obligations.ShiftFrame := by
  intro s t rem4 len tms tdi hgo hr hwf h
  have hrem : rem4.length = 4 := by
    simp only [Instr.wellFormed, Bool.and_eq_true, decide_eq_true_eq] at hwf; exact hwf.1
  have hstart : ShiftKept s rem4 len (tms ++ tdi ++ s.stream) (enter .tok (offerCommand (.shift rem4 len tms tdi) s)) := by
    refine ⟨runOk_of_startsCommand _ hgo, rfl, rfl, rfl, fun _ _ => rfl, fun _ _ => rfl, fun _ => ?_, .inl ⟨rfl, ?_⟩⟩
    · simp [engineSideKept, State.lines]
    · simp [encode, tokenBytes, tokenShift]
  have hkept := exec_induction_of_noReset (P := ShiftKept s rem4 len (tms ++ tdi ++ s.stream))
    (fun u l r hu => ⟨⟨hu.run.field, hu.run.accepted, hu.run.body, hu.run.place, hu.run.reply, hu.run.code⟩, hu.echoR, hu.delayR,
      hu.params, hu.scratch, hu.result, hu.engine, hu.phase⟩)
    (fun u v hb hu hm => hm.keeps_shiftKept hrem hb hu) hgo hr hstart h
  exact ⟨hkept.echoR, hkept.delayR, hkept.params, hkept.scratch, hkept.result, hkept.engine⟩

end Sys2Proof.Machine

namespace Sys2Proof.Machine

/-! ### The ports -/

/-- Settles O8, by evaluation of the one state. -/
theorem stateAtReset : Obligations.StateAtReset := by
  unfold Obligations.StateAtReset
  decide

/-- Settles O12, one framer state at a time. -/
theorem outputPortLevels : Obligations.OutputPortLevels := by
  intro s
  refine ⟨rfl, rfl, rfl, ?_, ?_, ?_, ?_, ?_, ?_, rfl, ?_, ?_, ?_, ?_, ?_, ?_⟩
  · cases hf : s.fst <;> simp [State.outputs, State.busy, Fst.isBusy, hf]
  · simp [State.outputs, State.cmdDone]
  · intro hf; simp [State.outputs, State.cmdOutcome, State.cmdCause, State.cmdDone, hf]
  · intro hf; simp [State.outputs, State.cmdOutcome, State.cmdCause, State.cmdDone, hf]
  · simp [State.outputs, State.halted]
  · simp [State.outputs, State.fatal]
  · simp [State.outputs, State.rxReady, and_assoc]
  · simp [State.outputs, State.txValid]; tauto
  · intro hf; simp [State.outputs, State.txData, State.txValid, hf]
  · intro hf hc
    have hv : s.txValid = true := by simpa [State.txValid, State.replyTotal, hf, Fst.isReply, infoBytes] using hc
    refine ⟨hv, ?_⟩
    have hget : infoBytes[s.cntR]? = some infoBytes[s.cntR] := List.getElem?_eq_getElem hc
    simp [State.outputs, State.txData, hv, hf, giReplyByte, Except.toOption, hget]
  · intro hf hc
    have hv : s.txValid = true := by simpa [State.txValid, State.replyTotal, hf, Fst.isReply] using hc
    refine ⟨hv, ?_⟩
    simp [State.outputs, State.txData, hv, hf, stReplyByte, Except.toOption]
  · intro hf hc
    have hv : s.txValid = true := by simpa [State.txValid, State.replyTotal, hf, Fst.isReply] using hc
    refine ⟨hv, fun hn => ?_⟩
    have hin : s.cntR < s.bufSize .result := hc.trans_le hn
    simp only [State.outputs, State.txData, hv, hf, shReplyByte, readByte, hin, if_true, State.buf]
    cases s.result.read s.cntR <;> rfl

/-! ### The reads -/

/-- Settles O17: the first edge puts its byte into the high half, the second dispatches on both. -/
theorem tokenDispatch : Obligations.TokenDispatch := by
  intro s b0 b1 rest hf hc hsteady hs
  obtain ⟨hscript, hl⟩ : s.script = [] ∧ s.levels.serving = true := by
    simpa [State.steady] using hsteady
  have hr : s.levels.rst = false := by
    simp only [Levels.serving, Bool.and_eq_true, Bool.not_eq_true'] at hl; tauto
  have hfirst : tick s = .next (setTok (b0 ++ s.tokR.extractLsb' 0 8) (consumeByte b0 (b1 :: rest) s)) := by
    rw [tick_nil hscript]
    simp [edge, hr, hf, tokEdge, readEdge_serving hl hs, tokByte, hc, Result.ofExcept]
  have hsecond : ∀ u : State, u.fst = .tok → u.cntR ≠ 0 → u.levels = s.levels → u.script = [] → u.stream = b1 :: rest →
      tick u = .next (dispatchToken (setTok (tokenOf (u.tokR.extractLsb' 8 8) b1) (consumeByte b1 rest u))) := by
    intro u huf huc hul hus hust
    rw [tick_nil hus]
    simp [edge, hr, hul, huf, tokEdge, readEdge_serving (hul ▸ hl) hust, tokByte, huc, Result.ofExcept, tokenOf]
  have hboth : setTok (tokenOf ((b0 ++ s.tokR.extractLsb' 0 8).extractLsb' 8 8) b1) (consumeByte b1 rest
      (setTok (b0 ++ s.tokR.extractLsb' 0 8) (consumeByte b0 (b1 :: rest) s))) =
      { s with
        tokR := tokenOf b0 b1, cntR := 2, stream := rest, trace := s.trace ++ [.consume b0, .consume b1] } := by
    rw [show (b0 ++ s.tokR.extractLsb' 0 8).extractLsb' 8 8 = b0 from tokenOf_high _ _]
    simp [setTok, consumeByte, record, hc]
  simp only [ticks, hfirst]
  rw [hsecond _ (by simp [hf]) (by simp) (by simp) (by simp [hscript]) (by simp), setTok_tokR, hboth]
  rfl

/-- What an edge that consumes the byte `b` leaves (R100): the end by an illegal token, or no end. -/
def ReadsByte (s : State) (b : Byte) (rest : List Byte) (t : State) : Prop :=
  t.stream = rest ∧ (t.fst = s.fst → t.cntR = s.cntR + 1) ∧
    (t.fst ≠ s.fst → (t.fst.isRead || t.fst.isReply) = true → t.cntR = 0) ∧
    if s.fst = .tok ∧ s.cntR ≠ 0 ∧ tokenOf (s.tokR.extractLsb' 8 8) b ∉ [tokenGetinfo, tokenSettck, tokenShift] then
      t.fst = .done ∧ t.trace = s.trace ++ [.consume b, .done .closeError .badToken]
    else t.fst ≠ .done ∧ t.trace = s.trace ++ [.consume b]

/-- A byte outside TOK does not end the command. -/
theorem readsByte_of_ne_tok {s t : State} {b : Byte} {rest : List Byte} (hf : s.fst ≠ .tok) (hstream : t.stream = rest)
    (htrace : t.trace = s.trace ++ [.consume b]) (hdone : t.fst ≠ .done) (hstay : t.fst = s.fst → t.cntR = s.cntR + 1)
    (hnext : t.fst ≠ s.fst → (t.fst.isRead || t.fst.isReply) = true → t.cntR = 0) : ReadsByte s b rest t :=
  ⟨hstream, hstay, hnext, by rw [if_neg fun h => hf h.1]; exact ⟨hdone, htrace⟩⟩

theorem tokByte_readsByte {s t : State} {b : Byte} {rest : List Byte} (hf : s.fst = .tok)
    (h : tokByte b (consumeByte b rest s) = .ok t) : ReadsByte s b rest t := by
  unfold tokByte at h
  rw [consumeByte_cntR] at h
  split at h <;> rename_i hc
  · cases h
    have hc : s.cntR = 0 := by omega
    exact ⟨rfl, fun _ => rfl, fun h => absurd rfl h, by rw [if_neg fun h => h.2.1 hc]; exact ⟨by simp [hf], rfl⟩⟩
  · have hc : s.cntR ≠ 0 := by omega
    have ht : t = dispatchToken (setTok (tokenOf (s.tokR.extractLsb' 8 8) b) (consumeByte b rest s)) := by cases h; rfl
    obtain ⟨f, hmem, heq⟩ | ⟨hbad, heq⟩ := dispatchToken_cases
      (setTok (tokenOf (s.tokR.extractLsb' 8 8) b) (consumeByte b rest s)) <;> rw [heq] at ht <;> subst ht
    · have hlegal : tokenOf (s.tokR.extractLsb' 8 8) b ∈ [tokenGetinfo, tokenSettck, tokenShift] := by
        obtain ⟨h, -⟩ | ⟨h, -⟩ | ⟨h, -⟩ := mem_dispatchTable.1 hmem <;> simp [← h]
      have hfst : f ≠ .tok ∧ f ≠ .done := by
        obtain rfl | rfl | rfl := fst_of_mem_dispatchTable hmem <;> decide
      refine ⟨rfl, fun h => absurd (h.trans hf) hfst.1, fun _ _ => rfl, ?_⟩
      rw [if_neg fun h => h.2.2 hlegal]
      exact ⟨hfst.2, rfl⟩
    · refine ⟨rfl, by simp [hf], by simp [Fst.isRead, Fst.isReply], ?_⟩
      rw [if_pos ⟨hf, hc, hbad⟩]
      exact ⟨rfl, by simp [Cond.outcome, Cond.cause]⟩

theorem stReadByte_readsByte {s t : State} {b : Byte} {rest : List Byte} (hf : s.fst = .stRead)
    (h : stReadByte b (consumeByte b rest s) = .ok t) : ReadsByte s b rest t := by
  unfold stReadByte at h
  split at h
  · cases h; apply readsByte_of_ne_tok <;> simp [hf]
  split at h <;> cases h
  · apply readsByte_of_ne_tok <;> simp [hf]
  · apply readsByte_of_ne_tok <;> simp [hf]

theorem shBodyByte_readsByte {s t : State} {b : Byte} {rest : List Byte} (hf : s.fst = .shBody)
    (h : shBodyByte b (consumeByte b rest s) = .ok t) : ReadsByte s b rest t := by
  unfold shBodyByte at h
  split at h
  · rename_i s1 hw
    obtain ⟨-, ⟨-, rfl⟩ | ⟨⟨⟩, -⟩⟩ := writeByte_cases hw
    split at h <;> cases h
    · apply readsByte_of_ne_tok <;> simp [hf, Fst.isRead, Fst.isReply]
    · apply readsByte_of_ne_tok <;> simp [hf]
  · cases h

/-- An edge in a read state is one attempt at `RxByte` (R100). -/
theorem edge_of_isRead {s : State} (hr : s.levels.rst = false) (hf : s.fst.isRead = true) :
    ∃ f, edge s = .ofExcept (readEdge f s) ∧
      ∀ b rest t, f b (consumeByte b rest s) = .ok t → ReadsByte s b rest t := by
  cases hs : s.fst <;> simp only [hs, Fst.isRead, Bool.false_eq_true] at hf
  case tok => exact ⟨tokByte, by simp [edge, hr, hs, tokEdge], fun b rest t h => tokByte_readsByte hs h⟩
  case giSkip =>
    refine ⟨giSkipByte, by simp [edge, hr, hs, giSkipEdge], fun b rest t h => ?_⟩
    unfold giSkipByte at h
    split at h <;> cases h <;> apply readsByte_of_ne_tok <;> simp [hs]
  case stRead => exact ⟨stReadByte, by simp [edge, hr, hs, stReadEdge], fun b rest t h => stReadByte_readsByte hs h⟩
  case shSkip =>
    refine ⟨shSkipByte, by simp [edge, hr, hs, shSkipEdge], fun b rest t h => ?_⟩
    unfold shSkipByte at h
    split at h <;> cases h <;> apply readsByte_of_ne_tok <;> simp [hs]
  case shLen =>
    refine ⟨shLenByte, by simp [edge, hr, hs, shLenEdge], fun b rest t h => ?_⟩
    unfold shLenByte at h
    split at h <;> cases h <;> apply readsByte_of_ne_tok <;> simp [hs, Fst.isRead, Fst.isReply]
  case shBody => exact ⟨shBodyByte, by simp [edge, hr, hs, shBodyEdge], fun b rest t h => shBodyByte_readsByte hs h⟩

/-- Settles O15: the order of `RxByte`, and what each state does with its byte. -/
theorem readEdgeOrder : Obligations.ReadEdgeOrder := by
  intro s hf hr
  obtain ⟨f, hedge, hbyte⟩ := edge_of_isRead hr hf
  have hoffer : s.rxValid = true ↔ s.levels.rxOffer = true ∧ ∃ b rest, s.stream = b :: rest := by
    cases hs : s.stream <;> simp [State.rxValid, hs]
  have hnone : s.levels.shutdown = false → s.levels.rxErr = false → s.rxValid = false →
      rxByte s = if s.levels.rxEof then (if s.fst = .tok ∧ s.cntR = 0 then .raise .cleanClose else .raise .shortRead) else .wait := by
    intro hsd he hv
    simp only [rxByte, hsd, he, Bool.false_eq_true, if_false]
    split
    · rename_i b rest ho hs
      simp [State.rxValid, ho, hs] at hv
    · rfl
  refine ⟨fun hsd => ?_, fun hsd he => ?_, fun hsd he hv => ?_, fun hsd he hv heof => ?_, fun hsd he hv heof => ?_⟩
  · simp [hedge, readEdge, rxByte, hsd, Result.ofExcept]
  · simp [hedge, readEdge, rxByte, hsd, he, Result.ofExcept]
  · obtain ⟨ho, b, rest, hs⟩ := hoffer.1 hv
    have hrx : rxByte s = .byte b (consumeByte b rest s) := rxByte_byte_iff.2 ⟨hsd, he, ho, rest, hs, rfl⟩
    refine ⟨b, rest, hs, fun t ht => hbyte b rest t ?_⟩
    simpa [hedge, readEdge, hrx] using ht
  · by_cases hx : s.fst = .tok ∧ s.cntR = 0
    · simp [hedge, readEdge, hnone hsd he hv, heof, hx, Result.ofExcept]
    · simp [hedge, readEdge, hnone hsd he hv, heof, if_neg hx, Result.ofExcept]
  · simp [hedge, readEdge, hnone hsd he hv, heof, Result.ofExcept]

/-! ### The check of a shift's length -/

theorem setByte_byteOf (w : Word) (j : Nat) : setByte w j (byteOf w j) = w := by
  apply BitVec.eq_of_getLsbD_eq
  intro i hi
  rw [getLsbD_setByte _ _ _ _ hi]
  split
  · simp only [byteOf, BitVec.getLsbD_extractLsb', show i - 8 * j < 8 by omega, decide_true, Bool.true_and]
    congr 1; omega
  · rfl

/-- The last byte of a little-endian word set (R111). -/
theorem setByte_last (w : Word) (b : Byte) : setByte w 3 b = le32 (byteOf w 0) (byteOf w 1) (byteOf w 2) b := by
  rw [← setByte_le32 w, setByte_byteOf, setByte_byteOf, setByte_byteOf]

theorem nbytesOf_eq_zero_iff (len : Word) : nbytesOf len = 0 ↔ len = 0 := by
  rw [← BitVec.toNat_inj, ← BitVec.toNat_inj, toNat_nbytesOf, ceilBytes]
  show (len.toNat + 7) / 8 = 0 ↔ len.toNat = 0
  omega

/-- Settles O37: one byte completes LEN_R, and the check reads no level of the host's. -/
theorem capacityCheckEdge : Obligations.CapacityCheckEdge := by
  intro s hr
  refine ⟨fun b rest len hf hc hl hs hlen => ?_, fun hf => ?_⟩
  · have hbyte : shLenByte b (consumeByte b rest s) =
        .ok (setFst .shCheck (latchBytes (setLenByte 3 b (consumeByte b rest s)))) := by
      simp [shLenByte, hc]
    simp only [edge, hr, hf, shLenEdge, readEdge_serving hl hs, hbyte]
    simp [Result.ofExcept, setFst, latchBytes, setLenByte, consumeByte, record, hc, setByte_last, hlen]
  · have hfit : fitsCapacity s.params.capacity (nbytesOf s.lenR) = false ↔ s.params.capacity < 2 * ceilBytes s.lenR := by
      simp [fitsCapacity, toNat_nbytesOf]
    simp only [edge, hr, hf, shCheckEdge, hfit, nbytesOf_eq_zero_iff]
    rfl

end Sys2Proof.Machine

/-! PROOFS for the family of 20_memory.md. The accesses of R62 first, then the chunk's load and store made of them, the order of
the events of a command, and the whole of an accepted shift. -/

namespace Sys2Proof.Machine

/-! ### MemRead and MemWrite (R62) -/

/-- The contents of either buffer set. -/
def setBuf : Buf → Memory → State → State
  | .scratch => setScratch
  | .result => setResult

@[simp] theorem setBuf_buf_same (buf : Buf) (m : Memory) (s : State) : (setBuf buf m s).buf buf = m := by cases buf <;> rfl

theorem setBuf_buf_other {buf b : Buf} (m : Memory) (s : State) (h : b ≠ buf) : (setBuf buf m s).buf b = s.buf b := by
  cases buf <;> cases b
  · exact absurd rfl h
  · rfl
  · rfl
  · exact absurd rfl h

@[simp] theorem setBuf_bufSize (buf b : Buf) (m : Memory) (s : State) : (setBuf buf m s).bufSize b = s.bufSize b := by
  cases buf <;> cases b <;> rfl

@[simp] theorem setBuf_trace (buf : Buf) (m : Memory) (s : State) : (setBuf buf m s).trace = s.trace := by cases buf <;> rfl

@[simp] theorem setBuf_setBuf (buf : Buf) (m m' : Memory) (s : State) : setBuf buf m' (setBuf buf m s) = setBuf buf m' s := by
  cases buf <;> rfl

theorem writeByte_ok {buf : Buf} {a : Nat} {s : State} (b : Byte) (ha : a < s.bufSize buf) :
    writeByte buf a b s = .ok (setBuf buf ((s.buf buf).write a b) s) := by
  cases buf with
  | scratch => exact writeByte_scratch ha
  | result => exact writeByte_result ha

/-- The bytes of a word after its lowest. -/
theorem byteOf_ushiftRight (v : Word) (j : Nat) : byteOf (v >>> 8) j = byteOf v (j + 1) := by
  apply BitVec.eq_of_getLsbD_eq
  intro i hi
  simp only [byteOf, BitVec.getLsbD_extractLsb', BitVec.getLsbD_ushiftRight]
  congr 2; omega

/-- `MemWrite` inside its buffer sets the `k` bytes at `a` to the low bytes of the word. -/
theorem memWrite_ok {buf : Buf} {s : State} {k a : Nat} {v : Word} (h : a + k ≤ s.bufSize buf) :
    ∃ m, memWrite buf a k v s = .ok (setBuf buf m s) ∧
      ∀ x, m.read x = if a ≤ x ∧ x < a + k then some (byteOf v (x - a)) else (s.buf buf).read x := by
  induction k generalizing a v s with
  | zero => exact ⟨s.buf buf, by cases buf <;> rfl, fun x => by rw [if_neg (by omega)]⟩
  | succ k ih =>
    obtain ⟨m, hm, hread⟩ := ih (a := a + 1) (v := v >>> 8) (s := setBuf buf ((s.buf buf).write a (byteOf v 0)) s)
      (by rw [setBuf_bufSize]; omega)
    refine ⟨m, by simp only [memWrite, writeByte_ok _ (show a < s.bufSize buf by omega), hm, setBuf_setBuf], fun x => ?_⟩
    rw [hread, setBuf_buf_same, Memory.read_write]
    by_cases hx : x = a
    · subst hx
      rw [if_neg (by omega), if_pos rfl, if_pos (by omega), Nat.sub_self]
    · by_cases hin : a + 1 ≤ x ∧ x < a + 1 + k
      · rw [if_pos hin, if_pos (by omega), byteOf_ushiftRight, show x - (a + 1) + 1 = x - a by omega]
      · rw [if_neg hin, if_neg hx, if_neg (by omega)]

/-- A word with a byte below it is the byte and 256 times the word, where nothing is shifted out. -/
theorem toNat_shiftLeft_or_byte {w : Word} (b : Byte) (hw : w.toNat < 2 ^ 24) :
    (w <<< 8 ||| b.setWidth 32).toNat = b.toNat + 256 * w.toNat := by
  have hb := b.isLt
  rw [BitVec.toNat_or, BitVec.toNat_shiftLeft, BitVec.toNat_setWidth, Nat.mod_eq_of_lt (by rw [Nat.shiftLeft_eq]; omega),
    Nat.mod_eq_of_lt (by omega), ← Nat.shiftLeft_add_eq_or_of_lt hb, Nat.shiftLeft_eq]
  omega

/-- `MemRead` of at most four bytes is their little-endian value. -/
theorem memRead_value {buf : Buf} {s : State} {k a : Nat} {f : Nat → Byte} (hk : k ≤ 4)
    (h : ∀ j < k, readByte buf (a + j) s = .ok (f j)) :
    ∃ w, memRead buf a k s = .ok w ∧ w.toNat < 256 ^ k ∧
      w.toNat = ((List.range k).map fun j => (f j).toNat * 256 ^ j).sum := by
  induction k generalizing a f with
  | zero => exact ⟨0, rfl, by simp, by simp⟩
  | succ k ih =>
    obtain ⟨w, hw, hlt, hval⟩ := ih (a := a + 1) (f := fun j => f (j + 1)) (by omega) fun j hj => by
      have := h (j + 1) (by omega)
      rwa [show a + (j + 1) = a + 1 + j by omega] at this
    have h0 := h 0 (by omega)
    have hpow : 256 ^ k ≤ 256 ^ 3 := Nat.pow_le_pow_right (by omega) (by omega)
    have hnat := toNat_shiftLeft_or_byte (w := w) (f 0) (by omega)
    have hb := (f 0).isLt
    refine ⟨w <<< 8 ||| (f 0).setWidth 32, by rw [Nat.add_zero] at h0; simp only [memRead, h0, hw], ?_, ?_⟩
    · rw [hnat, Nat.pow_succ]; omega
    · have hshift : ((List.range k).map fun j => (f (j + 1)).toNat * 256 ^ (j + 1)).sum = 256 * w.toNat := by
        rw [hval, ← List.sum_map_mul_left]
        congr 2
        funext j
        ring
      rw [hnat, List.range_succ_eq_map, List.map_cons, List.map_map, List.sum_cons, ← hshift]
      simp [Function.comp_def]

/-- Settles O47, by induction on the number of bytes. -/
theorem memReadAndMemWrite : Obligations.MemReadAndMemWrite := by
  intro s buf a k _ hk hin
  refine ⟨fun f hf => ?_, fun v => ?_⟩
  · obtain ⟨w, hw, -, hval⟩ := memRead_value (f := f) hk fun j hj => readByte_ok (by omega) (hf j hj)
    exact ⟨w, hw, hval⟩
  · obtain ⟨m, hm, hread⟩ := memWrite_ok (v := v) hin
    refine ⟨_, hm, fun j hj => ?_, fun x hx => ?_, fun b hb => setBuf_buf_other m s hb, setBuf_trace buf m s⟩
    · rw [setBuf_buf_same, hread, if_pos (by omega), Nat.add_sub_cancel_left]
    · rw [setBuf_buf_same, hread, if_neg (by omega)]

/-! ### A chunk's load and store (R134, R135, R140, R141) -/

/-- `MemRead` of bytes that have been written: bit `i` is bit `i mod 8` of byte `i / 8`, and 0 past the bytes. -/
theorem memRead_bits {buf : Buf} {s : State} {a k n : Nat} (ha : a + k ≤ n) (hn : n ≤ s.bufSize buf)
    (hf : (s.buf buf).filled n) :
    ∃ w, memRead buf a k s = .ok w ∧ ∀ i < 32,
      w.getLsbD i = (decide (i < 8 * k) && (((s.buf buf).read (a + i / 8)).getD 0).getLsbD (i % 8)) :=
  memRead_ok (f := fun j => ((s.buf buf).read (a + j)).getD 0) fun j hj => by
    obtain ⟨b, hb, hr⟩ := readByte_filled (a := a + j) (by omega) hn hf
    rw [hr, hb, Option.getD_some]

/-- The load of a chunk whose bytes lie in the body. -/
theorem chunkLoad_bits {s : State} (hoff : s.offR + chunkBytes s.bleftR ≤ s.nBytes) (hfit : 2 * s.nBytes ≤ s.params.capacity)
    (hf : s.scratch.filled (2 * s.nBytes)) :
    ∃ tmsW tdiW, chunkLoad s = .ok (startChunk tmsW tdiW s) ∧
      (∀ i < 32, tmsW.getLsbD i =
        (decide (i < 8 * chunkBytes s.bleftR) && ((s.scratch.read (s.offR + i / 8)).getD 0).getLsbD (i % 8))) ∧
      ∀ i < 32, tdiW.getLsbD i =
        (decide (i < 8 * chunkBytes s.bleftR) && ((s.scratch.read (s.nBytes + s.offR + i / 8)).getD 0).getLsbD (i % 8)) := by
  obtain ⟨tmsW, htms, htmsBits⟩ := memRead_bits (buf := .scratch) (s := s) (a := s.offR) (k := chunkBytes s.bleftR)
    (by omega) hfit hf
  obtain ⟨tdiW, htdi, htdiBits⟩ := memRead_bits (buf := .scratch) (s := s) (a := s.nBytes + s.offR)
    (k := chunkBytes s.bleftR) (by omega) hfit hf
  exact ⟨tmsW, tdiW, by simp only [chunkLoad, htms, htdi], htmsBits, htdiBits⟩

/-- Settles O45: the two words are read from the body, and the load sets nothing but the chunk's registers. -/
theorem chunkLoadIsLittleEndian : Obligations.ChunkLoadIsLittleEndian := by
  intro s _ hoff hfit hf
  obtain ⟨tmsW, tdiW, hload, htms, htdi⟩ := chunkLoad_bits hoff hfit hf
  refine ⟨_, hload, rfl, rfl, ?_, htms, htdi, rfl, rfl, rfl, rfl⟩
  rw [startChunk_nstepR, toNat_ofNat_chunkSteps, chunkSteps]
  split <;> omega

/-- The store of a chunk that lies within RESULT. -/
theorem chunkStore_ok {s : State} (h : s.offR + chunkBytes s.bleftR ≤ s.params.maxNbytes) :
    ∃ m, chunkStore s = .ok (advanceChunk (setResult m s)) ∧
      ∀ x, m.read x =
        if s.offR ≤ x ∧ x < s.offR + chunkBytes s.bleftR then some (byteOf s.tdoW (x - s.offR)) else s.result.read x := by
  obtain ⟨m, hm, hread⟩ := memWrite_ok (buf := .result) (v := s.tdoW) h
  exact ⟨m, by simp only [chunkStore, hm]; rfl, hread⟩

/-- Settles O46: the bytes of the chunk's length at `OFF_R` are those of `TDO_W`. -/
theorem chunkStoreIsLittleEndian : Obligations.ChunkStoreIsLittleEndian := by
  intro s h
  obtain ⟨m, hm, hread⟩ := chunkStore_ok h
  refine ⟨_, hm, rfl, rfl, fun j hj => ?_, fun a ha => ?_, rfl, rfl, rfl⟩
  · rw [advanceChunk_result, setResult_result, hread, if_pos (by omega), Nat.add_sub_cancel_left]
  · rw [advanceChunk_result, setResult_result, hread, if_neg (by omega)]

end Sys2Proof.Machine

namespace Sys2Proof.Machine

/-! ### The order of a command's events (R72) -/

/-- A property that every turn of the clock of a busy block keeps holds after a run. -/
theorem runCommand_induction_of_busy {P : State → Prop} (hk : ∀ u v, u.busy = true → P u → tick u = .next v → P v)
    {k : Nat} {s t : State} (hs : P s) (h : runCommand k s = .next t) : P t := by
  induction k generalizing s with
  | zero => cases h; exact hs
  | succ k ih =>
    simp only [runCommand] at h
    split at h
    · rename_i hgo
      split at h
      · rename_i v hv; exact ih (hk s v (Bool.and_eq_true_iff.1 hgo).1 hs hv) h
      · cases h
      · cases h
    · cases h; exact hs

/-- A property that holds once `cmd_go` is taken and is kept while the block is busy holds after the command. -/
theorem exec_induction_of_busy {P : State → Prop} (hk : ∀ u v, u.busy = true → P u → tick u = .next v → P v)
    {s t : State} {i : Instr} (hgo : s.startsCommand = true) (hs : P (enter .tok (offerCommand i s)))
    (h : exec i s = .next t) : P t := by
  rw [exec_eq_commandCycle, commandCycle, edge_startsCommand (s := offerCommand i s) hgo] at h
  exact runCommand_induction_of_busy hk hs h

/-- A turn of the clock of a busy block: a reset, or an edge under some levels on the same stream (R123). -/
theorem tick_cases_of_busy {s t : State} (hb : s.busy = true) (h : tick s = .next t) :
    (t.fst = .init ∧ t.trace = s.trace) ∨
      ∃ l r, l.rst = false ∧ edge { s with levels := l, script := r } = .next t ∧
        Move { s with levels := l, script := r } t := by
  obtain ⟨u, hu, he⟩ := tick_cases h
  obtain ⟨hr, rfl⟩ | ⟨hr, hm⟩ := edge_cases he
  · obtain ⟨_, _, _, rfl⟩ := hostTurn_eq hu
    exact .inl ⟨rfl, rfl⟩
  · obtain ⟨-, rfl⟩ | ⟨turn, rest, -, rfl, hrst | ⟨-, hattach⟩⟩ := hostTurn_cases hu
    · exact .inr ⟨u.levels, u.script, hr, he, hm⟩
    · simp [hrst] at hr
    · have hkeep : takeTurn turn rest s = { s with levels := turn.levels, script := rest } := by
        simp [takeTurn, hattach hb]
      exact .inr ⟨turn.levels, rest, hr, hkeep ▸ he, hkeep ▸ hm⟩

/-- The bytes `bs` come on the stream after the events `tr`: some have been consumed, which is all that has happened, and the
others are next on the stream. -/
def State.Consumed (tr : List Event) (bs : List Byte) (u : State) : Prop :=
  ∃ c : List Byte, u.trace = tr ++ c.map .consume ∧ c ++ u.stream = bs

theorem State.Consumed.byte {tr : List Event} {bs : List Byte} {u v : State} {b : Byte} (h : u.Consumed tr bs)
    (hstream : u.stream = b :: v.stream) (htrace : v.trace = u.trace ++ [.consume b]) : v.Consumed tr bs := by
  obtain ⟨c, hc, hbs⟩ := h
  exact ⟨c ++ [b], by simp [htrace, hc], by simp [← hbs, hstream]⟩

theorem State.Consumed.of_eq {tr : List Event} {bs : List Byte} {u v : State} (h : u.Consumed tr bs)
    (hstream : v.stream = u.stream) (htrace : v.trace = u.trace) : v.Consumed tr bs := by
  obtain ⟨c, hc, hbs⟩ := h
  exact ⟨c, htrace.trans hc, by rw [hstream, hbs]⟩

/-- What a command cycle may end with. -/
def IsEnding (last : List Event) : Prop :=
  last = [] ∨ (∃ o c, last = [.done o c]) ∨ last = [.done .shutdown .shutdown, .halt]

/-- The events `tr` are those of `s` and then, in the order of R72: bytes of `i` and of what follows it on the stream, the
engine's events, which only a SHIFT has, the bytes emitted, and the last events. -/
structure EventForm (s : State) (i : Instr) (engine : List Event) (emitted : List Byte) (last tr : List Event) : Prop where
  trace : ∃ c : List Byte, tr = s.trace ++ c.map .consume ++ engine ++ emitted.map .emit ++ last ∧ c <+: encode i ++ s.stream
  all : (engine.all fun e => e.isWrite || e.isSample) = true
  shift : engine = [] ∨ i.token = tokenShift

section
variable {s u : State} {i : Instr} {engine last tr : List Event} {emitted : List Byte}

theorem State.Consumed.eventForm (h : u.Consumed s.trace (encode i ++ s.stream)) : EventForm s i [] [] [] u.trace := by
  obtain ⟨c, hc, hbs⟩ := h
  exact ⟨⟨c, by simpa using hc, ⟨u.stream, hbs⟩⟩, rfl, .inl rfl⟩

theorem EventForm.addEngine {l : List Event} (h : EventForm s i engine [] [] tr)
    (hl : (l.all fun e => e.isWrite || e.isSample) = true) (hi : i.token = tokenShift) :
    EventForm s i (engine ++ l) [] [] (tr ++ l) := by
  obtain ⟨⟨c, hc, hbs⟩, hengine, -⟩ := h
  exact ⟨⟨c, by simp [hc], hbs⟩, by simp only [List.all_append, hengine, hl, Bool.and_self], .inr hi⟩

theorem EventForm.addEmit (b : Byte) (h : EventForm s i engine emitted [] tr) :
    EventForm s i engine (emitted ++ [b]) [] (tr ++ [.emit b]) := by
  obtain ⟨⟨c, hc, hbs⟩, hengine, hshift⟩ := h
  exact ⟨⟨c, by simp [hc], hbs⟩, hengine, hshift⟩

theorem EventForm.addLast (l : List Event) (h : EventForm s i engine emitted last tr) :
    EventForm s i engine emitted (last ++ l) (tr ++ l) := by
  obtain ⟨⟨c, hc, hbs⟩, hengine, hshift⟩ := h
  exact ⟨⟨c, by simp [hc], hbs⟩, hengine, hshift⟩

end

/-- The states of SHIFT after its token (R24). -/
def Fst.isShift : Fst → Bool
  | .shSkip | .shLen | .shCheck | .shBody | .shRun | .shReply => true
  | .init | .idle | .tok | .giSkip | .giReply | .stRead | .stReply | .done | .halt | .fatal => false

/-- The token being read is that of `i`, and only that of SHIFT leads to the states of SHIFT. -/
structure State.TokenOk (i : Instr) (u : State) : Prop where
  reads : u.fst = .tok → ∃ b0 b1 q, tokenOf b0 b1 = i.token ∧ u.ReadsToken b0 b1 q
  shift : u.fst.isShift = true → i.token = tokenShift

/-- Inside a command TOK is not entered again, and the states of SHIFT are entered from TOK only. -/
theorem Fst.next_of_busy (f : Fst) : f.isBusy = true → f ≠ .tok →
    (f.next.all fun g => decide (g ≠ .tok) && (!g.isShift || f.isShift)) = true := by
  cases f <;> decide

theorem Move.keeps_tokenOk {i : Instr} {u v : State} (h : Move u v) (hb : u.busy = true) (hu : u.TokenOk i) : v.TokenOk i := by
  by_cases htok : u.fst = .tok
  · obtain ⟨b0, b1, q, hi, hreads⟩ := hu.reads htok
    obtain hdone | ⟨htok', hreads'⟩ | ⟨hmem, -, -⟩ := h.readsToken htok hreads
    · exact ⟨by simp [hdone], by simp [hdone, Fst.isShift]⟩
    · exact ⟨fun _ => ⟨b0, b1, q, hi, hreads'⟩, by simp [htok', Fst.isShift]⟩
    · obtain ⟨-, hf⟩ | ⟨-, hf⟩ | ⟨ht, hf⟩ := mem_dispatchTable.1 hmem
      · exact ⟨by simp [hf], by simp [hf, Fst.isShift]⟩
      · exact ⟨by simp [hf], by simp [hf, Fst.isShift]⟩
      · exact ⟨by simp [hf], fun _ => hi.symm.trans ht⟩
  · have hfrom := List.all_eq_true.1 (u.fst.next_of_busy hb htok) _ h.fst_mem_next
    simp only [Bool.and_eq_true, decide_eq_true_eq, Bool.or_eq_true, Bool.not_eq_true'] at hfrom
    obtain ⟨hv, hshift⟩ := hfrom
    exact ⟨fun hf => absurd hf hv, fun hf => hu.shift (hshift.resolve_left (by simp [hf]))⟩

/-! What a move of a busy block adds to the trace, by the group of its framer state. -/

/-- The move from `u` to `v` ends the command, after the events `l`. -/
def EndsAfter (l : List Event) (u v : State) : Prop :=
  ∃ o c, v.fst = .done ∧ v.outcomeR = o.code ∧ (o = .shutdown → c = .shutdown) ∧ v.trace = u.trace ++ l ++ [.done o c]

theorem endsAfter_finish {o : CmdOutcome} {c : Cause} {l : List Event} {u v : State} (ho : o = .shutdown → c = .shutdown)
    (hv : v.trace = u.trace ++ l) : EndsAfter l u (finish o c v) := ⟨o, c, rfl, rfl, ho, by simp [hv]⟩

theorem endsAfter_raiseCond {x : Cond} {l : List Event} {u v : State} (hv : v.trace = u.trace ++ l) :
    EndsAfter l u (raiseCond x v) := endsAfter_finish (by cases x <;> decide) hv

/-- In a read state and in SH_CHECK: a byte consumed, or nothing, and perhaps the end. -/
theorem Move.events_of_read {u v : State} (h : Move u v) (hf : u.fst.isRead = true ∨ u.fst = .shCheck) :
    (v.fst ≠ .done ∧ v.stream = u.stream ∧ v.trace = u.trace) ∨ EndsAfter [] u v ∨
      ∃ b, u.stream = b :: v.stream ∧
        ((v.fst ≠ .done ∧ v.trace = u.trace ++ [.consume b]) ∨ EndsAfter [.consume b] u v) := by
  cases h with
  | raise => exact .inr (.inl (endsAfter_raiseCond (by simp)))
  | oversize => exact .inr (.inl (endsAfter_raiseCond (by simp)))
  | badToken b rest hs => exact .inr (.inr ⟨b, by simpa using hs, .inr (endsAfter_raiseCond (by simp))⟩)
  | dispatch f b rest hs _ _ ht =>
    obtain rfl | rfl | rfl := fst_of_mem_dispatchTable ht <;> exact .inr (.inr ⟨b, hs, .inl ⟨by simp, by simp⟩⟩)
  | skip b rest hs hskip =>
    refine .inr (.inr ⟨b, hs, .inl ⟨?_, by simp⟩⟩)
    obtain ⟨h, -⟩ | ⟨h, -⟩ | ⟨h, -⟩ := hskip <;> simp [h]
  | halt h => obtain h | h := h <;> simp [h, Fst.isRead] at hf
  | wait => exact .inl ⟨fun hd => by simp [hd, Fst.isRead] at hf, rfl, rfl⟩
  | stay hb => exact .inl ⟨fun hd => by simp [hd, Fst.isRead] at hf, rfl, rfl⟩
  | emit b hr => cases h : u.fst <;> simp_all [Fst.isRead, Fst.isReply]
  | emitLast b hr => cases h : u.fst <;> simp_all [Fst.isRead, Fst.isReply]
  | replyEnd hr => cases h : u.fst <;> simp_all [Fst.isRead, Fst.isReply]
  | _ => simp_all [Fst.isRead]

/-- In SH_RUN: writes and samples only. -/
theorem Move.events_of_run {u v : State} (h : Move u v) (hf : u.fst = .shRun) :
    (v.fst = .shRun ∨ v.fst = .shReply) ∧
      ∃ l, v.trace = u.trace ++ l ∧ (l.all fun e => e.isWrite || e.isSample) = true := by
  refine ⟨by simpa [hf, Fst.next] using h.fst_mem_next, eventsSince u v, ?_⟩
  cases h with
  | raise x hr => simp [hf, Fst.isRead, Fst.isReply] at hr
  | replyEnd hr => simp [hf, Fst.isReply] at hr
  | emit b hr => simp [hf, Fst.isReply] at hr
  | emitLast b hr => simp [hf, Fst.isReply] at hr
  | _ => simp_all [eventsSince, Event.isWrite, Event.isSample]

/-- In a reply state: a byte emitted, or nothing, and perhaps the end. -/
theorem Move.events_of_reply {u v : State} (h : Move u v) (hf : u.fst.isReply = true) :
    (v.fst = u.fst ∧ v.trace = u.trace) ∨ EndsAfter [] u v ∨
      ∃ b, (v.fst = u.fst ∧ v.trace = u.trace ++ [.emit b]) ∨ EndsAfter [.emit b] u v := by
  cases h with
  | wait => exact .inl ⟨rfl, rfl⟩
  | stay => exact .inl ⟨rfl, rfl⟩
  | raise => exact .inr (.inl (endsAfter_raiseCond (by simp)))
  | replyEnd => exact .inr (.inl (endsAfter_finish nofun (by simp)))
  | emit b => exact .inr (.inr ⟨b, .inl ⟨rfl, rfl⟩⟩)
  | emitLast b => exact .inr (.inr ⟨b, .inr (endsAfter_finish nofun (by simp))⟩)
  | skip b rest hs hskip => obtain ⟨h, -⟩ | ⟨h, -⟩ | ⟨h, -⟩ := hskip <;> simp [h, Fst.isReply] at hf
  | halt h => obtain h | h := h <;> simp [h, Fst.isReply] at hf
  | _ => simp_all [Fst.isReply]

/-- DONE is left for IDLE, or for HALT after SHUTDOWN with the event `Halt` (R119, R174, R177). -/
theorem edge_of_done {u v : State} (hf : u.fst = .done) (hr : u.levels.rst = false) (h : edge u = .next v) :
    (v.fst = .idle ∧ v.trace = u.trace) ∨
      (v.fst = .halt ∧ u.outcomeR = CmdOutcome.shutdown.code ∧ v.trace = u.trace ++ [.halt]) := by
  replace h : leaveDone u = .next v := by simpa [edge, hr, hf] using h
  unfold leaveDone at h
  split at h
  · cases h
  split at h
  · rename_i ho; cases h; exact .inr ⟨rfl, ho, rfl⟩
  · cases h
    refine .inl ?_
    unfold hostCloses
    split <;> exact ⟨rfl, rfl⟩

/-! The invariant. -/

/-- How far the events of `u` have come in each framer state. -/
def EventPhase (s : State) (i : Instr) (u : State) : Prop :=
  match u.fst with
  | .tok | .giSkip | .stRead | .shSkip | .shLen | .shCheck | .shBody => u.Consumed s.trace (encode i ++ s.stream)
  | .shRun => ∃ engine, EventForm s i engine [] [] u.trace
  | .giReply | .stReply | .shReply => ∃ engine emitted, EventForm s i engine emitted [] u.trace
  | .done =>
    ∃ engine emitted o c,
      EventForm s i engine emitted [.done o c] u.trace ∧ u.outcomeR = o.code ∧ (o = .shutdown → c = .shutdown)
  | .init | .idle | .halt | .fatal => ∃ engine emitted last, EventForm s i engine emitted last u.trace ∧ IsEnding last

section
variable {s u v : State} {i : Instr}

theorem EventPhase.ending (h : EventPhase s i u) :
    ∃ engine emitted last, EventForm s i engine emitted last u.trace ∧ IsEnding last := by
  cases hf : u.fst <;> simp only [EventPhase, hf] at h
  case shRun => obtain ⟨engine, h⟩ := h; exact ⟨_, _, _, h, .inl rfl⟩
  case giReply | stReply | shReply => obtain ⟨engine, emitted, h⟩ := h; exact ⟨_, _, _, h, .inl rfl⟩
  case done => obtain ⟨engine, emitted, o, c, h, -⟩ := h; exact ⟨_, _, _, h, .inr (.inl ⟨o, c, rfl⟩)⟩
  case init | idle | halt | fatal => exact h
  all_goals exact ⟨_, _, _, h.eventForm, .inl rfl⟩

theorem EndsAfter.eventPhase {l engine : List Event} {emitted : List Byte} (h : EndsAfter l u v)
    (hl : EventForm s i engine emitted [] (u.trace ++ l)) : EventPhase s i v := by
  obtain ⟨o, c, hf, ho, hc, ht⟩ := h
  simp only [EventPhase, hf, ht]
  exact ⟨engine, emitted, o, c, hl.addLast _, ho, hc⟩

/-- Where nothing but reads has happened, the command may go on in every state. -/
theorem EventPhase.of_consumed (h : u.Consumed s.trace (encode i ++ s.stream)) (hd : u.fst ≠ .done) : EventPhase s i u := by
  cases hf : u.fst <;> simp only [EventPhase, hf]
  case done => exact absurd hf hd
  case shRun => exact ⟨_, h.eventForm⟩
  case giReply | stReply | shReply => exact ⟨_, _, h.eventForm⟩
  case init | idle | halt | fatal => exact ⟨_, _, _, h.eventForm, .inl rfl⟩
  all_goals exact h

theorem EventPhase.consumed (h : EventPhase s i u) (hf : u.fst.isRead = true ∨ u.fst = .shCheck) :
    u.Consumed s.trace (encode i ++ s.stream) := by
  cases hs : u.fst <;> simp [hs, Fst.isRead] at hf <;> simpa only [EventPhase, hs] using h

theorem Move.eventPhase_of_read (h : Move u v) (hf : u.fst.isRead = true ∨ u.fst = .shCheck) (hu : EventPhase s i u) :
    EventPhase s i v := by
  have hc := hu.consumed hf
  obtain ⟨hd, hstream, htrace⟩ | hdone | ⟨b, hstream, ⟨hd, htrace⟩ | hdone⟩ := h.events_of_read hf
  · exact .of_consumed (hc.of_eq hstream htrace) hd
  · exact hdone.eventPhase (by simpa using hc.eventForm)
  · exact .of_consumed (hc.byte hstream htrace) hd
  · exact hdone.eventPhase (hc.byte (v := { v with trace := u.trace ++ [.consume b] }) hstream rfl).eventForm

theorem Move.eventPhase_of_run (h : Move u v) (hf : u.fst = .shRun) (hi : i.token = tokenShift) (hu : EventPhase s i u) :
    EventPhase s i v := by
  simp only [EventPhase, hf] at hu
  obtain ⟨engine, hu⟩ := hu
  obtain ⟨hv | hv, l, htrace, hl⟩ := h.events_of_run hf <;> simp only [EventPhase, hv, htrace]
  · exact ⟨_, hu.addEngine hl hi⟩
  · exact ⟨_, _, hu.addEngine hl hi⟩

theorem eventPhase_of_isReply (hf : u.fst.isReply = true) :
    EventPhase s i u ↔ ∃ engine emitted, EventForm s i engine emitted [] u.trace := by
  cases hs : u.fst <;> simp [hs, Fst.isReply] at hf <;> simp only [EventPhase, hs]

theorem Move.eventPhase_of_reply (h : Move u v) (hf : u.fst.isReply = true) (hu : EventPhase s i u) : EventPhase s i v := by
  obtain ⟨engine, emitted, hu⟩ := (eventPhase_of_isReply hf).1 hu
  obtain ⟨hv, htrace⟩ | hdone | ⟨b, ⟨hv, htrace⟩ | hdone⟩ := h.events_of_reply hf
  · exact (eventPhase_of_isReply (hv ▸ hf)).2 ⟨_, _, htrace ▸ hu⟩
  · exact hdone.eventPhase (by simpa using hu)
  · exact (eventPhase_of_isReply (hv ▸ hf)).2 ⟨_, _, htrace ▸ hu.addEmit b⟩
  · exact hdone.eventPhase (hu.addEmit b)

theorem eventPhase_of_done (h : edge u = .next v) (hr : u.levels.rst = false) (hf : u.fst = .done) (hu : EventPhase s i u) :
    EventPhase s i v := by
  simp only [EventPhase, hf] at hu
  obtain ⟨engine, emitted, o, c, hu, ho, hc⟩ := hu
  obtain ⟨hv, htrace⟩ | ⟨hv, hout, htrace⟩ := edge_of_done hf hr h <;> simp only [EventPhase, hv, htrace]
  · exact ⟨_, _, _, hu, .inr (.inl ⟨o, c, rfl⟩)⟩
  · have hsd : o = .shutdown := by
      rw [ho] at hout
      cases o with
      | shutdown => rfl
      | cont | close | closeError => exact absurd hout (by decide)
    exact ⟨_, _, _, hu.addLast _, .inr (.inr (by simp [hsd, hc hsd]))⟩

/-- Every turn of the clock of a busy block keeps the order. -/
theorem tick_keeps_eventPhase (hb : u.busy = true) (hu : u.TokenOk i ∧ EventPhase s i u) (h : tick u = .next v) :
    v.TokenOk i ∧ EventPhase s i v := by
  obtain ⟨htok, hu⟩ := hu
  obtain ⟨hv, htrace⟩ | ⟨l, r, hr, hedge, hm⟩ := tick_cases_of_busy hb h
  · exact ⟨⟨by simp [hv], by simp [hv, Fst.isShift]⟩, by simpa only [EventPhase, hv, htrace] using hu.ending⟩
  · refine ⟨hm.keeps_tokenOk hb ⟨htok.reads, htok.shift⟩, ?_⟩
    replace hu : EventPhase s i { u with levels := l, script := r } := hu
    cases hf : u.fst with
    | tok | giSkip | stRead | shSkip | shLen | shBody => exact hm.eventPhase_of_read (.inl (by simp [hf, Fst.isRead])) hu
    | shCheck => exact hm.eventPhase_of_read (.inr hf) hu
    | shRun => exact hm.eventPhase_of_run hf (htok.shift (by simp [hf, Fst.isShift])) hu
    | giReply | stReply | shReply => exact hm.eventPhase_of_reply (by simp [hf, Fst.isReply]) hu
    | done => exact eventPhase_of_done hedge hr hf hu
    | init | idle | halt | fatal => simp [State.busy, hf, Fst.isBusy] at hb

end

theorem tokenOk_of_startsCommand (s : State) (i : Instr) : (enter .tok (offerCommand i s)).TokenOk i := by
  refine ⟨fun _ => ?_, by simp [Fst.isShift]⟩
  obtain ⟨b0, b1, fields, hbytes, htoken⟩ : Laws.TokenFirst.Statement i := by
    cases i with
    | getinfo rem6 => exact Laws.TokenFirst.getinfo rem6
    | settck rem5 period => exact Laws.TokenFirst.settck rem5 period
    | shift rem4 len tms tdi => exact Laws.TokenFirst.shift rem4 len tms tdi
  exact ⟨b0, b1, fields ++ s.stream, htoken, .inl ⟨rfl, by simp [hbytes]⟩⟩

/-- Settles O36: at every turn of the clock the next event is of its phase or of a later one, and only the token of SHIFT leads
to the engine. -/
theorem eventOrderInACommand : Obligations.EventOrderInACommand := by
  intro s t i hgo h
  have hstart : EventPhase s i (enter .tok (offerCommand i s)) := ⟨[], by simp, rfl⟩
  obtain ⟨-, hphase⟩ := exec_induction_of_busy (P := fun u => u.TokenOk i ∧ EventPhase s i u)
    (fun _ _ hb hu ht => tick_keeps_eventPhase hb hu ht) hgo ⟨tokenOk_of_startsCommand s i, hstart⟩ h
  obtain ⟨engine, emitted, last, ⟨⟨c, htrace, hcons⟩, hengine, hshift⟩, hlast⟩ := hphase.ending
  refine ⟨c, emitted, engine, last, htrace, hcons, hengine, ?_, hlast⟩
  cases i with
  | getinfo | settck => simpa [Instr.token, tokenGetinfo, tokenSettck, tokenShift] using hshift
  | shift => trivial

end Sys2Proof.Machine

namespace Sys2Proof.Machine

/-! ### An accepted shift with a serving host (R109, R153)

The run is followed edge by edge. While the framer reads, what has been consumed and what is next on the stream are the command's
bytes; in SH_RUN the registers of the chunk say which bits of the vectors are still to come and which samples are in `TDO_W`; in
SH_REPLY the vector of the samples is in RESULT. -/

/-- What is given: a serving host and a SHIFT whose vectors have the bytes of its bit count, which fit. -/
structure ShiftGiven (s : State) (rem4 : List Byte) (len : Word) (tms tdi : List Byte) : Prop where
  serving : s.levels.serving = true
  rem : rem4.length = 4
  tms : tms.length = ceilBytes len
  tdi : tdi.length = ceilBytes len
  fits : 2 * ceilBytes len ≤ s.params.capacity

/-- `k` samples have been drawn since `s`. -/
def Drawn (s : State) (k : Nat) (u : State) : Prop := u.tdoDraws = s.tdoDraws.drop k ∧ u.draws = s.draws + k

/-- The events of a shift of `len` bits with `k` of them done (R144). -/
def shiftBegun (len : Nat) (tms tdi : List Byte) (v : Nat → Bool) (k : Nat) : List Event :=
  (if len = 0 then [] else [.write false (vectorBit tms 0) (vectorBit tdi 0)]) ++
    (List.range k).flatMap fun i => stepEvents (vectorBit tms i) (vectorBit tdi i) (v i)

/-- A SCRATCH that holds both vectors, one after the other (R114). -/
def HoldsBody (tms tdi : List Byte) (m : Memory) : Prop := ∀ j < tms.length + tdi.length, m.read j = (tms ++ tdi)[j]?

/-- A RESULT that holds the first `n` bytes of the TDO vector (R140, R141). -/
def HoldsTdo (s : State) (len : Word) (n : Nat) (m : Memory) : Prop :=
  ∀ a < n, m.read a = some (tdoByte len.toNat s.drawValue a)

/-- The events once the command's bytes are consumed. -/
def traceRead (s : State) (rem4 : List Byte) (len : Word) (tms tdi : List Byte) : List Event :=
  s.trace ++ (encode (.shift rem4 len tms tdi)).map .consume

/-- In a chunk with `k` bits of the shift done, and the events `l` of the step under way: the words hold the bits still to come
and the samples of this chunk, RESULT those of the chunks before. -/
structure InChunkAt (s : State) (rem4 : List Byte) (len : Word) (tms tdi : List Byte) (k : Nat) (l : List Event) (u : State) :
    Prop where
  place : k = 8 * u.offR + u.stepR.toNat
  trace : u.trace = traceRead s rem4 len tms tdi ++ shiftBegun len.toNat tms tdi s.drawValue k ++ l
  drawn : Drawn s k u
  tms : ∀ j, u.stepR.toNat + j < u.nstepR.toNat → u.tmsW.getLsbD j = vectorBit tms (k + j)
  tdi : ∀ j, u.stepR.toNat + j < u.nstepR.toNat → u.tdiW.getLsbD j = vectorBit tdi (k + j)
  tdo : ∀ j < 32, u.tdoW.getLsbD j = (decide (j < u.stepR.toNat) && s.drawValue (8 * u.offR + j))
  result : HoldsTdo s len u.offR u.result

/-- The writes of step `k` up to its rising edge (R139). -/
def stepWrites (tms tdi : List Byte) (k : Nat) : List Event :=
  [.write false (vectorBit tms k) (vectorBit tdi k), .write true (vectorBit tms k) (vectorBit tdi k)]

/-- Where the shift is in each engine state. -/
def EngineAt (s : State) (rem4 : List Byte) (len : Word) (tms tdi : List Byte) (u : State) : Prop :=
  match u.est with
  | .eIdle => False
  | .eStart => u.trace = traceRead s rem4 len tms tdi ∧ Drawn s 0 u
  | .eLow => ∃ k, InChunkAt s rem4 len tms tdi k [] u
  | .eHigh => ∃ k, InChunkAt s rem4 len tms tdi k [.write false (vectorBit tms k) (vectorBit tdi k)] u
  | .eSample => ∃ k, InChunkAt s rem4 len tms tdi k (stepWrites tms tdi k) u
  | .eRest =>
    u.trace = traceRead s rem4 len tms tdi ++ shiftBegun len.toNat tms tdi s.drawValue len.toNat ∧ Drawn s len.toNat u ∧
      HoldsTdo s len (ceilBytes len) u.result
  | .eFinish =>
    u.trace = traceRead s rem4 len tms tdi ++ shiftEvents len.toNat tms tdi s.drawValue ∧ Drawn s len.toNat u ∧
      HoldsTdo s len (ceilBytes len) u.result ∧ u.lines = restLines

/-- After the completion report. -/
structure ShiftedOut (s : State) (len : Word) (tms tdi : List Byte) (u : State) : Prop where
  lenR : u.lenR = len
  nbytesR : u.nbytesR = nbytesOf len
  est : u.est = .eIdle
  lines : u.lines = restLines
  dlyCnt : u.dlyCnt = 0
  stream : u.stream = s.stream
  body : HoldsBody tms tdi u.scratch
  tdo : HoldsTdo s len (ceilBytes len) u.result
  drawn : Drawn s len.toNat u

/-- How far the command has come in each framer state. -/
def ShiftProgress (s : State) (rem4 : List Byte) (len : Word) (tms tdi : List Byte) (u : State) : Prop :=
  match u.fst with
  | .tok | .shSkip | .shLen => u.Consumed s.trace (encode (.shift rem4 len tms tdi) ++ s.stream) ∧ Drawn s 0 u
  | .shCheck =>
    u.Consumed s.trace (encode (.shift rem4 len tms tdi) ++ s.stream) ∧ Drawn s 0 u ∧ u.stream = tms ++ tdi ++ s.stream
  | .shBody =>
    u.Consumed s.trace (encode (.shift rem4 len tms tdi) ++ s.stream) ∧ Drawn s 0 u ∧
      u.stream = (tms ++ tdi).drop u.cntR ++ s.stream ∧ ∀ j < u.cntR, u.scratch.read j = (tms ++ tdi)[j]?
  | .shRun => u.stream = s.stream ∧ HoldsBody tms tdi u.scratch ∧ EngineAt s rem4 len tms tdi u
  | .shReply =>
    ShiftedOut s len tms tdi u ∧
      u.trace = traceRead s rem4 len tms tdi ++ shiftEvents len.toNat tms tdi s.drawValue ++
        ((tdoVector len.toNat s.drawValue).take u.cntR).map .emit
  | .done | .idle =>
    ShiftedOut s len tms tdi u ∧ u.outcomeR = 0 ∧ u.causeR = 0 ∧
      u.trace = traceRead s rem4 len tms tdi ++ shiftEvents len.toNat tms tdi s.drawValue ++
        (tdoVector len.toNat s.drawValue).map .emit ++ [.done .cont .none]
  | .init | .giSkip | .giReply | .stRead | .stReply | .halt | .fatal => False

/-- The invariant of the run. -/
structure ShiftServed (s : State) (rem4 : List Byte) (len : Word) (tms tdi : List Byte) (u : State) : Prop where
  levels : u.levels = s.levels
  script : u.script = []
  kept : ShiftKept s rem4 len (tms ++ tdi ++ s.stream) u
  token : u.fst ≠ .tok → u.tokR = tokenShift
  progress : ShiftProgress s rem4 len tms tdi u

section
variable {s u v : State} {rem4 tms tdi : List Byte} {len : Word}

theorem engineAt_eStart (he : u.est = .eStart) :
    EngineAt s rem4 len tms tdi u ↔ u.trace = traceRead s rem4 len tms tdi ∧ Drawn s 0 u := by simp only [EngineAt, he]

theorem engineAt_eLow (he : u.est = .eLow) : EngineAt s rem4 len tms tdi u ↔ ∃ k, InChunkAt s rem4 len tms tdi k [] u := by
  simp only [EngineAt, he]

theorem engineAt_eHigh (he : u.est = .eHigh) :
    EngineAt s rem4 len tms tdi u ↔
      ∃ k, InChunkAt s rem4 len tms tdi k [.write false (vectorBit tms k) (vectorBit tdi k)] u := by
  simp only [EngineAt, he]

theorem engineAt_eSample (he : u.est = .eSample) :
    EngineAt s rem4 len tms tdi u ↔ ∃ k, InChunkAt s rem4 len tms tdi k (stepWrites tms tdi k) u := by
  simp only [EngineAt, he]

theorem engineAt_eRest (he : u.est = .eRest) :
    EngineAt s rem4 len tms tdi u ↔
      u.trace = traceRead s rem4 len tms tdi ++ shiftBegun len.toNat tms tdi s.drawValue len.toNat ∧
        Drawn s len.toNat u ∧ HoldsTdo s len (ceilBytes len) u.result := by
  simp only [EngineAt, he]

theorem engineAt_eFinish (he : u.est = .eFinish) :
    EngineAt s rem4 len tms tdi u ↔
      u.trace = traceRead s rem4 len tms tdi ++ shiftEvents len.toNat tms tdi s.drawValue ∧ Drawn s len.toNat u ∧
        HoldsTdo s len (ceilBytes len) u.result ∧ u.lines = restLines := by
  simp only [EngineAt, he]

/-! The reads. -/

theorem Drawn.of_eq {k : Nat} (h : Drawn s k u) (ht : v.tdoDraws = u.tdoDraws) (hd : v.draws = u.draws) : Drawn s k v :=
  ⟨ht.trans h.1, hd.trans h.2⟩

/-- Only the engine draws samples. -/
theorem Move.keeps_drawn {k : Nat} (h : Move u v) (hf : u.fst ≠ .shRun) (hu : Drawn s k u) : Drawn s k v := by
  have hkeep : v.tdoDraws = u.tdoDraws ∧ v.draws = u.draws := by
    clear hu
    cases h with
    | _ => simp_all
  exact hu.of_eq hkeep.1 hkeep.2

theorem Move.keeps_tokR (h : Move u v) (hf : u.fst ≠ .tok) : v.tokR = u.tokR := by
  cases h with
  | _ => simp_all

/-- SH_SKIP is entered from TOK on the token of SHIFT only (R104). -/
theorem Move.tokR_of_shSkip (h : Move u v) (hf : u.fst = .tok) (hv : v.fst = .shSkip) : v.tokR = tokenShift := by
  cases h with
  | dispatch f b rest _ _ _ ht =>
    obtain ⟨-, hf'⟩ | ⟨-, hf'⟩ | ⟨ht, -⟩ := mem_dispatchTable.1 ht
    · simp [hf'] at hv
    · simp [hf'] at hv
    · exact ht
  | _ => simp_all

/-- The byte `b` completes no illegal token (R118). -/
def State.NoBadToken (b : Byte) (u : State) : Prop :=
  u.fst = .tok → u.cntR ≠ 0 → tokenOf (u.tokR.extractLsb' 8 8) b ∈ [tokenGetinfo, tokenSettck, tokenShift]

/-- A serving host's byte is consumed and does not end the command, unless it completes an illegal token. -/
theorem edge_read_serving {b : Byte} {rest : List Byte} (hl : u.levels.serving = true) (hf : u.fst.isRead = true)
    (hs : u.stream = b :: rest) (htok : u.NoBadToken b) (h : edge u = .next v) :
    v.fst ≠ .done ∧ u.stream = b :: v.stream ∧ v.trace = u.trace ++ [.consume b] := by
  simp only [Levels.serving, Bool.and_eq_true, Bool.not_eq_true'] at hl
  obtain ⟨⟨⟨⟨⟨hoffer, -⟩, hr⟩, herr⟩, -⟩, hsd⟩ := hl
  obtain ⟨-, -, hbyte, -⟩ := readEdgeOrder u hf hr
  obtain ⟨b', rest', hs', hread⟩ := hbyte hsd herr (by simp [State.rxValid, hoffer, hs])
  obtain ⟨rfl, rfl⟩ := List.cons.inj (hs.symm.trans hs')
  obtain ⟨hstream, -, -, hend⟩ := hread v h
  rw [if_neg fun hbad => hbad.2.2 (htok hbad.1 hbad.2.1)] at hend
  exact ⟨hend.1, by rw [hs, hstream], hend.2⟩

/-- The next byte of a list that is followed by others. -/
theorem getElem?_of_drop_append {l q rest : List Byte} {b : Byte} {c : Nat} (hc : c < l.length)
    (h : l.drop c ++ q = b :: rest) : l[c]? = some b ∧ rest = l.drop (c + 1) ++ q := by
  rw [List.drop_eq_getElem_cons hc, List.cons_append, List.cons.injEq] at h
  exact ⟨by rw [List.getElem?_eq_getElem hc, h.1], h.2.symm⟩

/-- Once the stream is as it was before the command, its bytes and no others have been consumed. -/
theorem State.Consumed.all {tr : List Event} {bs q : List Byte} (h : u.Consumed tr (bs ++ q)) (hq : u.stream = q) :
    u.trace = tr ++ bs.map .consume := by
  obtain ⟨c, hc, hbs⟩ := h
  rw [hq] at hbs
  rw [hc, List.append_cancel_right hbs]

theorem Move.cntR_of_shCheck (h : Move u v) (hf : u.fst = .shLen) (hv : v.fst = .shCheck) : 3 ≤ u.cntR := by
  cases h with
  | lenLast => assumption
  | _ => simp_all

theorem ShiftServed.nBytes_of_running (hu : ShiftServed s rem4 len tms tdi u) (hf : u.fst = .shBody ∨ u.fst = .shRun) :
    u.nBytes = ceilBytes len := by
  rw [(hu.kept.phase.running hu.kept.run hf).1, toNat_nbytesOf]

/-- In a read state the next byte is there, and it makes no illegal token. -/
theorem ShiftServed.next_byte (hin : ShiftGiven s rem4 len tms tdi) (hu : ShiftServed s rem4 len tms tdi u)
    (hf : u.fst.isRead = true) : ∃ b rest, u.stream = b :: rest ∧ u.NoBadToken b := by
  have hfield := hu.kept.run.field
  have hphase := hu.kept.phase
  have hcons : u.fst ≠ .tok → u.stream ≠ [] → ∃ b rest, u.stream = b :: rest ∧ u.NoBadToken b := fun hne hs => by
    obtain ⟨b, rest, hs⟩ := List.exists_cons_of_ne_nil hs
    exact ⟨b, rest, hs, fun h => absurd h hne⟩
  cases hs : u.fst <;> simp only [hs, Fst.isRead, Bool.false_eq_true] at hf <;> simp only [State.ShiftPhase, hs] at hphase
  case tok =>
    obtain ⟨h0, hstream⟩ | ⟨-, hhigh, hstream⟩ := hphase
    · exact ⟨_, _, hstream, fun _ hne => absurd h0 hne⟩
    · exact ⟨_, _, hstream, fun _ _ => by rw [hhigh]; decide⟩
  case shSkip => exact hcons (by simp [hs]) (by rw [hphase]; simp [wordBytes])
  case shLen =>
    simp only [State.FieldOk, hs] at hfield
    exact hcons (by simp [hs]) (by rw [hphase.1, drop_wordBytes len hfield]; simp)
  case shBody =>
    obtain ⟨-, -, hstream, -⟩ := by simpa only [ShiftProgress, hs] using hu.progress
    simp only [State.FieldOk, hs, hu.nBytes_of_running (.inl hs)] at hfield
    refine hcons (by simp [hs]) fun hnil => ?_
    have hlen := congrArg List.length (hstream.symm.trans hnil)
    simp only [List.length_append, List.length_drop, hin.tms, hin.tdi, List.length_nil] at hlen
    omega

/-- A byte of the body goes to its place in SCRATCH. -/
theorem body_byte_stored {b : Byte} {m : Memory} {body : List Byte} {c : Nat} (hm : ∀ j < c, m.read j = body[j]?)
    (hb : body[c]? = some b) : ∀ j < c + 1, (m.write c b).read j = body[j]? := by
  intro j hj
  rw [Memory.read_write]
  split
  · rename_i h; rw [h, hb]
  · exact hm j (by omega)

/-- In SH_BODY a move that does not end the command stores a byte, or waits (R114). -/
theorem Move.of_shBody (h : Move u v) (hf : u.fst = .shBody) (hd : v.fst ≠ .done) :
    v = u ∨ ∃ b rest, u.stream = b :: rest ∧
      ((u.cntR + 1 < 2 * u.nBytes ∧ v = setScratch (u.scratch.write u.cntR b) (consumeByte b rest u)) ∨
        (2 * u.nBytes ≤ u.cntR + 1 ∧ v = startEngine (setScratch (u.scratch.write u.cntR b) (consumeByte b rest u)))) := by
  cases h with
  | stay => exact .inl rfl
  | wait => exact .inl rfl
  | bodyByte b rest hs _ _ hc => exact .inr ⟨b, rest, hs, .inl ⟨hc, rfl⟩⟩
  | bodyLast b rest hs _ _ hc => exact .inr ⟨b, rest, hs, .inr ⟨hc, rfl⟩⟩
  | emit b hr => simp [hf, Fst.isReply] at hr
  | _ => simp_all

theorem ShiftServed.progress_of_shBody (hin : ShiftGiven s rem4 len tms tdi) (hu : ShiftServed s rem4 len tms tdi u)
    (hf : u.fst = .shBody) (hm : Move u v) (hd : v.fst ≠ .done) (hw : v.stream ≠ u.stream)
    (hread : v.Consumed s.trace (encode (.shift rem4 len tms tdi) ++ s.stream)) : ShiftProgress s rem4 len tms tdi v := by
  have hdrawn := hm.keeps_drawn (k := 0) (s := s) (by simp [hf])
  have hfield := hu.kept.run.field
  simp only [State.FieldOk, hf] at hfield
  have hbytes := hu.nBytes_of_running (.inl hf)
  have htms := hin.tms
  have htdi := hin.tdi
  have hlen : (tms ++ tdi).length = 2 * ceilBytes len := by rw [List.length_append]; omega
  obtain ⟨-, hdr, hstream, hscr⟩ := by simpa only [ShiftProgress, hf] using hu.progress
  obtain rfl | ⟨b, rest, hs, hv⟩ := hm.of_shBody hf hd
  · exact absurd rfl hw
  obtain ⟨hb, hrest⟩ := getElem?_of_drop_append (by omega) (hstream.symm.trans hs)
  obtain ⟨-, rfl⟩ | ⟨hlast, rfl⟩ := hv
  · simpa only [ShiftProgress, hf, setScratch_fst, consumeByte_fst] using
      ⟨hread, hdrawn hdr, hrest, body_byte_stored hscr hb⟩
  · have hnil : rest = s.stream := by rw [hrest, List.drop_eq_nil_of_le (by omega), List.nil_append]
    exact ⟨hnil, fun j hj => body_byte_stored hscr hb j (by omega), hread.all hnil, hdrawn hdr⟩

end

end Sys2Proof.Machine

namespace Sys2Proof.Machine

section
variable {s u v : State} {rem4 tms tdi : List Byte} {len : Word}

/-- A byte read from a serving host takes the command on. -/
theorem ShiftServed.progress_of_read (hin : ShiftGiven s rem4 len tms tdi) (hu : ShiftServed s rem4 len tms tdi u)
    (hf : u.fst.isRead = true) (hm : Move u v) (hedge : edge u = .next v)
    (hphase : v.ShiftPhase rem4 len (tms ++ tdi ++ s.stream)) :
    ShiftProgress s rem4 len tms tdi v ∧ (v.fst ≠ .tok → v.tokR = tokenShift) := by
  obtain ⟨b, rest, hs, htok⟩ := hu.next_byte hin hf
  obtain ⟨hd, hstream, htrace⟩ := edge_read_serving (hu.levels ▸ hin.serving) hf hs htok hedge
  have hread : u.Consumed s.trace (encode (.shift rem4 len tms tdi) ++ s.stream) →
      v.Consumed s.trace (encode (.shift rem4 len tms tdi) ++ s.stream) := fun h => h.byte hstream htrace
  have hdrawn := hm.keeps_drawn (k := 0) (s := s) (by rintro h; simp [h, Fst.isRead] at hf)
  have hnext := hm.fst_mem_next
  have hprogress := hu.progress
  cases hfst : u.fst <;> simp only [hfst, Fst.isRead, Bool.false_eq_true] at hf <;> simp only [ShiftProgress, hfst] at hprogress
  case tok =>
    obtain ⟨hcon, hdr⟩ := hprogress
    obtain hv | hv : v.fst = .tok ∨ v.fst = .shSkip := by
      cases hv : v.fst <;> simp [hfst, hv, Fst.next, State.ShiftPhase] at hnext hphase hd ⊢
    · exact ⟨by simpa only [ShiftProgress, hv] using ⟨hread hcon, hdrawn hdr⟩, fun h => absurd hv h⟩
    · exact ⟨by simpa only [ShiftProgress, hv] using ⟨hread hcon, hdrawn hdr⟩, fun _ => hm.tokR_of_shSkip hfst hv⟩
  all_goals refine ⟨?_, fun _ => (hm.keeps_tokR (by simp [hfst])).trans (hu.token (by simp [hfst]))⟩
  case shSkip =>
    obtain ⟨hcon, hdr⟩ := hprogress
    obtain hv | hv : v.fst = .shSkip ∨ v.fst = .shLen := by simpa [hfst, Fst.next, hd] using hnext
    all_goals simpa only [ShiftProgress, hv] using ⟨hread hcon, hdrawn hdr⟩
  case shLen =>
    obtain ⟨hcon, hdr⟩ := hprogress
    obtain hv | hv : v.fst = .shLen ∨ v.fst = .shCheck := by simpa [hfst, Fst.next, hd] using hnext
    · simpa only [ShiftProgress, hv] using ⟨hread hcon, hdrawn hdr⟩
    · have hc := hm.cntR_of_shCheck hfst hv
      have hfield := hu.kept.run.field
      simp only [State.FieldOk, hfst] at hfield
      obtain ⟨hrest, -⟩ := hu.kept.phase.next_of_shLen hfst hfield hstream
      rw [show u.cntR = 3 by omega] at hrest
      simpa only [ShiftProgress, hv] using ⟨hread hcon, hdrawn hdr, hrest.symm⟩
  case shBody =>
    exact hu.progress_of_shBody hin hfst hm hd (fun h => by simp [h] at hstream) (hread hprogress.1)

/-- The check passes, and the body or, where there is none, the engine follows (R113, R114). -/
theorem ShiftServed.progress_of_shCheck (hin : ShiftGiven s rem4 len tms tdi) (hu : ShiftServed s rem4 len tms tdi u)
    (hf : u.fst = .shCheck) (hr : u.levels.rst = false) (hedge : edge u = .next v) : ShiftProgress s rem4 len tms tdi v := by
  obtain ⟨hcon, hdrawn, hstream⟩ := by simpa only [ShiftProgress, hf] using hu.progress
  have hlen : u.lenR = len := by simpa only [State.ShiftPhase, hf] using hu.kept.phase
  obtain ⟨-, hcheck⟩ := capacityCheckEdge u hr
  rw [hcheck hf, hlen, hu.kept.params, if_neg (Nat.not_lt.2 hin.fits)] at hedge
  split at hedge <;> cases hedge
  · rename_i h0
    have hn : ceilBytes len = 0 := by rw [h0]; rfl
    obtain rfl := List.eq_nil_of_length_eq_zero (hin.tms.trans hn)
    obtain rfl := List.eq_nil_of_length_eq_zero (hin.tdi.trans hn)
    exact ⟨hstream, fun j hj => absurd hj (by simp), hcon.all hstream, hdrawn⟩
  · exact ⟨hcon, hdrawn, hstream, fun j hj => absurd hj (by simp)⟩

/-! The engine. -/

/-- A sample that is next for `u` is number `k` of those after `s`. -/
theorem Drawn.drawValue {k : Nat} (h : Drawn s k u) (hp : u.params = s.params) : u.drawValue 0 = s.drawValue k := by
  have hdraw : u.draw 0 = s.draw k := by
    simp only [State.draw, h.1, h.2, List.getElem?_drop, Nat.add_zero]
  rw [State.drawValue, State.drawValue, hdraw, hp]

theorem Drawn.sample {k : Nat} (h : Drawn s k u) (ht : v.tdoDraws = u.tdoDraws.tail) (hd : v.draws = u.draws + 1) :
    Drawn s (k + 1) v := ⟨by rw [ht, h.1, List.tail_drop], by rw [hd, h.2, Nat.add_assoc]⟩

theorem getLsbD_setBit (w : Word) {i j : Nat} (b : Bool) (hj : j < 32) :
    (setBit w i b).getLsbD j = if j = i then b else w.getLsbD j := by
  have hone : ((1 : Word) <<< i).getLsbD j = decide (j = i) := by
    rw [BitVec.getLsbD_shiftLeft]
    by_cases h : j < i
    · simp [h, h.ne]
    · simp [h, hj]; omega
  unfold setBit
  split
  · rename_i hb
    rw [BitVec.getLsbD_or, hone, hb]
    split <;> simp [*]
  · rename_i hb
    rw [BitVec.getLsbD_and, BitVec.getLsbD_not, hone, Bool.eq_false_of_not_eq_true hb]
    split <;> simp [*]

theorem shiftBegun_succ {n : Nat} (tms tdi : List Byte) (f : Nat → Bool) (k : Nat) :
    shiftBegun n tms tdi f (k + 1) = shiftBegun n tms tdi f k ++ stepEvents (vectorBit tms k) (vectorBit tdi k) (f k) := by
  simp [shiftBegun, List.range_succ]

/-- Of a chunk's bytes, the bits past its steps are those past the bit count. -/
theorem lt_chunkSteps_iff {n off b j i : Nat} (hoff : 8 * off = n - b) (hle : b ≤ n) (hj : j < chunkBytes b) (hi : i < 8) :
    8 * j + i < chunkSteps b ↔ 8 * (off + j) + i < n := by
  unfold chunkBytes at hj
  unfold chunkSteps
  split at hj <;> rename_i h <;> simp only [h, if_true, if_false] <;> omega

/-- A byte of the stored word is the byte of the TDO vector. -/
theorem byteOf_eq_tdoByte {w : Word} {n off b j : Nat} {f : Nat → Bool}
    (hw : ∀ i < 32, w.getLsbD i = (decide (i < chunkSteps b) && f (8 * off + i))) (hoff : 8 * off = n - b) (hle : b ≤ n)
    (hj : j < chunkBytes b) : byteOf w j = tdoByte n f (off + j) := by
  have := chunkBytes_le_four b
  apply BitVec.eq_of_getLsbD_eq
  intro i hi
  simp only [byteOf, BitVec.getLsbD_extractLsb', hw (8 * j + i) (by omega), lt_chunkSteps_iff hoff hle hj hi, tdoByte]
  simp [hi, show 8 * off + (8 * j + i) = 8 * (off + j) + i by ring]

/-- A bit loaded from SCRATCH is a bit of the vector that is there. -/
theorem getLsbD_of_read {m : Memory} {l : List Byte} {base off : Nat} (h : ∀ a < l.length, m.read (base + a) = l[a]?) {j : Nat}
    (hj : off + j / 8 < l.length) : ((m.read (base + off + j / 8)).getD 0).getLsbD (j % 8) = vectorBit l (8 * off + j) := by
  rw [Nat.add_assoc, h _ hj, vectorBit, List.getD_eq_getElem?_getD, show (8 * off + j) / 8 = off + j / 8 by omega,
    show (8 * off + j) % 8 = j % 8 by omega]

theorem HoldsBody.read_tms {m : Memory} (h : HoldsBody tms tdi m) : ∀ a < tms.length, m.read (0 + a) = tms[a]? := fun a ha => by
  rw [Nat.zero_add, h a (by omega), List.getElem?_append_left ha]

theorem HoldsBody.read_tdi {m : Memory} (h : HoldsBody tms tdi m) :
    ∀ a < tdi.length, m.read (tms.length + a) = tdi[a]? := fun a ha => by
  rw [h _ (by omega), List.getElem?_append_right (by omega), Nat.add_sub_cancel_left]

/-- A chunk's load puts the bits of the vectors from `8 * OFF_R` on into the words. -/
theorem chunkLoad_vectors (hbody : HoldsBody tms tdi u.scratch) (htms : tms.length = u.nBytes) (htdi : tdi.length = u.nBytes)
    (hfit : 2 * u.nBytes ≤ u.params.capacity) (hoff : u.offR + chunkBytes u.bleftR ≤ u.nBytes) :
    ∃ tmsW tdiW, chunkLoad u = .ok (startChunk tmsW tdiW u) ∧
      ∀ j < chunkSteps u.bleftR,
        tmsW.getLsbD j = vectorBit tms (8 * u.offR + j) ∧ tdiW.getLsbD j = vectorBit tdi (8 * u.offR + j) := by
  have hfilled : u.scratch.filled (2 * u.nBytes) := fun j hj => by
    rw [hbody j (by omega), List.getElem?_eq_getElem (by simp; omega)]; rfl
  obtain ⟨tmsW, tdiW, hload, hms, hdi⟩ := chunkLoad_bits hoff hfit hfilled
  refine ⟨tmsW, tdiW, hload, fun j hj => ?_⟩
  have h32 := chunkSteps_le_chunk u.bleftR
  have hin : j < 8 * chunkBytes u.bleftR := hj.trans_le (by unfold chunkSteps chunkBytes; split <;> omega)
  have h1 := getLsbD_of_read hbody.read_tms (off := u.offR) (j := j) (by omega)
  have h2 := getLsbD_of_read hbody.read_tdi (off := u.offR) (j := j) (by omega)
  rw [Nat.zero_add] at h1
  rw [htms] at h2
  rw [hms j (by omega), hdi j (by omega), decide_eq_true hin, Bool.true_and, Bool.true_and, h1, h2]
  exact ⟨rfl, rfl⟩

/-- What the framer's registers and SCRATCH hold in SH_RUN. -/
structure RunInput (s : State) (rem4 : List Byte) (len : Word) (tms tdi : List Byte) (u : State) : Prop where
  given : ShiftGiven s rem4 len tms tdi
  lenR : u.lenR = len
  nbytesR : u.nbytesR = nbytesOf u.lenR
  nBytes : u.nBytes = ceilBytes len
  params : u.params = s.params
  body : HoldsBody tms tdi u.scratch

theorem ShiftServed.runInput (hin : ShiftGiven s rem4 len tms tdi) (hu : ShiftServed s rem4 len tms tdi u) (hf : u.fst = .shRun) :
    RunInput s rem4 len tms tdi u := by
  obtain ⟨-, hbody, -⟩ := by simpa only [ShiftProgress, hf] using hu.progress
  obtain ⟨hlen, -⟩ := by simpa only [State.ShiftPhase, hf] using hu.kept.phase
  exact ⟨hin, hlen, hu.kept.run.accepted.1 (by simp [hf]), hu.nBytes_of_running (.inr hf), hu.kept.params, hbody⟩

theorem RunInput.fits (hr : RunInput s rem4 len tms tdi u) : 2 * u.nBytes ≤ u.params.capacity := by
  rw [hr.nBytes, hr.params]; exact hr.given.fits

/-- Every chunk whose bytes lie in the vectors is loaded from them. -/
theorem RunInput.load (hr : RunInput s rem4 len tms tdi u) (hs : v.scratch = u.scratch) (hn : v.nBytes = u.nBytes)
    (hp : v.params = u.params) (hoff : v.offR + chunkBytes v.bleftR ≤ u.nBytes) :
    ∃ tmsW tdiW, chunkLoad v = .ok (startChunk tmsW tdiW v) ∧
      ∀ j < chunkSteps v.bleftR,
        tmsW.getLsbD j = vectorBit tms (8 * v.offR + j) ∧ tdiW.getLsbD j = vectorBit tdi (8 * v.offR + j) := by
  refine chunkLoad_vectors (by rw [hs]; exact hr.body) ?_ ?_ ?_ (hn ▸ hoff)
  · rw [hn, hr.nBytes, hr.given.tms]
  · rw [hn, hr.nBytes, hr.given.tdi]
  · rw [hn, hp]; exact hr.fits

/-- The first step of a chunk that has just been loaded. -/
theorem InChunkAt.of_startChunk {k : Nat} {tmsW tdiW : Word} (hplace : k = 8 * u.offR)
    (htrace : u.trace = traceRead s rem4 len tms tdi ++ shiftBegun len.toNat tms tdi s.drawValue k) (hdrawn : Drawn s k u)
    (hbits : ∀ j < chunkSteps u.bleftR,
      tmsW.getLsbD j = vectorBit tms (8 * u.offR + j) ∧ tdiW.getLsbD j = vectorBit tdi (8 * u.offR + j))
    (htdo : HoldsTdo s len u.offR u.result) : InChunkAt s rem4 len tms tdi k [] (setEst .eLow (startChunk tmsW tdiW u)) := by
  have hstep : ∀ j, (0#6).toNat + j < (BitVec.ofNat 6 (chunkSteps u.bleftR)).toNat → j < chunkSteps u.bleftR := fun j hj => by
    rw [toNat_ofNat_chunkSteps] at hj; simpa using hj
  subst hplace
  exact ⟨by simp, by simpa using htrace, hdrawn.of_eq (by simp) (by simp), fun j hj => (hbits j (hstep j hj)).1,
    fun j hj => (hbits j (hstep j hj)).2, by simp, by simpa using htdo⟩

theorem engineAt_of_start (hr : RunInput s rem4 len tms tdi u) (htrace : u.trace = traceRead s rem4 len tms tdi)
    (hdrawn : Drawn s 0 u) (h : engineStart u = .ok v) : EngineAt s rem4 len tms tdi v := by
  by_cases h0 : len = 0
  · rw [engineStart_empty (hr.lenR.trans h0)] at h
    cases h
    subst h0
    exact (engineAt_eFinish rfl).2
      ⟨by simp [htrace, shiftEvents], hdrawn.of_eq (by simp) (by simp), fun a ha => absurd ha (by simp [ceilBytes]), rfl⟩
  · have hpos : 0 < len.toNat := Nat.pos_of_ne_zero fun hz => h0 (BitVec.eq_of_toNat_eq hz)
    have hn : 0 < ceilBytes len := by unfold ceilBytes; omega
    have htms := hr.given.tms
    have htdi := hr.given.tdi
    have hfit := hr.fits
    have hnb := hr.nBytes
    have hb0 : readByte .scratch 0 u = .ok (tms.getD 0 0) := by
      refine readByte_ok (by simp only [State.bufSize]; omega) ((hr.body.read_tms 0 (by omega)).trans ?_)
      rw [List.getD_eq_getElem?_getD, List.getElem?_eq_getElem (by omega), Option.getD_some]
    have hbn : readByte .scratch u.nBytes u = .ok (tdi.getD 0 0) := by
      have hread := hr.body.read_tdi 0 (by omega)
      rw [htms, ← hr.nBytes] at hread
      refine readByte_ok (by simp only [State.bufSize]; omega) (hread.trans ?_)
      rw [List.getD_eq_getElem?_getD, List.getElem?_eq_getElem (by omega), Option.getD_some]
    obtain ⟨tmsW, tdiW, hload, hbits⟩ := hr.load
      (v := startDelay (pinWrite false (vectorBit tms 0) (vectorBit tdi 0) (beginShift u))) rfl rfl rfl (by
        simp only [startDelay_offR, startDelay_bleftR, pinWrite_offR, pinWrite_bleftR, beginShift_offR, beginShift_bleftR,
          hr.nBytes, hr.lenR, ceilBytes]
        exact chunk_fits le_rfl (by simp) (by simp))
    have hstart : engineStart u = .ok (setEst .eLow (startChunk tmsW tdiW
        (startDelay (pinWrite false (vectorBit tms 0) (vectorBit tdi 0) (beginShift u))))) := by
      simp only [vectorBit, Nat.zero_div, Nat.zero_mod] at hload ⊢
      simp only [engineStart, hr.lenR, h0, hb0, hbn, hload, if_false]
    rw [hstart] at h
    cases h
    exact (engineAt_eLow rfl).2 ⟨0, .of_startChunk (by simp) (by simp [htrace, shiftBegun, hpos.ne'])
      (hdrawn.of_eq (by simp) (by simp)) hbits fun a ha => absurd ha (by simp)⟩

/-- What a sample leaves in `TDO_W`. -/
theorem InChunkAt.tdo_sample {k : Nat} {l : List Event} (hk : InChunkAt s rem4 len tms tdi k l u)
    (hp : u.params = s.params) :
    ∀ j < 32, (sampleAndShift u).tdoW.getLsbD j = (decide (j < u.stepR.toNat + 1) && s.drawValue (8 * u.offR + j)) := by
  intro j hj
  rw [sampleAndShift_tdoW, getLsbD_setBit _ _ hj, hk.drawn.drawValue hp, hk.tdo j hj]
  split
  · rename_i h; simp [h, hk.place]
  · rename_i h
    have hiff : j < u.stepR.toNat + 1 ↔ j < u.stepR.toNat := by omega
    simp only [hiff]

theorem InChunkAt.trace_sample {k : Nat}
    (hk : InChunkAt s rem4 len tms tdi k (stepWrites tms tdi k) u)
    (hp : u.params = s.params) :
    (sampleAndShift u).trace = traceRead s rem4 len tms tdi ++ shiftBegun len.toNat tms tdi s.drawValue (k + 1) := by
  rw [sampleAndShift_trace, hk.trace, hk.drawn.drawValue hp, shiftBegun_succ, stepEvents, stepWrites]
  simp

theorem Drawn.sampleAndShift {k : Nat} (h : Drawn s k u) : Drawn s (k + 1) (Machine.sampleAndShift u) := h.sample rfl rfl

/-- A sample that is not its chunk's last: the next bits move to the front of the words. -/
theorem InChunkAt.next_step {k : Nat}
    (hk : InChunkAt s rem4 len tms tdi k (stepWrites tms tdi k) u)
    (hp : u.params = s.params) (hchunk : u.ChunkOk) :
    InChunkAt s rem4 len tms tdi (k + 1) [] (setEst .eLow (sampleAndShift u)) := by
  have hstep : (u.stepR + 1).toNat = u.stepR.toNat + 1 := toNat_stepR_succ hchunk
  have hplace := hk.place
  refine ⟨?_, by simpa using hk.trace_sample hp, hk.drawn.sampleAndShift.of_eq (by simp) (by simp), fun j hj => ?_,
    fun j hj => ?_, fun j hj => ?_, by simpa using hk.result⟩
  · simp only [setEst_offR, sampleAndShift_offR, setEst_stepR, sampleAndShift_stepR, hstep]; omega
  · simp only [setEst_stepR, sampleAndShift_stepR, hstep, setEst_nstepR, sampleAndShift_nstepR] at hj
    rw [setEst_tmsW, sampleAndShift_tmsW, BitVec.getLsbD_ushiftRight, hk.tms _ (by omega)]
    congr 1; omega
  · simp only [setEst_stepR, sampleAndShift_stepR, hstep, setEst_nstepR, sampleAndShift_nstepR] at hj
    rw [setEst_tdiW, sampleAndShift_tdiW, BitVec.getLsbD_ushiftRight, hk.tdi _ (by omega)]
    congr 1; omega
  · rw [setEst_stepR, sampleAndShift_stepR, hstep, setEst_tdoW, setEst_offR, sampleAndShift_offR]
    exact hk.tdo_sample hp j hj

/-- The store of a chunk adds its bytes of the TDO vector to RESULT. -/
theorem HoldsTdo.stored {w : Word} {m : Memory} {size : Nat} (h : HoldsTdo s len u.offR u.result)
    (hm : Stored u.offR (chunkBytes u.bleftR) w size u.result m) (hle : u.bleftR ≤ len.toNat)
    (hoff : 8 * u.offR = len.toNat - u.bleftR)
    (hw : ∀ i < 32, w.getLsbD i = (decide (i < chunkSteps u.bleftR) && s.drawValue (8 * u.offR + i))) :
    HoldsTdo s len (u.offR + chunkBytes u.bleftR) m := by
  intro a ha
  rw [hm.read]
  split
  · rename_i hin
    rw [byteOf_eq_tdoByte hw hoff hle (by omega), Nat.add_sub_cancel' hin.1]
  · exact h a (by omega)

theorem engineAt_of_sample {k : Nat} (hr : RunInput s rem4 len tms tdi u) (hchunk : u.ChunkOk)
    (hk : InChunkAt s rem4 len tms tdi k (stepWrites tms tdi k) u)
    (h : sampleEdge u = .ok v) : EngineAt s rem4 len tms tdi v := by
  obtain ⟨hlast, h⟩ | ⟨-, rfl⟩ := sampleEdge_cases h
  swap
  · exact (engineAt_eLow rfl).2 ⟨k + 1, hk.next_step hr.params hchunk⟩
  have hsteps := nstepR_eq_of_last hchunk hlast
  have hfits := fun hleft => hchunk.next_fits hr.nbytesR hleft
  have hend := fun hleft => nBytes_le_of_lastChunk hchunk hr.nbytesR hleft
  have hfull := fun hleft => hchunk.full hleft
  obtain ⟨hpos, hle, hwhole, hoff, hn, -, -⟩ := hchunk
  rw [hr.lenR] at hle hoff
  have hplace := hk.place
  obtain ⟨s1, hstore, h⟩ := chunkEnd_cases h
  obtain ⟨m, rfl, hm⟩ := chunkStore_stored hstore
  have htdo := hk.result.stored (u := u) hm hle hoff fun i hi => by
    rw [hk.tdo_sample hr.params i hi, ← hsteps, hn]
  obtain ⟨hleft, s2, hload, rfl⟩ | ⟨hleft, rfl⟩ := h
  · replace hleft : 0 < u.bleftR - u.nstepR.toNat := by simpa using hleft
    have h32 := hfull hleft
    obtain ⟨tmsW, tdiW, hload', hbits⟩ := hr.load (v := advanceChunk (setResult m (sampleAndShift u)))
      (by simp) (by simp) (by simp) (by simpa using hfits hleft)
    rw [hload'] at hload
    cases hload
    refine (engineAt_eLow rfl).2 ⟨k + 1, .of_startChunk ?_ (by simpa using hk.trace_sample hr.params)
      (hk.drawn.sampleAndShift.of_eq (by simp) (by simp)) hbits (by simpa using htdo)⟩
    simp only [advanceChunk_offR, setResult_offR, setResult_bleftR, sampleAndShift_offR, sampleAndShift_bleftR]
    simp only [chunkSteps, chunkBytes, show 32 ≤ u.bleftR by omega, if_true] at hn ⊢
    omega
  · replace hleft : u.bleftR - u.nstepR.toNat = 0 := by simpa using hleft
    have hk1 : k + 1 = len.toNat := by
      have := chunkSteps_le_left u.bleftR
      omega
    have htrace := hk.trace_sample hr.params
    have hdrawn := hk.drawn.sampleAndShift
    rw [hk1] at htrace hdrawn
    have hall := hend hleft
    rw [hr.nBytes] at hall
    exact (engineAt_eRest rfl).2 ⟨by simpa using htrace, hdrawn.of_eq (by simp) (by simp),
      fun a ha => by simpa using htdo a (ha.trans_le hall)⟩

end

end Sys2Proof.Machine

namespace Sys2Proof.Machine

section
variable {s u v : State} {rem4 tms tdi : List Byte} {len : Word}

/-- What the words, the counters, RESULT and the draws say of the chunk is kept where none of them changes. -/
theorem InChunkAt.add {k : Nat} {l l' : List Event} (hk : InChunkAt s rem4 len tms tdi k l u) (htrace : v.trace = u.trace ++ l')
    (h : v.offR = u.offR ∧ v.stepR = u.stepR ∧ v.nstepR = u.nstepR ∧ v.tmsW = u.tmsW ∧ v.tdiW = u.tdiW ∧ v.tdoW = u.tdoW ∧
      v.result = u.result ∧ v.tdoDraws = u.tdoDraws ∧ v.draws = u.draws) :
    InChunkAt s rem4 len tms tdi k (l ++ l') v := by
  obtain ⟨hoff, hstep, hn, htms, htdi, htdo, hres, hdraws, hdrawn⟩ := h
  refine ⟨?_, by rw [htrace, hk.trace, List.append_assoc], hk.drawn.of_eq hdraws hdrawn, ?_, ?_, ?_, ?_⟩
  · rw [hoff, hstep]; exact hk.place
  · rw [hstep, hn, htms]; exact hk.tms
  · rw [hstep, hn, htdi]; exact hk.tdi
  · rw [hstep, hoff, htdo]; exact hk.tdo
  · rw [hoff, hres]; exact hk.result

/-- The bits at the front of the words are those of the step under way. -/
theorem InChunkAt.front {k : Nat} {l : List Event} (hk : InChunkAt s rem4 len tms tdi k l u) (hchunk : u.ChunkOk) :
    u.tmsW.getLsbD 0 = vectorBit tms k ∧ u.tdiW.getLsbD 0 = vectorBit tdi k := by
  obtain ⟨-, -, -, -, -, hlt, -⟩ := hchunk
  exact ⟨hk.tms 0 hlt, hk.tdi 0 hlt⟩

/-- An edge that only counts changes nothing of this. -/
theorem engineAt_tickDelay (he : u.est = .eLow ∨ u.est = .eHigh ∨ u.est = .eRest ∨ u.est = .eFinish)
    (h : EngineAt s rem4 len tms tdi u) : EngineAt s rem4 len tms tdi (tickDelay u) := by
  obtain he | he | he | he := he
  · obtain ⟨k, hk⟩ := (engineAt_eLow he).1 h
    exact (engineAt_eLow (u := tickDelay u) he).2 ⟨k, hk.add (l' := []) (by simp) (by simp)⟩
  · obtain ⟨k, hk⟩ := (engineAt_eHigh he).1 h
    exact (engineAt_eHigh (u := tickDelay u) he).2 ⟨k, hk.add (l' := []) (by simp) (by simp)⟩
  · exact (engineAt_eRest (u := tickDelay u) he).2 ((engineAt_eRest he).1 h)
  · exact (engineAt_eFinish (u := tickDelay u) he).2 ((engineAt_eFinish he).1 h)

/-- Every edge in SH_RUN takes the shift on (R131, R139, R142). -/
theorem engineAt_of_edge (hr : RunInput s rem4 len tms tdi u) (hplace : u.ShiftPlace) (hat : EngineAt s rem4 len tms tdi u)
    (hv : v.fst = .shRun) (h : engineEdge u = .ok v) : EngineAt s rem4 len tms tdi v := by
  obtain ⟨he, h⟩ | ⟨he, h⟩ | ⟨-, ⟨he, rfl⟩ | ⟨he, rfl⟩ | ⟨he, rfl⟩ | ⟨-, rfl⟩⟩ | ⟨-, he, rfl⟩ := engineEdge_cases h
  · obtain he | he := he
    · simp only [EngineAt, he] at hat
    · obtain ⟨htrace, hdrawn⟩ := (engineAt_eStart he).1 hat
      exact engineAt_of_start hr htrace hdrawn h
  · obtain ⟨k, hk⟩ := (engineAt_eSample he).1 hat
    exact engineAt_of_sample hr ((shiftPlace_iff_chunkOk (.inr (.inr he))).1 hplace) hk h
  · obtain ⟨k, hk⟩ := (engineAt_eLow he).1 hat
    obtain ⟨htms, htdi⟩ := hk.front ((shiftPlace_iff_chunkOk (.inl he)).1 hplace)
    exact (engineAt_eHigh rfl).2 ⟨k, hk.add (by rw [lowWrite_trace, htms, htdi]) (by simp)⟩
  · obtain ⟨k, hk⟩ := (engineAt_eHigh he).1 hat
    obtain ⟨htms, htdi⟩ := hk.front ((shiftPlace_iff_chunkOk (.inr (.inl he))).1 hplace)
    exact (engineAt_eSample rfl).2 ⟨k, hk.add (l' := [.write true _ _]) (by rw [highWrite_trace, htms, htdi]) (by simp)⟩
  · obtain ⟨htrace, hdrawn, htdo⟩ := (engineAt_eRest he).1 hat
    exact (engineAt_eFinish rfl).2
      ⟨by simp [htrace, shiftEvents, shiftBegun], hdrawn.of_eq (by simp) (by simp), by simpa using htdo, rfl⟩
  · simp at hv
  · exact engineAt_tickDelay he hat

/-- In SH_RUN no byte is read and SCRATCH is not written. -/
theorem Move.keeps_input (h : Move u v) (hf : u.fst = .shRun) : v.stream = u.stream ∧ v.scratch = u.scratch := by
  cases h with
  | _ => simp_all

theorem ShiftServed.progress_of_shRun (hin : ShiftGiven s rem4 len tms tdi) (hu : ShiftServed s rem4 len tms tdi u)
    (hf : u.fst = .shRun) (hm : Move u v) (h : engineEdge u = .ok v) : ShiftProgress s rem4 len tms tdi v := by
  have hr := hu.runInput hin hf
  obtain ⟨hstream, hbody, hat⟩ := by simpa only [ShiftProgress, hf] using hu.progress
  obtain ⟨hkeeps, hkeep⟩ := hm.keeps_input hf
  by_cases hv : v.fst = .shRun
  · simp only [ShiftProgress, hv]
    exact ⟨hkeeps.trans hstream, by rw [hkeep]; exact hbody, engineAt_of_edge hr (hu.kept.run.place hf) hat hv h⟩
  · obtain ⟨he, hd, rfl⟩ := hm.eq_engineDone hf hv
    obtain ⟨htrace, hdrawn, htdo, hlines⟩ := (engineAt_eFinish he).1 hat
    exact ⟨⟨hr.lenR, hr.nbytesR.trans (congrArg _ hr.lenR), rfl, hlines, hd, hstream, hbody, htdo,
      hdrawn⟩, by simpa using htrace⟩

/-! The reply and the end. -/

theorem ShiftedOut.keep {f : Fst} {n : Nat} {o : BitVec 2} {c : BitVec 4} {tr : List Event} (h : ShiftedOut s len tms tdi u) :
    ShiftedOut s len tms tdi { u with fst := f, cntR := n, outcomeR := o, causeR := c, trace := tr } :=
  ⟨h.lenR, h.nbytesR, h.est, h.lines, h.dlyCnt, h.stream, h.body, h.tdo, h.drawn⟩

theorem tdoVector_length (n : Nat) (f : Nat → Bool) : (tdoVector n f).length = (n + 7) / 8 := by simp [tdoVector]

theorem tdoVector_take_succ {n k : Nat} (f : Nat → Bool) (hk : k < (n + 7) / 8) :
    (tdoVector n f).take (k + 1) = (tdoVector n f).take k ++ [tdoByte n f k] := by
  rw [List.take_succ_eq_append_getElem (by rwa [tdoVector_length])]
  simp [tdoVector]

theorem ShiftServed.progress_of_shReply (hin : ShiftGiven s rem4 len tms tdi) (hu : ShiftServed s rem4 len tms tdi u)
    (hf : u.fst = .shReply) (h : shReplyEdge u = .ok v) : ShiftProgress s rem4 len tms tdi v := by
  obtain ⟨hout, htrace⟩ := by simpa only [ShiftProgress, hf] using hu.progress
  have hn : u.nBytes = ceilBytes len := by rw [State.nBytes, hout.nbytesR, toNat_nbytesOf]
  by_cases hc : ceilBytes len ≤ u.cntR
  · rw [shReplyEdge, replyEdge, hn, if_pos hc] at h
    cases h
    rw [List.take_of_length_le (by rw [tdoVector_length]; exact hc)] at htrace
    exact ⟨hout.keep, rfl, rfl, by simp [htrace]⟩
  · have hlt := Nat.lt_of_not_le hc
    have hbyte : shReplyByte u = .ok (tdoByte len.toNat s.drawValue u.cntR) := by
      refine readByte_ok ?_ (hout.tdo _ hlt)
      have hfit := hin.fits
      simp only [State.bufSize, Params.maxNbytes, hu.kept.params]
      omega
    have hsucc := tdoVector_take_succ s.drawValue hlt
    rw [shReplyEdge, replyEdge_serving (hu.levels ▸ hin.serving) (hn ▸ hlt) hbyte, hn] at h
    split at h <;> cases h
    · rename_i hlast
      rw [hlast, List.take_of_length_le (by rw [tdoVector_length]; exact le_rfl)] at hsucc
      exact ⟨hout.keep, rfl, rfl, by rw [hsucc]; simp [htrace]⟩
    · simp only [ShiftProgress, emitByte_fst, hf]
      exact ⟨hout.keep, by simp [htrace, hsucc]⟩

theorem ShiftServed.progress_of_done (hu : ShiftServed s rem4 len tms tdi u) (hf : u.fst = .done)
    (h : leaveDone u = .next v) : ShiftProgress s rem4 len tms tdi v := by
  obtain ⟨hout, houtcome, hcause, htrace⟩ := by simpa only [ShiftProgress, hf] using hu.progress
  have hleave : leaveDone u = .next (setFst .idle u) := by
    simp [leaveDone, hostCloses, houtcome, hcause, CmdOutcome.code]
  rw [hleave] at h
  cases h
  exact ⟨hout.keep, houtcome, hcause, htrace⟩

/-! The run. -/

/-- Every turn of the clock of the busy block takes the command on. -/
theorem tick_keeps_shiftServed (hin : ShiftGiven s rem4 len tms tdi) (hb : u.busy = true)
    (hu : ShiftServed s rem4 len tms tdi u) (h : tick u = .next v) : ShiftServed s rem4 len tms tdi v := by
  have hr : u.levels.rst = false := by
    have hl := hin.serving
    simp only [Levels.serving, ← hu.levels, Bool.and_eq_true, Bool.not_eq_true'] at hl
    exact hl.1.1.1.2
  rw [tick_nil hu.script] at h
  obtain ⟨hr', -⟩ | ⟨-, hm⟩ := edge_cases h
  · simp [hr] at hr'
  obtain ⟨hlevels, hscript⟩ := edge_keeps_host h
  have hkept := hm.keeps_shiftKept hin.rem hb hu.kept
  have hrest : u.fst ≠ .tok → ShiftProgress s rem4 len tms tdi v → ShiftServed s rem4 len tms tdi v := fun hne hp =>
    ⟨hlevels.trans hu.levels, hscript.trans hu.script, hkept, fun _ => (hm.keeps_tokR hne).trans (hu.token hne), hp⟩
  have hedge := h
  simp only [edge, hr, Bool.false_eq_true, if_false] at h
  cases hf : u.fst <;> simp only [hf, Result.ofExcept_eq_next] at h
  case tok | giSkip | stRead | shSkip | shLen | shBody =>
    obtain ⟨hp, htok⟩ := hu.progress_of_read hin (by simp [hf, Fst.isRead]) hm hedge hkept.phase
    exact ⟨hlevels.trans hu.levels, hscript.trans hu.script, hkept, htok, hp⟩
  case shCheck => exact hrest (by simp [hf]) (hu.progress_of_shCheck hin hf hr hedge)
  case shRun => exact hrest (by simp [hf]) (hu.progress_of_shRun hin hf hm h)
  case shReply => exact hrest (by simp [hf]) (hu.progress_of_shReply hin hf h)
  case done => exact hrest (by simp [hf]) (hu.progress_of_done hf h)
  case init | idle | halt | fatal => simp [State.busy, hf, Fst.isBusy] at hb
  case giReply | stReply => exact absurd hu.progress (by simp [ShiftProgress, hf])

/-- The block never waits for a serving host. -/
theorem ShiftServed.not_hung (hin : ShiftGiven s rem4 len tms tdi) (hu : ShiftServed s rem4 len tms tdi u) : u.hung = false := by
  have hl := hin.serving
  simp only [Levels.serving, ← hu.levels, Bool.and_eq_true] at hl
  have hvalid : u.fst.isRead = true → u.rxValid = true := fun hf => by
    obtain ⟨b, rest, hs, -⟩ := hu.next_byte hin hf
    simp [State.rxValid, hl, hs]
  cases hf : u.fst.isRead <;> simp_all [State.hung, State.waiting]

/-- Right after the edge that takes `cmd_go`. -/
theorem shiftServed_start (hgo : s.startsCommand = true) (hscript : s.script = []) :
    ShiftServed s rem4 len tms tdi (enter .tok (offerCommand (.shift rem4 len tms tdi) s)) := by
  have hreads : (enter .tok (offerCommand (.shift rem4 len tms tdi) s)).ShiftPhase rem4 len (tms ++ tdi ++ s.stream) :=
    .inl ⟨rfl, by simp [encode, tokenBytes, tokenShift]⟩
  have hengine : engineSideKept s (enter .tok (offerCommand (.shift rem4 len tms tdi) s)) := by
    simp [engineSideKept, State.lines]
  exact ⟨rfl, by simpa using hscript,
    ⟨runOk_of_startsCommand _ hgo, rfl, rfl, rfl, fun _ _ => rfl, fun _ _ => rfl, fun _ => hengine, hreads⟩,
    fun h => absurd rfl h, ⟨[], by simp, rfl⟩, by simp, by simp⟩

end

/-- Settles O26: the run follows the flat form to its end, and it has an end. -/
theorem shiftCompletes : Obligations.ShiftCompletes := by
  intro s rem4 len tms tdi hgo hsteady hwf hfit
  simp only [State.steady, Bool.and_eq_true, List.isEmpty_iff] at hsteady
  obtain ⟨hscript, hserving⟩ := hsteady
  simp only [Instr.wellFormed, if_pos hfit, Bool.and_eq_true, decide_eq_true_eq] at hwf
  obtain ⟨hrem, htms, htdi⟩ := hwf
  have hin : ShiftGiven s rem4 len tms tdi := ⟨hserving, hrem, htms, htdi, hfit⟩
  obtain ⟨t, hexec, hend⟩ := dutifulHostCommandEnds s (.shift rem4 len tms tdi) hgo (by rw [hscript]; rfl)
  have ht := exec_induction_of_busy (fun _ _ hb hu h => tick_keeps_shiftServed hin hb hu h) hgo
    (shiftServed_start hgo hscript) hexec
  have hidle : t.fst = .idle := by
    have hbusy := hend.resolve_right (by simp [ht.not_hung hin])
    have hp := ht.progress
    cases hf : t.fst <;> simp [State.busy, Fst.isBusy, ShiftProgress, hf] at hbusy hp ⊢
  obtain ⟨hout, houtcome, hcause, htrace⟩ := by simpa only [ShiftProgress, hidle] using ht.progress
  refine ⟨t, hexec, hidle, htrace, ht.token (by simp [hidle]), hout.lenR, hout.nbytesR, houtcome, hcause, hout.est, hout.lines,
    hout.dlyCnt, fun a => ?_, fun a => ?_, ht.kept.echoR, ht.kept.delayR, ht.kept.params, ht.levels, hout.stream,
    ht.script.trans hscript.symm, hout.drawn.1, hout.drawn.2⟩
  · have hbody := hout.body a
    rw [htms, htdi] at hbody
    split
    · rw [hbody (by omega), List.getElem?_append_left (by omega)]
    · split
      · rw [hbody (by omega), List.getElem?_append_right (by omega), htms]
      · exact ht.kept.scratch a (by rw [toNat_nbytesOf]; omega)
  · split
    · rename_i ha
      rw [hout.tdo a ha, List.getElem?_eq_getElem (by rw [tdoVector_length]; exact ha)]
      simp [tdoVector]
    · exact ht.kept.result a (by rw [toNat_nbytesOf]; omega)

end Sys2Proof.Machine

/-! PROOFS for the family of 30_encoding.md. The decoder accepts exactly the bytes of well-formed commands: one lemma for each
reader of fields, then the choice of the reader by the token. The step that decodes is then the framer's own run on the same
bytes, and a run on an illegal token has three edges. -/

namespace Sys2Proof

/-! ### The readers of fields (R82, R84, R85) -/

theorem takeBytes_eq_some_iff {n : Nat} {bs l r : List Byte} : takeBytes n bs = some (l, r) ↔ l.length = n ∧ l ++ r = bs :=
  ⟨takeBytes_some, by rintro ⟨rfl, rfl⟩; exact takeBytes_append l r⟩

theorem takeWord_eq_some_iff {bs r : List Byte} {w : Word} : takeWord bs = some (w, r) ↔ wordBytes w ++ r = bs :=
  ⟨takeWord_some, by rintro rfl; exact takeWord_append w r⟩

/-- The capacity check compares the exact byte length (R83). -/
theorem fitsCapacity_nbytesOf_iff (cap : Nat) (len : Word) :
    fitsCapacity cap (nbytesOf len) = true ↔ 2 * ceilBytes len ≤ cap := by
  rw [fitsCapacity, decide_eq_true_eq, toNat_nbytesOf]

theorem decodeGetinfo_eq_some_iff {fs rest : List Byte} {i : Instr} :
    decodeGetinfo fs = some (i, rest) ↔ ∃ rem6, i = .getinfo rem6 ∧ rem6.length = 6 ∧ rem6 ++ rest = fs := by
  constructor
  · intro h
    unfold decodeGetinfo at h
    split at h <;> cases h
    rename_i rem6 htake
    exact ⟨rem6, rfl, takeBytes_eq_some_iff.1 htake⟩
  · rintro ⟨rem6, rfl, hrem⟩
    rw [decodeGetinfo, takeBytes_eq_some_iff.2 hrem]

theorem decodeSettck_eq_some_iff {fs rest : List Byte} {i : Instr} :
    decodeSettck fs = some (i, rest) ↔
      ∃ rem5 period, i = .settck rem5 period ∧ rem5.length = 5 ∧ rem5 ++ (wordBytes period ++ rest) = fs := by
  constructor
  · intro h
    unfold decodeSettck at h
    split at h
    · rename_i rem5 fs1 htake
      split at h <;> cases h
      rename_i period hword
      rw [takeWord_eq_some_iff] at hword
      exact ⟨rem5, period, rfl, hword ▸ takeBytes_eq_some_iff.1 htake⟩
    · cases h
  · rintro ⟨rem5, period, rfl, hrem⟩
    simp only [decodeSettck, takeBytes_eq_some_iff.2 hrem, takeWord_append]

/-- The vectors are read when they fit, and there are none when they do not. -/
theorem decodeShift_eq_some_iff {cap : Nat} {fs rest : List Byte} {i : Instr} :
    decodeShift cap fs = some (i, rest) ↔
      ∃ rem4 len tms tdi, i = .shift rem4 len tms tdi ∧ i.wellFormed cap = true ∧
        rem4 ++ (wordBytes len ++ (tms ++ (tdi ++ rest))) = fs := by
  constructor
  · intro h
    unfold decodeShift at h
    split at h
    case h_2 => cases h
    rename_i rem4 fs1 hrem
    split at h
    case h_2 => cases h
    rename_i len fs2 hlen
    obtain ⟨hremLen, rfl⟩ := takeBytes_eq_some_iff.1 hrem
    obtain rfl := takeWord_eq_some_iff.1 hlen
    simp only [fitsCapacity_nbytesOf_iff, toNat_nbytesOf] at h
    split at h
    · rename_i hfit
      split at h
      case h_2 => cases h
      rename_i tms fs3 htms
      split at h <;> cases h
      rename_i tdi htdi
      obtain ⟨htmsLen, rfl⟩ := takeBytes_eq_some_iff.1 htms
      obtain ⟨htdiLen, rfl⟩ := takeBytes_eq_some_iff.1 htdi
      exact ⟨rem4, len, tms, tdi, rfl, by simp [Instr.wellFormed, hremLen, hfit, htmsLen, htdiLen], rfl⟩
    · rename_i hfit
      cases h
      exact ⟨rem4, len, [], [], rfl, by simp [Instr.wellFormed, hremLen, hfit], rfl⟩
  · rintro ⟨rem4, len, tms, tdi, rfl, hwf, hfs⟩
    simp only [Instr.wellFormed, Bool.and_eq_true, decide_eq_true_eq] at hwf
    obtain ⟨hrem, hvectors⟩ := hwf
    simp only [decodeShift, takeBytes_eq_some_iff.2 ⟨hrem, hfs⟩, takeWord_append, fitsCapacity_nbytesOf_iff, toNat_nbytesOf]
    by_cases hfit : 2 * ceilBytes len ≤ cap
    · simp only [hfit, if_true, Bool.and_eq_true, decide_eq_true_eq] at hvectors ⊢
      obtain ⟨htms, htdi⟩ := hvectors
      rw [takeBytes_eq_some_iff.2 ⟨htms, rfl⟩]
      simp only [takeBytes_eq_some_iff.2 ⟨htdi, rfl⟩]
    · simp only [hfit, if_false, Bool.and_eq_true, List.isEmpty_iff] at hvectors ⊢
      obtain ⟨rfl, rfl⟩ := hvectors
      rfl

/-! ### The token (R81) -/

theorem tokenBytes_tokenOf (b0 b1 : Byte) : tokenBytes (tokenOf b0 b1) = [b0, b1] := by
  rw [tokenBytes, tokenOf, BitVec.extractLsb'_append_eq_left, BitVec.extractLsb'_append_eq_right]

theorem tokenOf_inj {b0 b1 c0 c1 : Byte} : tokenOf b0 b1 = tokenOf c0 c1 ↔ (b0, b1) = (c0, c1) := by
  constructor
  · intro h
    have hbytes : [b0, b1] = [c0, c1] := by rw [← tokenBytes_tokenOf, h, tokenBytes_tokenOf]
    simpa using hbytes
  · intro h
    cases h
    rfl

/-- The tokens of the opcode table (R81). -/
def tokens : List (BitVec 16) := [tokenGetinfo, tokenSettck, tokenShift]

/-- R88: the bytes of no token. -/
theorem tokenOf_notMem_tokens_iff {b0 b1 : Byte} :
    tokenOf b0 b1 ∉ tokens ↔ (b0, b1) ≠ (0x67, 0x65) ∧ (b0, b1) ≠ (0x73, 0x65) ∧ (b0, b1) ≠ (0x73, 0x68) := by
  have htokens : tokens = [tokenOf 0x67 0x65, tokenOf 0x73 0x65, tokenOf 0x73 0x68] := rfl
  simp only [htokens, List.mem_cons, List.not_mem_nil, tokenOf_inj, or_false, not_or, ne_eq]

theorem tokenOf_cases (b0 b1 : Byte) :
    tokenOf b0 b1 = tokenGetinfo ∨ tokenOf b0 b1 = tokenSettck ∨ tokenOf b0 b1 = tokenShift ∨
      tokenOf b0 b1 ∉ tokens := by
  simp only [tokens, List.mem_cons, List.not_mem_nil]
  tauto

/-- What the decoder answers from the fields that it has read, if they are whole. -/
def fieldsAnswer : Option (Instr × List Byte) → Except DecodeError (Instr × List Byte)
  | some r => .ok r
  | none => .error .truncated

@[simp] theorem fieldsAnswer_eq_ok {fields : Option (Instr × List Byte)} {r : Instr × List Byte} :
    fieldsAnswer fields = .ok r ↔ fields = some r := by cases fields <;> simp [fieldsAnswer]

@[simp] theorem fieldsAnswer_ne_illegalToken {fields : Option (Instr × List Byte)} {t : BitVec 16} :
    fieldsAnswer fields ≠ .error (.illegalToken t) := by cases fields <;> simp [fieldsAnswer]

section
variable {cap : Nat} {b0 b1 : Byte} {fs : List Byte}

theorem decode_getinfo (h : tokenOf b0 b1 = tokenGetinfo) : decode cap (b0 :: b1 :: fs) = fieldsAnswer (decodeGetinfo fs) := by
  simp only [decode, h, if_true]
  cases decodeGetinfo fs <;> rfl

theorem decode_settck (h : tokenOf b0 b1 = tokenSettck) : decode cap (b0 :: b1 :: fs) = fieldsAnswer (decodeSettck fs) := by
  have hne : tokenSettck ≠ tokenGetinfo := by decide
  simp only [decode, h, hne, if_true, if_false]
  cases decodeSettck fs <;> rfl

theorem decode_shift (h : tokenOf b0 b1 = tokenShift) : decode cap (b0 :: b1 :: fs) = fieldsAnswer (decodeShift cap fs) := by
  have hne : tokenShift ≠ tokenGetinfo ∧ tokenShift ≠ tokenSettck := by decide
  simp only [decode, h, hne, if_true, if_false]
  cases decodeShift cap fs <;> rfl

theorem decode_illegal (h : tokenOf b0 b1 ∉ tokens) :
    decode cap (b0 :: b1 :: fs) = .error (.illegalToken (tokenOf b0 b1)) := by
  simp only [tokens, List.mem_cons, List.not_mem_nil, or_false, not_or] at h
  obtain ⟨hgetinfo, hsettck, hshift⟩ := h
  simp only [decode, hgetinfo, hsettck, hshift, if_false]

theorem decode_eq_illegalToken_iff :
    decode cap (b0 :: b1 :: fs) = .error (.illegalToken (tokenOf b0 b1)) ↔ tokenOf b0 b1 ∉ tokens := by
  refine ⟨fun h => ?_, decode_illegal⟩
  obtain ht | ht | ht | ht := tokenOf_cases b0 b1
  · exact absurd (decode_getinfo ht ▸ h) fieldsAnswer_ne_illegalToken
  · exact absurd (decode_settck ht ▸ h) fieldsAnswer_ne_illegalToken
  · exact absurd (decode_shift ht ▸ h) fieldsAnswer_ne_illegalToken
  · exact ht

end

/-- What is decoded begins with a token. -/
theorem exists_cons_cons_of_decode_eq_ok {cap : Nat} {bs : List Byte} {r : Instr × List Byte} (h : decode cap bs = .ok r) :
    ∃ b0 b1 fs, bs = b0 :: b1 :: fs := by
  unfold decode at h
  split at h
  · exact ⟨_, _, _, rfl⟩
  · cases h

/-! ### The codec -/

/-- Settles O2: the token chooses the reader of its command, which takes exactly that command's fields. -/
theorem decodeOfEncode : Obligations.DecodeOfEncode := by
  intro cap i rest hwf
  cases i with
  | getinfo rem6 =>
    have hrem : rem6.length = 6 := by simpa [Instr.wellFormed] using hwf
    exact (decode_getinfo rfl).trans (fieldsAnswer_eq_ok.2 (decodeGetinfo_eq_some_iff.2 ⟨rem6, rfl, hrem, rfl⟩))
  | settck rem5 period =>
    have hrem : rem5.length = 5 := by simpa [Instr.wellFormed] using hwf
    exact (decode_settck rfl).trans
      (fieldsAnswer_eq_ok.2 (decodeSettck_eq_some_iff.2 ⟨rem5, period, rfl, hrem, by simp⟩))
  | shift rem4 len tms tdi =>
    exact (decode_shift rfl).trans
      (fieldsAnswer_eq_ok.2 (decodeShift_eq_some_iff.2 ⟨rem4, len, tms, tdi, rfl, hwf, by simp⟩))

/-- Settles O1: NBYTES is the ceiling, and `LEN` is below 2^32. -/
theorem byteLengthIsExactCeiling : Obligations.ByteLengthIsExactCeiling := by
  intro len cap
  have hlen := len.isLt
  refine ⟨toNat_nbytesOf len, ?_, fitsCapacity_nbytesOf_iff cap len⟩
  rw [toNat_nbytesOf, ceilBytes]
  omega

/-- Settles O3: each reader of fields puts what it has taken into the command, and the token's bytes are those read. -/
theorem encodeOfDecode : Obligations.EncodeOfDecode := by
  intro cap bs i rest h
  obtain ⟨b0, b1, fs, rfl⟩ := exists_cons_cons_of_decode_eq_ok h
  have htoken : ∀ t, tokenOf b0 b1 = t → tokenBytes t = [b0, b1] := by
    rintro _ rfl
    exact tokenBytes_tokenOf b0 b1
  obtain ht | ht | ht | ht := tokenOf_cases b0 b1
  · rw [decode_getinfo ht, fieldsAnswer_eq_ok, decodeGetinfo_eq_some_iff] at h
    obtain ⟨rem6, rfl, hrem, rfl⟩ := h
    exact ⟨by simp [encode, htoken _ ht], by simp [Instr.wellFormed, hrem]⟩
  · rw [decode_settck ht, fieldsAnswer_eq_ok, decodeSettck_eq_some_iff] at h
    obtain ⟨rem5, period, rfl, hrem, rfl⟩ := h
    exact ⟨by simp [encode, htoken _ ht], by simp [Instr.wellFormed, hrem]⟩
  · rw [decode_shift ht, fieldsAnswer_eq_ok, decodeShift_eq_some_iff] at h
    obtain ⟨rem4, len, tms, tdi, rfl, hwf, rfl⟩ := h
    exact ⟨by simp [encode, htoken _ ht], hwf⟩
  · simp [decode_illegal ht] at h

/-- Settles O4: every other pair of bytes forms a token of the table. -/
theorem illegalTokensRejected : Obligations.IllegalTokensRejected := by
  intro cap b0 b1 bs
  rw [decode_eq_illegalToken_iff, tokenOf_notMem_tokens_iff]

/-- Settles O5: two bytes of token, the remainder, and the word and vectors of the command. -/
theorem commandLengths : Obligations.CommandLengths := by
  intro cap i hwf
  cases i with
  | getinfo rem6 => simpa [Instr.wellFormed, encode, tokenBytes] using hwf
  | settck rem5 period => simpa [Instr.wellFormed, encode, tokenBytes, wordBytes] using hwf
  | shift rem4 len tms tdi =>
    simp only [Instr.wellFormed, Bool.and_eq_true, decide_eq_true_eq] at hwf
    obtain ⟨hrem, hvectors⟩ := hwf
    have hlen : (encode (.shift rem4 len tms tdi)).length = 10 + (tms.length + tdi.length) := by
      simp only [encode, tokenBytes, wordBytes, List.length_append, List.length_cons, List.length_nil, hrem]
      omega
    rw [hlen]
    split at hvectors <;> rename_i hfit
    · simp only [Bool.and_eq_true, decide_eq_true_eq] at hvectors
      obtain ⟨htms, htdi⟩ := hvectors
      simp only [htms, htdi, hfit, if_true]
      omega
    · simp only [Bool.and_eq_true, List.isEmpty_iff] at hvectors
      simp [hvectors, hfit]

/-- A word whose padded bytes begin with those of a well-formed command decodes to it. -/
theorem decodeTableWord_eq_some {nbits w : Nat} {i : Instr} (rest : List Byte)
    (hwf : i.wellFormed Params.reference.capacity = true) (hbytes : paddedTableBytes nbits w = encode i ++ rest) :
    decodeTableWord nbits w = some i := by
  rw [decodeTableWord, hbytes, decodeOfEncode _ i rest hwf]

/-- Settles O6: the bytes on the left are those of the commands on the right. -/
theorem specWordsDecode : Obligations.SpecWordsDecode := by
  refine ⟨decodeTableWord_eq_some (List.replicate 2050 0) (by decide) rfl,
    decodeTableWord_eq_some (List.replicate 2047 0) (by decide) rfl,
    decodeTableWord_eq_some (List.replicate 2048 0) (by decide) rfl,
    decodeOfEncode 2048 (.getinfo [0x74, 0x69, 0x6E, 0x66, 0x6F, 0x3A]) [] (by decide),
    decodeOfEncode 2048 (.settck [0x74, 0x74, 0x63, 0x6B, 0x3A] 100) [] (by decide),
    decodeOfEncode 2048 (.shift [0x69, 0x66, 0x74, 0x3A] 8 [0x00] [0xA5]) [] (by decide)⟩

end Sys2Proof

namespace Sys2Proof.Machine

/-! ### The step that starts a command (R94, R102) -/

theorem step_of_startsCommand {s s1 : State} {i : Instr} {rest : List Byte} (hturn : hostTurn s = .next s1)
    (hgo : s1.startsCommand = true) (hd : decode s1.params.capacity s1.stream = .ok (i, rest)) :
    step s = exec i (setStream rest s1) := by
  simp only [step, hturn, stepAfterTurn, hgo, if_true, nextCommand, hd]

/-- Settles O22: the step takes the command at the front of the stream and moves past its bytes. -/
theorem stepRunsDecodedCommand : Obligations.StepRunsDecodedCommand :=
  fun _ _ _ _ hturn hgo hd => step_of_startsCommand hturn hgo hd

/-- Settles O23: `exec` puts the command's bytes back before the rest, and these are the bytes that the decoder has read. -/
theorem stepIsFramerRun : Obligations.StepIsFramerRun := by
  intro s s1 hturn hgo
  cases hd : decode s1.params.capacity s1.stream with
  | error e => simp only [step, hturn, stepAfterTurn, hgo, if_true, nextCommand, hd]
  | ok r =>
    obtain ⟨i, rest⟩ := r
    obtain ⟨hbytes, -⟩ := encodeOfDecode _ _ _ _ hd
    have hback : offerCommand i (setStream rest s1) = s1 := by
      rw [offerCommand, setStream_stream, hbytes]
      rfl
    rw [step_of_startsCommand hturn hgo hd, exec_eq_commandCycle, hback]

/-! ### An illegal token (R118, R166) -/

theorem rxOffer_rst_of_serving {l : Levels} (h : l.serving = true) : l.rxOffer = true ∧ l.rst = false := by
  simp only [Levels.serving, Bool.and_eq_true, Bool.not_eq_true'] at h
  tauto

/-- A serving host's byte in TOK takes one turn of the clock. -/
theorem runs_tokByte {u v : State} {b : Byte} {rest : List Byte} (hf : u.fst = .tok) (hscript : u.script = [])
    (hl : u.levels.serving = true) (hs : u.stream = b :: rest) (hv : tokByte b (consumeByte b rest u) = .ok v) :
    Runs 1 u v := by
  obtain ⟨hoffer, hr⟩ := rxOffer_rst_of_serving hl
  refine .one (by simp [State.busy, hf, Fst.isBusy]) ?_ ?_
  · simp [State.hung, State.waiting, State.rxValid, State.txValid, hf, Fst.isReply, hoffer, hs]
  · simp [tick_nil hscript, edge, hr, hf, tokEdge, readEdge_serving hl hs, hv]

/-- The edge that leaves DONE after an illegal token, at which the host drops its unread bytes (R119, R174). -/
theorem runs_badToken {u : State} (hscript : u.script = []) (hr : u.levels.rst = false) :
    Runs 1 (raiseCond .badToken u) (setStream [] (setFst .idle (raiseCond .badToken u))) := by
  refine .one rfl ?_ ?_
  · simp [State.hung, State.waiting, State.txValid, Fst.isRead, Fst.isReply]
  · rw [tick_nil (by simpa using hscript), edge, if_neg (by simp [hr])]
    rfl

theorem tokByte_first {u : State} {b : Byte} {rest : List Byte} (hc : u.cntR = 0) :
    tokByte b (consumeByte b rest u) = .ok (setTok (tokenOf b (u.tokR.extractLsb' 0 8)) (consumeByte b rest u)) :=
  if_pos (by simp [hc])

theorem mem_tokens_of_mem_dispatchTable {t : BitVec 16} {f : Fst} (h : (t, f) ∈ dispatchTable) : t ∈ tokens :=
  List.mem_map_of_mem (f := Prod.fst) h

/-- The byte that completes an illegal token raises the condition (R118). -/
theorem tokByte_illegal {u : State} {b : Byte} {rest : List Byte} (hc : u.cntR ≠ 0)
    (hbad : tokenOf (u.tokR.extractLsb' 8 8) b ∉ tokens) :
    tokByte b (consumeByte b rest u) =
      .ok (raiseCond .badToken (setCnt 0 (setTok (tokenOf (u.tokR.extractLsb' 8 8) b) (consumeByte b rest u)))) := by
  refine (if_neg (by simp [hc])).trans (congrArg Except.ok ?_)
  obtain ⟨f, hmem, -⟩ | ⟨-, heq⟩ :=
    dispatchToken_cases (setTok (tokenOf (u.tokR.extractLsb' 8 8) b) (consumeByte b rest u))
  · exact absurd (mem_tokens_of_mem_dispatchTable hmem) hbad
  · exact heq

/-- From the entry to TOK an illegal token takes three turns of the clock: its two bytes, and DONE. -/
theorem runs_illegalToken {u : State} {b0 b1 : Byte} {rest : List Byte} (hf : u.fst = .tok) (hc : u.cntR = 0)
    (hsteady : u.steady = true) (hs : u.stream = b0 :: b1 :: rest) (hbad : tokenOf b0 b1 ∉ tokens) :
    Runs 3 u
      { u with
        fst := .idle, cntR := 0, tokR := tokenOf b0 b1, outcomeR := 2, causeR := 4, stream := [],
        trace := u.trace ++ [.consume b0, .consume b1, .done .closeError .badToken] } := by
  obtain ⟨hscript, hl⟩ : u.script = [] ∧ u.levels.serving = true := by simpa [State.steady] using hsteady
  have hfirst := runs_tokByte hf hscript hl hs (tokByte_first hc)
  have hhigh : (tokenOf b0 (u.tokR.extractLsb' 0 8)).extractLsb' 8 8 = b0 := tokenOf_high _ _
  have hsecond := runs_tokByte (u := setTok (tokenOf b0 (u.tokR.extractLsb' 0 8)) (consumeByte b0 (b1 :: rest) u))
    hf hscript hl rfl (tokByte_illegal (Nat.succ_ne_zero _) (by rwa [setTok_tokR, hhigh]))
  have hend := (hfirst.trans hsecond).trans (runs_badToken hscript (rxOffer_rst_of_serving hl).2)
  rw [setTok_tokR, hhigh] at hend
  simpa [setStream, setFst, raiseCond, finish, setCnt, setTok, consumeByte, record, Cond.outcome, Cond.cause, CmdOutcome.code,
    Cause.code] using hend

/-- Settles O29: the command cycle is the edge that takes `cmd_go` and the three turns on the illegal token. -/
theorem illegalTokenEndsCommand : Obligations.IllegalTokenEndsCommand := by
  intro s b0 b1 rest hgo hsteady hs hgetinfo hsettck hshift
  have hf : s.fst = .idle := by simp_all [State.startsCommand]
  obtain ⟨hscript, -⟩ : s.script = [] ∧ s.levels.serving = true := by simpa [State.steady] using hsteady
  have hrun := runs_illegalToken (u := enter .tok s) rfl rfl hsteady hs
    (tokenOf_notMem_tokens_iff.2 ⟨hgetinfo, hsettck, hshift⟩)
  rw [stepIsFramerRun s s (hostTurn_nil hscript) hgo,
    commandCycle_of_runs (edge_startsCommand hgo) hrun rfl (by unfold cycleEdges; omega)]
  simp [enter, setCnt, setFst, hf]

end Sys2Proof.Machine

/-! PROOFS for the family of 40_framer.md. First what an edge in a read or a reply state is, said once; then that no edge of a
busy block examines more of the host's side than R100 and R101 say; then the runs of GETINFO, SETTCK and a SHIFT that does not
fit, turn by turn; last the run with a host that makes the block wait, against the run with one that does not. -/

namespace Sys2Proof.Machine

/-! ### Edges that read and edges that reply (R100, R101) -/

/-- What a read state does with a byte it has consumed (R103, R105, R107, R110, R111, R114); nothing in the other states. -/
def Fst.onByte : Fst → Byte → State → Except Fault State
  | .tok => tokByte
  | .giSkip => giSkipByte
  | .stRead => stReadByte
  | .shSkip => shSkipByte
  | .shLen => shLenByte
  | .shBody => shBodyByte
  | .init | .idle | .giReply | .stReply | .shCheck | .shRun | .shReply | .done | .halt | .fatal => fun _ => .ok

/-- The byte that a reply state offers (R105, R107, R116); 0 in the other states. -/
def Fst.replyByte : Fst → State → Except Fault Byte
  | .giReply => giReplyByte
  | .stReply => stReplyByte
  | .shReply => shReplyByte
  | .init | .idle | .tok | .giSkip | .stRead | .shSkip | .shLen | .shCheck | .shBody | .shRun | .done | .halt | .fatal =>
    fun _ => .ok 0

theorem edge_eq_readEdge {s : State} (hr : s.levels.rst = false) (hf : s.fst.isRead = true) :
    edge s = .ofExcept (readEdge s.fst.onByte s) := by
  cases hs : s.fst <;> simp only [hs, Fst.isRead, Bool.false_eq_true] at hf
  all_goals
    simp only [edge, hr, hs, Bool.false_eq_true, if_false]
    rfl

theorem edge_eq_replyEdge {s : State} (hr : s.levels.rst = false) (hf : s.fst.isReply = true) :
    edge s = .ofExcept (replyEdge s.replyTotal s.fst.replyByte s) := by
  cases hs : s.fst <;> simp only [hs, Fst.isReply, Bool.false_eq_true] at hf
  all_goals
    simp only [edge, hr, hs, State.replyTotal, Bool.false_eq_true, if_false]
    rfl

theorem txValid_iff {s : State} : s.txValid = true ↔ s.fst.isReply = true ∧ s.cntR < s.replyTotal := by
  simp [State.txValid]

theorem rxValid_iff {s : State} : s.rxValid = true ↔ s.levels.rxOffer = true ∧ ∃ b rest, s.stream = b :: rest := by
  cases hs : s.stream <;> simp [State.rxValid, hs]

/-- Where no byte is offered and no condition is up, the end of the stream is examined (R100). -/
theorem rxByte_of_not_rxValid {s : State} (hsd : s.levels.shutdown = false) (herr : s.levels.rxErr = false)
    (hv : s.rxValid = false) :
    rxByte s =
      if s.levels.rxEof then (if s.fst = .tok ∧ s.cntR = 0 then .raise .cleanClose else .raise .shortRead) else .wait := by
  simp only [rxByte, hsd, herr, Bool.false_eq_true, if_false]
  split
  · rename_i b rest ho hs
    simp [State.rxValid, ho, hs] at hv
  · rfl

theorem txData_eq_replyByte {s : State} (hv : s.txValid = true) : s.txData = (s.fst.replyByte s).toOption := by
  obtain ⟨hf, -⟩ := txValid_iff.1 hv
  cases hs : s.fst <;> simp only [hs, Fst.isReply, Bool.false_eq_true] at hf <;>
    simp only [State.txData, hv, hs, if_true, Fst.replyByte]

/-- A block that waits is unchanged at the edge. -/
theorem edge_of_waiting {s : State} (h : s.waiting = true) : edge s = .next s := by
  simp only [State.waiting, Bool.and_eq_true, Bool.or_eq_true, Bool.not_eq_true'] at h
  obtain ⟨hr, ⟨⟨⟨⟨hf, hsd⟩, herr⟩, hv⟩, heof⟩ | ⟨⟨hv, herr⟩, hready⟩⟩ := h
  · obtain ⟨-, -, -, -, hwait⟩ := readEdgeOrder s hf hr
    exact hwait hsd herr hv heof
  · obtain ⟨hf, hc⟩ := txValid_iff.1 hv
    simp [edge_eq_replyEdge hr hf, replyEdge, Nat.not_le.2 hc, herr, hready]

/-! ### IDLE, DONE and the host's duties (R102, R119, R123, R175) -/

/-- Settles O10: the definition of the edge, its operations written out. -/
theorem idleEdge_eq : Obligations.IdleEdge := by
  intro s hf hr
  simp only [edge, hr, hf, Bool.false_eq_true, if_false]
  rfl

/-- Settles O16: the order of the tests in `replyEdge`. -/
theorem replyEdgeOrder : Obligations.ReplyEdgeOrder := by
  intro s b hr hv hb
  obtain ⟨hf, hc⟩ := txValid_iff.1 hv
  have hbyte : s.fst.replyByte s = .ok b := by
    rw [txData_eq_replyByte hv] at hb
    cases h : s.fst.replyByte s <;> simp_all [Except.toOption]
  simp only [edge_eq_replyEdge hr hf, replyEdge, if_neg (Nat.not_le.2 hc), hbyte]
  split
  · rfl
  split
  · split <;> rfl
  · rfl

/-- Settles O19: of the four outcomes SHUTDOWN leads to HALT, and the two closes drop the stream. -/
theorem returnFromDone : Obligations.ReturnFromDone := by
  intro s hf hr hc
  have hcause : ¬ (10 : BitVec 4) ≤ s.causeR := by simpa [BitVec.le_def] using hc
  have houtcome : s.outcomeR = 0 ∨ s.outcomeR = 1 ∨ s.outcomeR = 2 ∨ s.outcomeR = 3 := by
    generalize s.outcomeR = o
    revert o
    decide
  simp only [edge, hr, hf, Bool.false_eq_true, if_false, leaveDone, hcause]
  obtain h | h | h | h := houtcome <;>
    simp [h, hostCloses, CmdOutcome.code, setFst, setStream, record]

/-- Settles O20: with no turn left the host's levels hold, and under them the block waits. -/
theorem hangStays : Obligations.HangStays := by
  intro s h
  simp only [State.hung, Bool.and_eq_true, List.isEmpty_iff] at h
  rw [tick_nil h.1]
  exact edge_of_waiting h.2

/-- Settles O21: the two tests of the host's turn; a block in INIT starts no command. -/
theorem hostDutyBreachRefused : Obligations.HostDutyBreachRefused := by
  intro s turn rest hs hr
  refine ⟨fun hr' hsd hclear => ?_, fun hsd hb ha => ?_, fun hr' hf => ?_⟩
  · have hclears : clearsShutdown s.levels turn = true := by simp [clearsShutdown, *]
    simp [step, hostTurn, hs, hclears]
  · have hkeeps : clearsShutdown s.levels turn = false := by
      cases h : s.levels.shutdown <;> simp_all [clearsShutdown]
    simp [step, hostTurn, hs, hkeeps, hr, hb, ha]
  · have hkeeps : clearsShutdown s.levels turn = false := by simp [clearsShutdown, hr']
    have hb : s.busy = false := by simp [State.busy, hf, Fst.isBusy]
    simp [step, hostTurn, hs, hkeeps, hb, stepAfterTurn, State.startsCommand, hf]

end Sys2Proof.Machine

namespace Sys2Proof.Machine

/-! ### What does not depend on the host's side (R120, R130, R146) -/

/-- The host's side of `s` changed: its levels by `g`, its coming turns by `k`, the attached stream by `h`. -/
@[simps] def mapHost (g : Levels → Levels) (k : List HostTurn → List HostTurn) (h : List Byte → List Byte) (s : State) :
    State :=
  { s with levels := g s.levels, script := k s.script, stream := h s.stream }

/-- The operation does the same to the block whatever the host's side is. -/
def IgnoresHost (op : State → Except Fault State) : Prop :=
  ∀ g k h s, op (mapHost g k h s) = (op s).map (mapHost g k h)

section
variable (g : Levels → Levels) (k : List HostTurn → List HostTurn) (h : List Byte → List Byte) (s : State)

@[simp] theorem mapHost_nBytes : (mapHost g k h s).nBytes = s.nBytes := rfl

@[simp] theorem readByte_mapHost (buf : Buf) (a : Nat) : readByte buf a (mapHost g k h s) = readByte buf a s := by
  cases buf <;> rfl

@[simp] theorem memRead_mapHost (buf : Buf) (a n : Nat) : memRead buf a n (mapHost g k h s) = memRead buf a n s := by
  induction n generalizing a with
  | zero => rfl
  | succ n ih => simp only [memRead, readByte_mapHost, ih]

theorem ignoresHost_writeByte (buf : Buf) (a : Nat) (b : Byte) : IgnoresHost (writeByte buf a b) := by
  intro g k h s
  cases buf with
  | scratch => by_cases ha : a < s.params.capacity <;> simp [writeByte, State.bufSize, ha, Except.map]; rfl
  | result => by_cases ha : a < s.params.maxNbytes <;> simp [writeByte, State.bufSize, ha, Except.map]; rfl

theorem ignoresHost_memWrite (buf : Buf) (a n : Nat) (v : Word) : IgnoresHost (memWrite buf a n v) := by
  intro g k h s
  induction n generalizing a v s with
  | zero => rfl
  | succ n ih =>
    simp only [memWrite, ignoresHost_writeByte buf a _ g k h s]
    cases writeByte buf a (byteOf v 0) s with
    | error f => rfl
    | ok s1 => exact ih _ _ s1

end

@[simp] theorem Result.map_ofExcept (f : State → State) (e : Except Fault State) :
    (Result.ofExcept e).map f = .ofExcept (e.map f) := by cases e <;> rfl

/-! The engine (R130, R146). -/

theorem ignoresHost_chunkLoad : IgnoresHost chunkLoad := by
  intro g k h s
  simp only [chunkLoad, mapHost_offR, mapHost_bleftR, mapHost_nBytes, memRead_mapHost]
  cases memRead .scratch s.offR (chunkBytes s.bleftR) s with
  | error f => rfl
  | ok tmsW => cases memRead .scratch (s.nBytes + s.offR) (chunkBytes s.bleftR) s <;> rfl

theorem ignoresHost_chunkStore : IgnoresHost chunkStore := by
  intro g k h s
  simp only [chunkStore, mapHost_offR, mapHost_bleftR, mapHost_tdoW, ignoresHost_memWrite _ _ _ _ g k h s]
  cases memWrite .result s.offR (chunkBytes s.bleftR) s.tdoW s <;> rfl

theorem ignoresHost_chunkEnd : IgnoresHost chunkEnd := by
  intro g k h s
  simp only [chunkEnd, ignoresHost_chunkStore g k h s]
  cases chunkStore s with
  | error f => rfl
  | ok s1 =>
    simp only [Except.map, mapHost_bleftR, ignoresHost_chunkLoad g k h s1]
    split
    · cases chunkLoad s1 <;> rfl
    · rfl

theorem ignoresHost_engineStart : IgnoresHost engineStart := by
  intro g k h s
  simp only [engineStart, mapHost_lenR, mapHost_nBytes, readByte_mapHost]
  split
  · rfl
  cases readByte .scratch 0 s with
  | error f => rfl
  | ok tms0 =>
    cases readByte .scratch s.nBytes s with
    | error f => rfl
    | ok tdi0 =>
      have hsetup : startDelay (pinWrite false (tms0.getLsbD 0) (tdi0.getLsbD 0) (beginShift (mapHost g k h s))) =
          mapHost g k h (startDelay (pinWrite false (tms0.getLsbD 0) (tdi0.getLsbD 0) (beginShift s))) := rfl
      simp only [hsetup, ignoresHost_chunkLoad g k h]
      cases chunkLoad (startDelay (pinWrite false (tms0.getLsbD 0) (tdi0.getLsbD 0) (beginShift s))) <;> rfl

theorem ignoresHost_sampleEdge : IgnoresHost sampleEdge := by
  intro g k h s
  have hsample : sampleAndShift (mapHost g k h s) = mapHost g k h (sampleAndShift s) := rfl
  simp only [sampleEdge, mapHost_nstepR, mapHost_stepR, hsample, ignoresHost_chunkEnd g k h (sampleAndShift s)]
  split <;> rfl

theorem ignoresHost_afterDelay {act : State → Except Fault State} (hact : IgnoresHost act) : IgnoresHost (afterDelay act) := by
  intro g k h s
  simp only [afterDelay, mapHost_dlyCnt, hact g k h s]
  split <;> rfl

theorem ignoresHost_engineEdge : IgnoresHost engineEdge := by
  intro g k h s
  cases he : s.est <;> simp only [engineEdge, mapHost_est, he]
  case eIdle | eStart => exact ignoresHost_engineStart g k h s
  case eSample => exact ignoresHost_sampleEdge g k h s
  all_goals exact ignoresHost_afterDelay (fun _ _ _ _ => rfl) g k h s

/-- Settles O59: the engine's edge ignores the host's side, and in SH_RUN there is no other edge without a reset. -/
theorem engineIgnoresTheHost : Obligations.EngineIgnoresTheHost := by
  intro s l q hf hr hl
  have hside : setHostSide l q = mapHost (fun _ => l) id fun _ => q := rfl
  rw [hside]
  simp only [edge, mapHost_fst, mapHost_levels, hf, hr, hl, Bool.false_eq_true, if_false, ignoresHost_engineEdge _ _ _ s,
    Result.map_ofExcept]

/-! The bytes of the framer's fields. -/

theorem ignoresHost_tokByte (b : Byte) : IgnoresHost (tokByte b) := by
  intro g k h s
  have hdispatch : ∀ u, dispatchToken (mapHost g k h u) = mapHost g k h (dispatchToken u) := fun u => by
    simp only [dispatchToken, mapHost_tokR]
    split
    · rfl
    split
    · rfl
    split <;> rfl
  simp only [tokByte, mapHost_cntR, mapHost_tokR]
  split
  · rfl
  · exact congrArg Except.ok (hdispatch (setTok (s.tokR.extractLsb' 8 8 ++ b) s))

theorem ignoresHost_stReadByte (b : Byte) : IgnoresHost (stReadByte b) := by
  intro g k h s
  simp only [stReadByte, mapHost_cntR]
  split
  · rfl
  split <;> rfl

theorem ignoresHost_shBodyByte (b : Byte) : IgnoresHost (shBodyByte b) := by
  intro g k h s
  simp only [shBodyByte, mapHost_cntR, ignoresHost_writeByte _ _ _ g k h s]
  cases writeByte .scratch (s.cntR - 1) b s with
  | error f => rfl
  | ok s1 =>
    simp only [Except.map, mapHost_nBytes, mapHost_cntR]
    split <;> rfl

/-- What a read state does with its byte. -/
theorem ignoresHost_onByte (f : Fst) (b : Byte) : IgnoresHost (f.onByte b) := by
  intro g k h s
  cases f
  case tok => exact ignoresHost_tokByte b g k h s
  case stRead => exact ignoresHost_stReadByte b g k h s
  case shBody => exact ignoresHost_shBodyByte b g k h s
  case giSkip | shSkip | shLen =>
    simp only [Fst.onByte, giSkipByte, shSkipByte, shLenByte, mapHost_cntR]
    split <;> rfl
  all_goals rfl

theorem replyByte_mapHost (f : Fst) (g : Levels → Levels) (k : List HostTurn → List HostTurn) (h : List Byte → List Byte)
    (s : State) : f.replyByte (mapHost g k h s) = f.replyByte s := by cases f <;> rfl

/-! Every edge of a busy block. -/

/-- The levels that `RxByte` examines in `s` are the same in `l` (R100). -/
structure SameRx (s : State) (l : Levels) : Prop where
  shutdown : l.shutdown = s.levels.shutdown
  rxErr : l.rxErr = s.levels.rxErr
  rxOffer : l.rxOffer = s.levels.rxOffer
  rxEof : s.rxValid = false → l.rxEof = s.levels.rxEof

/-- The levels that `TxByte` examines in `s` are the same in `l` (R101). -/
structure SameTx (s : State) (l : Levels) : Prop where
  txErr : l.txErr = s.levels.txErr
  txReady : l.txReady = s.levels.txReady

section
variable {g : Levels → Levels} {k : List HostTurn → List HostTurn} {s : State}

theorem readEdge_mapHost {act : Byte → State → Except Fault State} (hact : ∀ b, IgnoresHost (act b))
    (hl : SameRx s (g s.levels)) : readEdge act (mapHost g k id s) = (readEdge act s).map (mapHost g k id) := by
  obtain ⟨hsd, herr, hoffer, heof⟩ := hl
  cases hsd' : s.levels.shutdown
  case true => simp only [readEdge, rxByte, mapHost_levels, hsd, hsd', if_true]; rfl
  cases herr' : s.levels.rxErr
  case true => simp only [readEdge, rxByte, mapHost_levels, hsd, hsd', herr, herr', Bool.false_eq_true, if_false, if_true]; rfl
  by_cases hv : s.rxValid = true
  · obtain ⟨ho, b, rest, hs⟩ := rxValid_iff.1 hv
    have hbyte : rxByte s = .byte b (consumeByte b rest s) := rxByte_byte_iff.2 ⟨hsd', herr', ho, rest, hs, rfl⟩
    have hbyte' : rxByte (mapHost g k id s) = .byte b (mapHost g k id (consumeByte b rest s)) :=
      rxByte_byte_iff.2 ⟨hsd.trans hsd', herr.trans herr', hoffer.trans ho, rest, hs, rfl⟩
    simp only [readEdge, hbyte, hbyte']
    exact hact b g k id (consumeByte b rest s)
  · have hv := Bool.eq_false_of_not_eq_true hv
    have hv' : (mapHost g k id s).rxValid = false := by rw [← hv, State.rxValid, State.rxValid, mapHost_levels, hoffer]; rfl
    simp only [readEdge, rxByte_of_not_rxValid hsd' herr' hv,
      rxByte_of_not_rxValid (s := mapHost g k id s) (hsd.trans hsd') (herr.trans herr') hv', mapHost_levels, mapHost_fst,
      mapHost_cntR, heof hv]
    split_ifs <;> rfl

theorem replyEdge_mapHost {total : Nat} {byteAt : State → Except Fault Byte} {h : List Byte → List Byte}
    (hbyte : ∀ g k h u, byteAt (mapHost g k h u) = byteAt u) (hl : s.cntR < total → SameTx s (g s.levels)) :
    replyEdge total byteAt (mapHost g k h s) = (replyEdge total byteAt s).map (mapHost g k h) := by
  simp only [replyEdge, mapHost_cntR, mapHost_levels, hbyte]
  split
  · rfl
  rename_i hc
  obtain ⟨herr, hready⟩ := hl (Nat.lt_of_not_le hc)
  rw [herr, hready]
  split
  · rfl
  split
  · cases byteAt s with
    | error f => rfl
    | ok b => simp only; split <;> rfl
  · rfl

/-- An edge of a busy block does the same to it under levels that are the same where it examines them (R24, R100, R101). -/
theorem edge_mapHost (hb : s.busy = true) (hrst : s.levels.rst = false) (hr : (g s.levels).rst = false)
    (hread : s.fst.isRead = true → SameRx s (g s.levels)) (hreply : s.txValid = true → SameTx s (g s.levels)) :
    edge (mapHost g k id s) = (edge s).map (mapHost g k id) := by
  by_cases hf : s.fst.isRead = true
  · rw [edge_eq_readEdge hrst hf, edge_eq_readEdge (s := mapHost g k id s) hr hf, Result.map_ofExcept]
    exact congrArg _ (readEdge_mapHost (ignoresHost_onByte s.fst) (hread hf))
  by_cases hf' : s.fst.isReply = true
  · rw [edge_eq_replyEdge hrst hf', edge_eq_replyEdge (s := mapHost g k id s) hr hf', Result.map_ofExcept]
    exact congrArg _ (replyEdge_mapHost (replyByte_mapHost s.fst) fun hc => hreply (txValid_iff.2 ⟨hf', hc⟩))
  simp only [edge, mapHost_levels, mapHost_fst, hr, hrst, Bool.false_eq_true, if_false]
  cases hs : s.fst <;> simp only [State.busy, hs, Fst.isRead, Fst.isReply, Fst.isBusy, Bool.false_eq_true, not_true] at hb hf hf'
  case shCheck =>
    simp only [shCheckEdge, mapHost_params, mapHost_lenR]
    split_ifs <;> rfl
  case shRun => simp only [ignoresHost_engineEdge _ _ _ s, Result.map_ofExcept]
  case done =>
    have hcloses : hostCloses (setFst .idle (mapHost g k id s)) = mapHost g k id (hostCloses (setFst .idle s)) := by
      by_cases h : s.outcomeR = CmdOutcome.close.code ∨ s.outcomeR = CmdOutcome.closeError.code <;>
        simp only [hostCloses, setFst_outcomeR, mapHost_outcomeR, h, if_true, if_false] <;> rfl
    simp only [leaveDone, mapHost_causeR, mapHost_outcomeR, hcloses]
    split_ifs <;> rfl

end

/-- Settles O58: `cmd_go` is no level that a busy block examines. -/
theorem busyBlockIgnoresCmdGo : Obligations.BusyBlockIgnoresCmdGo := by
  intro s b hb
  have hgo : setGo b = mapHost (fun l => { l with cmdGo := b }) id id := rfl
  cases hr : s.levels.rst
  case true => simp [edge, setGo, hr, resetEdge, Result.map]
  rw [hgo]
  exact edge_mapHost hb hr hr (fun _ => ⟨rfl, rfl, rfl, fun _ => rfl⟩) fun _ => ⟨rfl, rfl⟩

end Sys2Proof.Machine

namespace Sys2Proof.Machine

/-! ### The framer with a serving host -/

theorem runs_edge {u v : State} (hb : u.busy = true) (hscript : u.script = []) (hw : u.waiting = false)
    (he : edge u = .next v) : Runs 1 u v :=
  .one hb (by simp [State.hung, hw]) (tick_nil hscript ▸ he)

theorem steady_iff {u : State} : u.steady = true ↔ u.script = [] ∧ u.levels.serving = true := by
  simp [State.steady]

theorem busy_of_isRead_or_isReply {u : State} (h : u.fst.isRead = true ∨ u.fst.isReply = true) : u.busy = true := by
  cases hf : u.fst <;> simp [hf, Fst.isRead, Fst.isReply, State.busy, Fst.isBusy] at h ⊢

theorem Levels.serving_iff {l : Levels} :
    l.serving = true ↔
      l.rxOffer = true ∧ l.txReady = true ∧ l.rst = false ∧ l.rxErr = false ∧ l.txErr = false ∧ l.shutdown = false := by
  simp [Levels.serving, and_assoc]

/-- A serving host makes the block wait only in a read at the end of the stream. -/
theorem not_waiting_of_serving {u : State} (hl : u.levels.serving = true) (hs : u.fst.isRead = true → u.stream ≠ []) :
    u.waiting = false := by
  have hlevels := Levels.serving_iff.1 hl
  cases hf : u.fst.isRead <;> simp_all [State.waiting, State.rxValid]

/-- With a serving host a byte takes one turn of the clock. -/
theorem runs_read {u v : State} {b : Byte} {rest : List Byte} (hsteady : u.steady = true) (hf : u.fst.isRead = true)
    (hs : u.stream = b :: rest) (hv : u.fst.onByte b (consumeByte b rest u) = .ok v) : Runs 1 u v := by
  obtain ⟨hscript, hl⟩ := steady_iff.1 hsteady
  refine runs_edge (busy_of_isRead_or_isReply (.inl hf)) hscript
    (not_waiting_of_serving hl fun _ => by simp [hs]) ?_
  rw [edge_eq_readEdge (rxOffer_rst_of_serving hl).2 hf, readEdge_serving hl hs, hv, Result.ofExcept_ok]

/-- How many bytes at the front of a field are only counted (R105, R107, R110). -/
def Fst.skips : Fst → Nat
  | .giSkip | .stRead => 5
  | .shSkip => 3
  | .init | .idle | .tok | .giReply | .stReply | .shLen | .shCheck | .shBody | .shRun | .shReply | .done | .halt | .fatal => 0

theorem runs_skipByte {u : State} {b : Byte} {rest : List Byte} (hsteady : u.steady = true) (hs : u.stream = b :: rest)
    (hc : u.cntR < u.fst.skips) : Runs 1 u (consumeByte b rest u) := by
  have hf : u.fst = .giSkip ∨ u.fst = .stRead ∨ u.fst = .shSkip := by
    cases hf : u.fst <;> simp [Fst.skips, hf] at hc ⊢
  obtain hf | hf | hf := hf <;> simp only [hf, Fst.skips] at hc <;> refine runs_read hsteady (by simp [hf, Fst.isRead]) hs ?_
  · simp [hf, Fst.onByte, giSkipByte]; omega
  · simp [hf, Fst.onByte, stReadByte]; omega
  · simp [hf, Fst.onByte, shSkipByte]; omega

/-- The bytes `c` consumed, `q` the stream after them. -/
def consumeBytes (c q : List Byte) (s : State) : State :=
  { s with cntR := s.cntR + c.length, stream := q, trace := s.trace ++ c.map .consume }

theorem consumeBytes_cons (b : Byte) (c q : List Byte) (s : State) :
    consumeBytes c q (consumeByte b (c ++ q) s) = consumeBytes (b :: c) q s := by
  simp [consumeBytes, consumeByte, record, Nat.add_assoc, Nat.add_comm 1]

/-- One byte more consumed. -/
theorem consumeByte_consumeBytes (c : List Byte) (b : Byte) (q q' : List Byte) (s : State) :
    consumeByte b q (consumeBytes c q' s) = consumeBytes (c ++ [b]) q s := by
  simp [consumeBytes, consumeByte, record, Nat.add_assoc]

theorem exists_last_byte {c : List Byte} {n : Nat} (h : c.length = n + 1) : ∃ d b, c = d ++ [b] ∧ d.length = n := by
  obtain rfl | ⟨d, b, rfl⟩ := c.eq_nil_or_concat
  · simp at h
  · exact ⟨d, b, by simp, by simpa using h⟩

theorem runs_skip {u : State} {c q : List Byte} (hsteady : u.steady = true) (hs : u.stream = c ++ q)
    (hc : u.cntR + c.length ≤ u.fst.skips) : Runs c.length u (consumeBytes c q u) := by
  induction c generalizing u with
  | nil =>
    obtain rfl : u.stream = q := hs
    simp [Runs, consumeBytes]
  | cons b c ih =>
    rw [List.length_cons] at hc
    have hfirst := runs_skipByte hsteady hs (by omega)
    have hrest := ih (u := consumeByte b (c ++ q) u) hsteady rfl (by simp; omega)
    rw [consumeBytes_cons] at hrest
    rw [List.length_cons, Nat.add_comm]
    exact hfirst.trans hrest

/-- A field of discarded bytes to its end, and the entry to the next state. -/
theorem runs_discard {u : State} {c q : List Byte} {f : Fst} (hsteady : u.steady = true) (hf : u.fst.isRead = true)
    (hc : u.cntR = 0) (hlen : c.length = u.fst.skips + 1) (hs : u.stream = c ++ q)
    (hlast : ∀ b v, v.cntR = u.fst.skips + 1 → u.fst.onByte b v = .ok (enter f v)) :
    Runs c.length u (enter f (consumeBytes c q u)) := by
  obtain ⟨d, b, rfl, hd⟩ := exists_last_byte hlen
  rw [List.append_assoc] at hs
  have hend := runs_read (u := consumeBytes d ([b] ++ q) u) hsteady hf rfl (hlast b _ (by simp [consumeBytes, hc, hd]))
  rw [consumeByte_consumeBytes] at hend
  rw [List.length_append]
  exact (runs_skip hsteady hs (by omega)).trans hend

/-- The byte that completes a token of the table leads to the token's state (R104). -/
theorem tokByte_legal {u : State} {b : Byte} {rest : List Byte} {f : Fst} (hc : u.cntR ≠ 0)
    (hmem : (tokenOf (u.tokR.extractLsb' 8 8) b, f) ∈ dispatchTable) :
    tokByte b (consumeByte b rest u) =
      .ok (enter f (setTok (tokenOf (u.tokR.extractLsb' 8 8) b) (consumeByte b rest u))) := by
  refine (if_neg (by simp [hc])).trans (congrArg Except.ok ?_)
  change dispatchToken (setTok (tokenOf (u.tokR.extractLsb' 8 8) b) (consumeByte b rest u)) = _
  obtain ⟨ht, rfl⟩ | ⟨ht, rfl⟩ | ⟨ht, rfl⟩ := mem_dispatchTable.1 hmem <;> rw [ht]
  · rfl
  · rfl
  · rfl

/-- From the entry to TOK a token of the table takes two turns of the clock. -/
theorem runs_token {u : State} {b0 b1 : Byte} {rest : List Byte} {f : Fst} (hf : u.fst = .tok) (hc : u.cntR = 0)
    (hsteady : u.steady = true) (hs : u.stream = b0 :: b1 :: rest) (hmem : (tokenOf b0 b1, f) ∈ dispatchTable) :
    Runs 2 u (enter f (setTok (tokenOf b0 b1) (consumeBytes [b0, b1] rest u))) := by
  obtain ⟨hscript, hl⟩ := steady_iff.1 hsteady
  have hfirst := runs_tokByte hf hscript hl hs (tokByte_first hc)
  have hhigh : (tokenOf b0 (u.tokR.extractLsb' 0 8)).extractLsb' 8 8 = b0 := tokenOf_high _ _
  have hsecond := runs_tokByte (u := setTok (tokenOf b0 (u.tokR.extractLsb' 0 8)) (consumeByte b0 (b1 :: rest) u))
    hf hscript hl rfl (tokByte_legal (Nat.succ_ne_zero _) (by rwa [setTok_tokR, hhigh]))
  rw [setTok_tokR, hhigh] at hsecond
  simpa [consumeBytes, consumeByte, record, setTok, enter, setCnt, setFst] using hfirst.trans hsecond

/-- The bytes `bs` emitted. -/
def emitBytes (bs : List Byte) (s : State) : State :=
  { s with cntR := s.cntR + bs.length, trace := s.trace ++ bs.map .emit }

theorem emitBytes_cons (b : Byte) (bs : List Byte) (s : State) : emitBytes bs (emitByte b s) = emitBytes (b :: bs) s := by
  simp [emitBytes, emitByte, record, Nat.add_assoc, Nat.add_comm 1]

theorem runs_reply {u : State} {bs : List Byte} (hsteady : u.steady = true) (hf : u.fst.isReply = true) (hne : bs ≠ [])
    (hc : u.cntR + bs.length = u.replyTotal) (hdata : ∀ j < bs.length, (emitBytes (bs.take j) u).txData = bs[j]?) :
    Runs bs.length u (finish .cont .none (emitBytes bs u)) := by
  obtain ⟨hscript, hl⟩ := steady_iff.1 hsteady
  induction bs generalizing u with
  | nil => exact absurd rfl hne
  | cons b bs ih =>
    rw [List.length_cons] at hc
    have hedge : edge u = .next (if u.cntR + 1 = u.replyTotal then finish .cont .none (emitByte b u) else emitByte b u) := by
      obtain ⟨-, hready, hr, -, herr, -⟩ := Levels.serving_iff.1 hl
      have hb : u.txData = some b := by simpa [emitBytes] using hdata 0 (Nat.succ_pos _)
      rw [replyEdgeOrder u b hr (txValid_iff.2 ⟨hf, by omega⟩) hb, if_neg (by simp [herr]), if_pos hready]
    have hone := runs_edge (busy_of_isRead_or_isReply (.inr hf)) hscript
      (not_waiting_of_serving hl fun h => by cases h' : u.fst <;> simp [h', Fst.isRead, Fst.isReply] at h hf) hedge
    cases bs with
    | nil =>
      rw [if_pos (show u.cntR + 1 = u.replyTotal from hc)] at hone
      exact hone
    | cons b' bs =>
      rw [List.length_cons] at hc
      rw [if_neg (by omega)] at hone
      have hrest := ih (u := emitByte b u) hsteady hf (by simp) (show u.cntR + 1 + (bs.length + 1) = u.replyTotal by omega)
        (fun j hj => ?_) hscript hl
      · rw [emitBytes_cons] at hrest
        rw [List.length_cons, Nat.add_comm]
        exact hone.trans hrest
      · have := hdata (j + 1) (by simpa using hj)
        rwa [List.take_succ_cons, ← emitBytes_cons] at this

/-- A reply taken to its end, and the return to IDLE with the stream as it is (R119). -/
theorem runs_finish {u : State} (hsteady : u.steady = true) :
    Runs 1 (finish .cont .none u) (setFst .idle (finish .cont .none u)) := by
  obtain ⟨hscript, hl⟩ := steady_iff.1 hsteady
  refine runs_edge rfl hscript (not_waiting_of_serving hl fun h => by simp [Fst.isRead] at h) ?_
  rw [returnFromDone (finish .cont .none u) rfl (rxOffer_rst_of_serving hl).2 (show Cause.none.code.toNat < 10 by decide)]
  rfl

/-- The return to IDLE after a condition with CLOSE_ERROR, at which the host drops its unread bytes (R119, R174). -/
theorem runs_raiseCond {u : State} {x : Cond} (hsteady : u.steady = true) (hx : x.outcome = .closeError) :
    Runs 1 (raiseCond x u) (setStream [] (setFst .idle (raiseCond x u))) := by
  obtain ⟨hscript, hl⟩ := steady_iff.1 hsteady
  refine runs_edge rfl hscript (not_waiting_of_serving hl fun h => by simp [Fst.isRead] at h) ?_
  have hcause : x.cause.code.toNat < 10 := by cases x <;> decide
  have houtcome : (raiseCond x u).outcomeR = 2 := by simp [hx, CmdOutcome.code]
  rw [returnFromDone (raiseCond x u) rfl (rxOffer_rst_of_serving hl).2 hcause, if_neg (by rw [houtcome]; decide),
    if_neg (by rw [houtcome]; decide)]
  rfl

/-! ### GETINFO (R105, R106) -/

theorem txData_of_giReply {u : State} (hf : u.fst = .giReply) (hc : u.cntR < 20) : u.txData = infoBytes[u.cntR]? := by
  obtain ⟨-, -, -, -, -, -, -, -, -, -, -, -, -, hgetinfo, -⟩ := outputPortLevels u
  exact (hgetinfo hf hc).2

/-- The 20 bytes of the reply, from the entry to GI_REPLY on (R105). -/
theorem runs_giReply {u : State} (hsteady : u.steady = true) (hf : u.fst = .giReply) (hc : u.cntR = 0) :
    Runs 20 u (finish .cont .none (emitBytes infoBytes u)) := by
  refine runs_reply (bs := infoBytes) hsteady (by simp [hf, Fst.isReply]) (by simp [infoBytes])
    (by simp [hc, State.replyTotal, hf]) fun j hj => ?_
  have hcnt : (emitBytes (infoBytes.take j) u).cntR = j := by simp [emitBytes, hc]; omega
  rw [txData_of_giReply (u := emitBytes (infoBytes.take j) u) hf (by rw [hcnt]; exact hj), hcnt]

theorem runs_giSkip {u : State} {rem6 q : List Byte} (hsteady : u.steady = true) (hf : u.fst = .giSkip) (hc : u.cntR = 0)
    (hlen : rem6.length = 6) (hs : u.stream = rem6 ++ q) : Runs 6 u (enter .giReply (consumeBytes rem6 q u)) :=
  hlen ▸ runs_discard hsteady (by simp [hf, Fst.isRead]) hc (by simp [hf, hlen, Fst.skips]) hs fun b v hv => by
    simp [hf, Fst.onByte, giSkipByte, hv, Fst.skips]

/-- A command ends where a run from the entry to TOK leads. -/
theorem exec_of_runs {s t : State} {i : Instr} {k : Nat} (hgo : s.startsCommand = true)
    (hr : Runs k (enter .tok (offerCommand i s)) t) (ht : t.busy = false) (hk : k ≤ 64) : exec i s = .next t := by
  rw [exec_eq_commandCycle, commandCycle_of_runs (edge_startsCommand (s := offerCommand i s) hgo) hr ht
    (by unfold cycleEdges; omega)]

/-- Settles O24: two edges on the token, six that discard, the 20 of the reply, and DONE. -/
theorem getinfoCompletes : Obligations.GetinfoCompletes := by
  intro s rem6 hgo hsteady hlen
  have hf : s.fst = .idle := by simp_all [State.startsCommand]
  have htoken := runs_token (u := enter .tok (offerCommand (.getinfo rem6) s)) (b0 := 0x67) (b1 := 0x65)
    (rest := rem6 ++ s.stream) (f := .giSkip) rfl rfl hsteady rfl (by decide)
  have hskip := htoken.trans (runs_giSkip hsteady rfl rfl hlen rfl)
  have hrun := (hskip.trans (runs_giReply hsteady rfl rfl)).trans (runs_finish hsteady)
  rw [exec_of_runs hgo hrun rfl (by omega)]
  simp [enter, setCnt, setFst, setTok, consumeBytes, emitBytes, offerCommand, setStream, finish, record, hf, encode, tokenOf,
    tokenBytes, tokenGetinfo, infoBytes, CmdOutcome.code, Cause.code]

/-! ### SETTCK (R107, R108) -/

/-- `ECHO_R <- w`. -/
def setEcho (w : Word) (s : State) : State := { s with echoR := w }

theorem runs_echoByte {u : State} {b : Byte} {rest : List Byte} (j : Nat) (hsteady : u.steady = true) (hf : u.fst = .stRead)
    (hs : u.stream = b :: rest) (hc : u.cntR = 5 + j) (hj : j < 3) : Runs 1 u (setEchoByte j b (consumeByte b rest u)) := by
  refine runs_read hsteady (by simp [hf, Fst.isRead]) hs ?_
  rw [hf, Fst.onByte, stReadByte, if_neg (by simp [hc]), if_pos (by simp [hc]; omega), consumeByte_cntR, hc,
    show 5 + j + 1 - 6 = j by omega]

theorem runs_echoLast {u : State} {b : Byte} {rest : List Byte} (hsteady : u.steady = true) (hf : u.fst = .stRead)
    (hs : u.stream = b :: rest) (hc : u.cntR = 8) : Runs 1 u (enter .stReply (setEchoByte 3 b (consumeByte b rest u))) :=
  runs_read hsteady (by simp [hf, Fst.isRead]) hs (by simp [hf, Fst.onByte, stReadByte, hc])

/-- The four bytes of the period, which go to ECHO_R (R107). -/
theorem runs_period {u : State} {w : Word} {q : List Byte} (hsteady : u.steady = true) (hf : u.fst = .stRead) (hc : u.cntR = 5)
    (hs : u.stream = wordBytes w ++ q) : Runs 4 u (enter .stReply (setEcho w (consumeBytes (wordBytes w) q u))) := by
  have h0 := runs_echoByte 0 hsteady hf hs hc (by omega)
  have h1 := h0.trans (runs_echoByte 1 hsteady hf rfl (by simp [hc]) (by omega))
  have h2 := h1.trans (runs_echoByte 2 hsteady hf rfl (by simp [hc]) (by omega))
  have h3 := h2.trans (runs_echoLast hsteady hf rfl (by simp [hc]))
  simpa [enter, setCnt, setFst, setEchoByte, setEcho, consumeByte, consumeBytes, record, wordBytes, setByte_le32] using h3

theorem txData_of_stReply {u : State} (hf : u.fst = .stReply) (hc : u.cntR < 4) : u.txData = (wordBytes u.echoR)[u.cntR]? := by
  obtain ⟨-, -, -, -, -, -, -, -, -, -, -, -, -, -, hsettck, -⟩ := outputPortLevels u
  rw [show u.txData = _ from (hsettck hf hc).2]
  obtain h | h | h | h : u.cntR = 0 ∨ u.cntR = 1 ∨ u.cntR = 2 ∨ u.cntR = 3 := by omega
  all_goals simp [h, wordBytes]

/-- The four bytes echoed, from the entry to ST_REPLY on (R107). -/
theorem runs_stReply {u : State} (hsteady : u.steady = true) (hf : u.fst = .stReply) (hc : u.cntR = 0) :
    Runs 4 u (finish .cont .none (emitBytes (wordBytes u.echoR) u)) := by
  refine runs_reply (bs := wordBytes u.echoR) hsteady (by simp [hf, Fst.isReply]) (by simp [wordBytes])
    (by simp [hc, State.replyTotal, hf, wordBytes]) fun j hj => ?_
  have hcnt : (emitBytes ((wordBytes u.echoR).take j) u).cntR = j := by simp [emitBytes, hc]; omega
  rw [txData_of_stReply (u := emitBytes ((wordBytes u.echoR).take j) u) hf (by rw [hcnt]; exact hj), hcnt]
  rfl

/-- Settles O25: two edges on the token, five that discard, four that fill ECHO_R, the four of the reply, and DONE. -/
theorem settckCompletes : Obligations.SettckCompletes := by
  intro s rem5 period hgo hsteady hlen
  have hf : s.fst = .idle := by simp_all [State.startsCommand]
  have htoken := runs_token (u := enter .tok (offerCommand (.settck rem5 period) s)) (b0 := 0x73) (b1 := 0x65)
    (rest := rem5 ++ (wordBytes period ++ s.stream)) (f := .stRead) rfl rfl hsteady (by simp [encode, tokenBytes, tokenSettck])
    (by decide)
  have hskip := htoken.trans (runs_skip hsteady rfl (by simp [hlen, Fst.skips]))
  have hperiod := hskip.trans (runs_period hsteady rfl (by simp [consumeBytes, hlen]) rfl)
  have hrun := (hperiod.trans (runs_stReply hsteady rfl rfl)).trans (runs_finish hsteady)
  rw [exec_of_runs hgo hrun rfl (by omega)]
  simp [enter, setCnt, setFst, setTok, setEcho, consumeBytes, emitBytes, offerCommand, setStream, finish, record, hf, encode,
    tokenOf, tokenBytes, tokenSettck, wordBytes, CmdOutcome.code, Cause.code]

/-! ### A SHIFT that does not fit (R113, R167) -/

/-- `LEN_R <- w`. -/
def setLen (w : Word) (s : State) : State := { s with lenR := w }

theorem runs_shSkip {u : State} {rem4 q : List Byte} (hsteady : u.steady = true) (hf : u.fst = .shSkip) (hc : u.cntR = 0)
    (hlen : rem4.length = 4) (hs : u.stream = rem4 ++ q) : Runs 4 u (enter .shLen (consumeBytes rem4 q u)) :=
  hlen ▸ runs_discard hsteady (by simp [hf, Fst.isRead]) hc (by simp [hf, hlen, Fst.skips]) hs fun b v hv => by
    simp [hf, Fst.onByte, shSkipByte, hv, Fst.skips]

theorem runs_lenByte {u : State} {b : Byte} {rest : List Byte} (j : Nat) (hsteady : u.steady = true) (hf : u.fst = .shLen)
    (hs : u.stream = b :: rest) (hc : u.cntR = j) (hj : j < 3) : Runs 1 u (setLenByte j b (consumeByte b rest u)) := by
  refine runs_read hsteady (by simp [hf, Fst.isRead]) hs ?_
  rw [hf, Fst.onByte, shLenByte, if_pos (by simp [hc]; omega), consumeByte_cntR, hc, Nat.add_sub_cancel]

theorem runs_lenLast {u : State} {b : Byte} {rest : List Byte} (hsteady : u.steady = true) (hf : u.fst = .shLen)
    (hs : u.stream = b :: rest) (hc : u.cntR = 3) :
    Runs 1 u (setFst .shCheck (latchBytes (setLenByte 3 b (consumeByte b rest u)))) :=
  runs_read hsteady (by simp [hf, Fst.isRead]) hs (by simp [hf, Fst.onByte, shLenByte, hc])

/-- The four bytes of the length, which go to LEN_R (R111). -/
theorem runs_length {u : State} {w : Word} {q : List Byte} (hsteady : u.steady = true) (hf : u.fst = .shLen) (hc : u.cntR = 0)
    (hs : u.stream = wordBytes w ++ q) :
    Runs 4 u (setFst .shCheck (latchBytes (setLen w (consumeBytes (wordBytes w) q u)))) := by
  have h0 := runs_lenByte 0 hsteady hf hs hc (by omega)
  have h1 := h0.trans (runs_lenByte 1 hsteady hf rfl (by simp [hc]) (by omega))
  have h2 := h1.trans (runs_lenByte 2 hsteady hf rfl (by simp [hc]) (by omega))
  have h3 := h2.trans (runs_lenLast hsteady hf rfl (by simp [hc]))
  simpa [latchBytes, setFst, setLenByte, setLen, consumeByte, consumeBytes, record, wordBytes, setByte_le32] using h3

theorem runs_oversize {u : State} (hsteady : u.steady = true) (hf : u.fst = .shCheck)
    (hover : u.params.capacity < 2 * ceilBytes u.lenR) : Runs 1 u (raiseCond .oversize (latchBytes u)) := by
  obtain ⟨hscript, hl⟩ := steady_iff.1 hsteady
  obtain ⟨-, hcheck⟩ := capacityCheckEdge u (rxOffer_rst_of_serving hl).2
  refine runs_edge (by simp [State.busy, hf, Fst.isBusy]) hscript
    (not_waiting_of_serving hl fun h => by simp [hf, Fst.isRead] at h) ?_
  rw [hcheck hf, if_pos hover]
  rfl

/-- Settles O27: ten edges that read, the check, which raises the condition, and DONE, after which no byte of the stream is
left (log 16). -/
theorem oversizeShiftEndsCommand : Obligations.OversizeShiftEndsCommand := by
  intro s rem4 len hgo hsteady hlen hover
  have hf : s.fst = .idle := by simp_all [State.startsCommand]
  have htoken := runs_token (u := enter .tok (offerCommand (.shift rem4 len [] []) s)) (b0 := 0x73) (b1 := 0x68)
    (rest := rem4 ++ (wordBytes len ++ s.stream)) (f := .shSkip) rfl rfl hsteady (by simp [encode, tokenBytes, tokenShift])
    (by decide)
  have hskip := htoken.trans (runs_shSkip hsteady rfl rfl hlen rfl)
  have hlength := hskip.trans (runs_length hsteady rfl rfl rfl)
  have hrun := (hlength.trans (runs_oversize hsteady rfl hover)).trans (runs_raiseCond hsteady rfl)
  rw [exec_of_runs hgo hrun rfl (by omega)]
  simp [enter, setCnt, setFst, setTok, setLen, latchBytes, consumeBytes, offerCommand, setStream, raiseCond, finish, record, hf,
    encode, tokenOf, tokenBytes, tokenShift, wordBytes, Cond.outcome, Cond.cause, CmdOutcome.code, Cause.code]

end Sys2Proof.Machine

namespace Sys2Proof.Machine

/-! ### What GETINFO leaves as it was (R105) -/

/-- ST_READ is entered from TOK on the token of SETTCK only. -/
theorem Move.not_stRead {i : Instr} {u v : State} (h : Move u v) (hi : i.token ≠ tokenSettck) (htoken : u.TokenOk i)
    (hu : u.fst ≠ .stRead) : v.fst ≠ .stRead := by
  intro hv
  have hnext := h.fst_mem_next
  rw [hv] at hnext
  have htok : u.fst = .tok := by
    cases hf : u.fst <;> simp [hf, Fst.next] at hnext hu ⊢
  obtain ⟨b0, b1, q, htable, hreads⟩ := htoken.reads htok
  obtain hdone | ⟨htok', -⟩ | ⟨hmem, -, -⟩ := h.readsToken htok hreads
  · simp [hv] at hdone
  · simp [hv] at htok'
  · rw [htable, hv] at hmem
    simp [mem_dispatchTable, hi] at hmem

/-- What GETINFO keeps along its run. -/
structure GetinfoKept (s : State) (i : Instr) (u : State) : Prop where
  engine : engineSideKept s u
  lenR : u.lenR = s.lenR
  nbytesR : u.nbytesR = s.nbytesR
  echoR : u.echoR = s.echoR
  delayR : u.delayR = s.delayR
  params : u.params = s.params
  token : u.TokenOk i
  notSettck : u.fst ≠ .stRead

theorem Move.keeps_getinfoKept {s u v : State} {i : Instr} (hi : i.token = tokenGetinfo) (h : Move u v) (hb : u.busy = true)
    (hu : GetinfoKept s i u) : GetinfoKept s i v := by
  have htoken := h.keeps_tokenOk hb hu.token
  have hshift : ∀ {w : State}, w.TokenOk i → w.fst.isShift = false := fun hw => by
    by_contra hne
    exact absurd (hi.symm.trans (hw.shift (Bool.eq_true_of_not_eq_false hne))) (by decide)
  have hu' := hshift hu.token
  have hv' := hshift htoken
  obtain ⟨hlen, hn⟩ := h.keeps_len (fun hf => by simp [hf, Fst.isShift] at hu') (fun hf => by simp [hf, Fst.isShift] at hu')
  exact ⟨h.keeps_engineSide (fun hf => by simp [hf, Fst.isShift] at hu') (fun hf => by simp [hf, Fst.isShift] at hu')
    (fun hf => by simp [hf, Fst.isShift] at hv') hu.engine, hlen.trans hu.lenR, hn.trans hu.nbytesR,
    (h.keeps_echoR hu.notSettck).trans hu.echoR, h.keeps_delayR.trans hu.delayR, h.keeps_params.trans hu.params, htoken,
    h.not_stRead (by rw [hi]; decide) hu.token hu.notSettck⟩

/-- Settles O30: its token leads neither to ST_READ nor to the states of SHIFT. -/
theorem getinfoFrame : Obligations.GetinfoFrame := by
  intro s t rem6 hgo hr h _
  have hkept := exec_induction_of_noReset (P := GetinfoKept s (.getinfo rem6))
    (fun u l r hu => ⟨hu.engine, hu.lenR, hu.nbytesR, hu.echoR, hu.delayR, hu.params, ⟨hu.token.reads, hu.token.shift⟩,
      hu.notSettck⟩)
    (fun u v hb hu hm => hm.keeps_getinfoKept rfl hb hu) hgo hr
    ⟨by simp [engineSideKept, State.lines], rfl, rfl, rfl, rfl, rfl, tokenOk_of_startsCommand s _, by simp⟩ h
  exact ⟨hkept.engine, hkept.lenR, hkept.nbytesR, hkept.echoR, hkept.delayR, hkept.params⟩

end Sys2Proof.Machine

namespace Sys2Proof.Machine

/-! ### A host that only makes the block wait (R121)

Each run is compared with the run of one host that offers every byte at once and never signals the end of the stream. That run
ends, so it does not wait anywhere: in each of its read states a byte is there. At each edge a patient host makes the block wait,
or makes it do what it does in that run. -/

/-- The levels of a host that serves the block at once and never signals the end of its stream. -/
def Levels.attentive : Levels := { Levels.atReset with cmdGo := true }

/-- `s` with that host. -/
def State.attended (s : State) : State := { s with script := [], levels := Levels.attentive }

/-- Levels that may make the block wait but raise nothing, as those of a smooth turn. -/
def Levels.Smooth (l : Levels) : Prop :=
  l.rst = false ∧ l.rxErr = false ∧ l.txErr = false ∧ l.shutdown = false ∧ (l.rxEof = true → l.rxOffer = true)

/-- `s` with another host: the levels it drives and the turns it still takes. -/
def withHost (l : Levels) (r : List HostTurn) (s : State) : State := mapHost (fun _ => l) (fun _ => r) id s

theorem HostTurn.smooth_iff {h : HostTurn} : h.smooth = true ↔ h.levels.Smooth ∧ h.attach = none := by
  simp [HostTurn.smooth, Levels.Smooth]
  cases h.levels.rxEof <;> simp <;> tauto

theorem Levels.smooth_of_serving {l : Levels} (h : l.serving = true) : l.Smooth := by
  obtain ⟨ho, -, hr, he, ht, hs⟩ := Levels.serving_iff.1 h
  exact ⟨hr, he, ht, hs, fun _ => ho⟩

theorem dutiful_of_smooth {l : Levels} {script : List HostTurn} (hl : l.shutdown = false)
    (h : script.all HostTurn.smooth = true) : dutiful l script = true := by
  induction script generalizing l with
  | nil => rfl
  | cons turn rest ih =>
    simp only [List.all_cons, Bool.and_eq_true] at h
    obtain ⟨⟨-, -, -, hsd, -⟩, hattach⟩ := HostTurn.smooth_iff.1 h.1
    simp [dutiful, clearsShutdown, hl, hattach, ih hsd h.2]

/-- Under smooth levels the block waits, or does what it does with the attentive host where that does not wait. -/
theorem edge_withHost {c : State} {l : Levels} (r : List HostTurn) (hl : l.Smooth) (hc : c.levels = Levels.attentive)
    (hb : c.busy = true) (hw : c.waiting = false) :
    (withHost l r c).waiting = true ∨ edge (withHost l r c) = (edge c).map (withHost l r) := by
  obtain ⟨hr, herr, hterr, hsd, heof⟩ := hl
  refine or_iff_not_imp_left.2 fun hgo => edge_mapHost hb (by rw [hc]; rfl) hr (fun hf => ?_) fun hv => ?_
  · have hvalid : c.rxValid = true := by
      by_contra hno
      simp [State.waiting, hf, hc, Levels.attentive, Levels.atReset, hno] at hw
    have hoffer : l.rxOffer = true := by
      by_contra hno
      have hnoeof : l.rxEof = false := by
        by_contra h; exact hno (heof (Bool.eq_true_of_not_eq_false h))
      exact hgo (by simp [State.waiting, withHost, State.rxValid, hf, hr, herr, hsd, hno, hnoeof])
    exact ⟨by rw [hc]; exact hsd, by rw [hc]; exact herr, by rw [hc]; exact hoffer, fun h => by simp [hvalid] at h⟩
  · have hready : l.txReady = true := by
      by_contra hno
      have hv' : (withHost l r c).txValid = true := hv
      exact hgo (by simp only [State.waiting, hv']; simp [withHost, hr, hterr, hno])
    exact ⟨by rw [hc]; exact hterr, by rw [hc]; exact hready⟩

/-- Where the host serves, the block waits only at the end of the stream, and there it waits with the attentive host. -/
theorem waiting_of_withHost {c : State} {l : Levels} {r : List HostTurn} (hl : l.serving = true)
    (hc : c.levels = Levels.attentive) (h : (withHost l r c).waiting = true) : c.waiting = true := by
  by_contra hw
  rw [not_waiting_of_serving (u := withHost l r c) hl fun hf hs => hw ?_] at h
  · simp at h
  · have hf : c.fst.isRead = true := hf
    have hs : c.stream = [] := hs
    simp [State.waiting, hf, hc, Levels.attentive, Levels.atReset, State.rxValid, hs]

/-- What is left of a patient host. -/
structure Patient (l : Levels) (r : List HostTurn) : Prop where
  turns : r.all HostTurn.smooth = true
  last : r = [] → l.serving = true
  lastTurn : ∀ h, r.getLast? = some h → h.levels.serving = true

theorem Patient.next {l : Levels} {turn : HostTurn} {rest : List HostTurn} (h : Patient l (turn :: rest)) :
    turn.levels.Smooth ∧ turn.attach = none ∧ Patient turn.levels rest := by
  obtain ⟨hturns, -, hlast⟩ := h
  simp only [List.all_cons, Bool.and_eq_true] at hturns
  obtain ⟨hl, ha⟩ := HostTurn.smooth_iff.1 hturns.1
  refine ⟨hl, ha, hturns.2, ?_, fun h hh => hlast h ?_⟩
  · rintro rfl; exact hlast turn rfl
  · rw [List.getLast?_cons, hh]; rfl

/-- A patient host's turn of the clock: a wait, or the edge of the run with the attentive host. -/
theorem tick_patient {c t : State} {l : Levels} {r : List HostTurn} (hp : Patient l r) (hc : c.levels = Levels.attentive)
    (hscript : c.script = []) (hb : c.busy = true) (hw : c.waiting = false) (h : tick (withHost l r c) = .next t) :
    ∃ l' r', Patient l' r' ∧ (t = withHost l' r' c ∨ ∃ c', tick c = .next c' ∧ t = withHost l' r' c') := by
  obtain ⟨a, ha, hedge⟩ := tick_cases h
  obtain ⟨l', r', hp', hl', rfl⟩ : ∃ l' r', Patient l' r' ∧ l'.Smooth ∧ a = withHost l' r' c := by
    obtain ⟨hs, rfl⟩ | ⟨turn, rest, hs, rfl, -⟩ := hostTurn_cases ha
    · exact ⟨l, r, hp, Levels.smooth_of_serving (hp.last hs), rfl⟩
    · obtain rfl : r = turn :: rest := hs
      obtain ⟨hl, hattach, hp⟩ := hp.next
      exact ⟨turn.levels, rest, hp, hl, by simp [takeTurn, hattach, withHost, mapHost]⟩
  refine ⟨l', r', hp', ?_⟩
  rw [tick_nil hscript]
  obtain hwait | hgo := edge_withHost r' hl' hc hb hw
  · rw [edge_of_waiting hwait] at hedge
    exact .inl (by simpa using hedge.symm)
  · rw [hgo] at hedge
    cases hc' : edge c <;> rw [hc'] at hedge <;> cases hedge
    exact .inr ⟨_, rfl, rfl⟩

/-- A run that ends waits for no further turn on its way, so each of its states has a next one. -/
theorem runCommand_of_busy {n : Nat} {c u : State} (hb : c.busy = true) (h : runCommand n c = .next u) (hu : u.busy = false) :
    c.hung = false ∧ ∃ n' c', tick c = .next c' ∧ runCommand n' c' = .next u := by
  cases n with
  | zero => cases h; simp [hb] at hu
  | succ n =>
    cases hh : c.hung
    · simp only [runCommand, hb, hh, Bool.not_false, Bool.and_self, if_true] at h
      cases ht : tick c with
      | next c' => exact ⟨rfl, n, c', rfl, by rwa [ht] at h⟩
      | fault f => rw [ht] at h; cases h
      | refused f => rw [ht] at h; cases h
    · simp only [runCommand, hb, hh, Bool.not_true, Bool.and_false, Bool.false_eq_true, if_false] at h
      cases h
      simp [hb] at hu

/-- Where the run with a patient host stops, that with the attentive host has stopped too. -/
theorem stop_of_patient {n : Nat} {c t u : State} {l : Levels} {r : List HostTurn} (hp : Patient l r)
    (hc : c.levels = Levels.attentive) (hscript : c.script = []) (hstop : withHost l r c = t)
    (ht : t.busy = false ∨ t.hung = true) (hn : runCommand n c = .next u) (hu : u.busy = false) :
    t = withHost t.levels t.script u := by
  subst hstop
  have hb : c.busy = false := by
    refine Bool.eq_false_of_not_eq_true fun hb => ?_
    obtain ⟨hh, -⟩ := runCommand_of_busy hb hn hu
    have hend : (withHost l r c).hung = true := ht.resolve_left (ne_of_eq_of_ne (b := true) hb (by decide))
    simp only [State.hung, Bool.and_eq_true, List.isEmpty_iff] at hend
    have hw := waiting_of_withHost (hp.last hend.1) hc hend.2
    simp [State.hung, hscript, hw] at hh
  rw [runCommand_idle hb] at hn
  cases hn
  rfl

/-- The run with a patient host ends where that with the attentive host does. -/
theorem runCommand_patient {m n : Nat} {c t u : State} {l : Levels} {r : List HostTurn} (hp : Patient l r)
    (hc : c.levels = Levels.attentive) (hscript : c.script = []) (h : runCommand m (withHost l r c) = .next t)
    (ht : t.busy = false ∨ t.hung = true) (hn : runCommand n c = .next u) (hu : u.busy = false) :
    t = withHost t.levels t.script u := by
  induction m generalizing c l r n with
  | zero => exact stop_of_patient hp hc hscript (Host.Outcome.next.inj h) ht hn hu
  | succ m ih =>
    simp only [runCommand] at h
    split at h
    · rename_i hgo
      have hb : c.busy = true := (Bool.and_eq_true_iff.1 hgo).1
      obtain ⟨hh, n', c', hc', hn'⟩ := runCommand_of_busy hb hn hu
      have hw : c.waiting = false := by simpa [State.hung, hscript] using hh
      cases ha : tick (withHost l r c) with
      | next a =>
        rw [ha] at h
        obtain ⟨l', r', hp', rfl | ⟨c'', hc'', rfl⟩⟩ := tick_patient hp hc hscript hb hw ha
        · exact ih hp' hc hscript h hn
        · obtain rfl : c'' = c' := by simpa using hc''.symm.trans hc'
          obtain ⟨hlevels, hscript'⟩ := edge_keeps_host (tick_nil hscript ▸ hc')
          exact ih hp' (hlevels.trans hc) (hscript'.trans hscript) h hn'
      | fault f => rw [ha] at h; cases h
      | refused f => rw [ha] at h; cases h
    · exact stop_of_patient hp hc hscript (Host.Outcome.next.inj h) ht hn hu

/-! The command. -/

/-- With a serving host every command of the protocol comes to its end. -/
theorem exec_completes {s : State} {i : Instr} (hgo : s.startsCommand = true) (hsteady : s.steady = true)
    (hwf : i.wellFormed s.params.capacity = true) : ∃ t, exec i s = .next t ∧ t.busy = false := by
  have hb := not_busy_of_startsCommand hgo
  cases i with
  | getinfo rem6 => exact ⟨_, getinfoCompletes s rem6 hgo hsteady (by simpa [Instr.wellFormed] using hwf), hb⟩
  | settck rem5 period => exact ⟨_, settckCompletes s rem5 period hgo hsteady (by simpa [Instr.wellFormed] using hwf), hb⟩
  | shift rem4 len tms tdi =>
    by_cases hfit : 2 * ceilBytes len ≤ s.params.capacity
    · obtain ⟨t, ht, hidle, -⟩ := shiftCompletes s rem4 len tms tdi hgo hsteady hwf hfit
      exact ⟨t, ht, by simp [State.busy, hidle, Fst.isBusy]⟩
    · simp only [Instr.wellFormed, if_neg hfit, Bool.and_eq_true, decide_eq_true_eq, List.isEmpty_iff] at hwf
      obtain ⟨hrem, rfl, rfl⟩ := hwf
      exact ⟨_, oversizeShiftEndsCommand s rem4 len hgo hsteady hrem (Nat.lt_of_not_le hfit), hb⟩

theorem attended_startsCommand {s : State} (h : s.startsCommand = true) : s.attended.startsCommand = true := by
  simp_all [State.startsCommand, State.attended, Levels.attentive, Levels.atReset]

/-- A command with a patient host leaves what it leaves with the attentive host. -/
theorem exec_patient {s u : State} {i : Instr} (hgo : s.startsCommand = true) (hp : Patient s.levels s.script)
    (hu : exec i s.attended = .next u) (hb : u.busy = false) :
    ∃ t, exec i s = .next t ∧ t = withHost t.levels t.script u := by
  have hsd : s.levels.shutdown = false := by simp_all [State.startsCommand]
  obtain ⟨t, ht, hend⟩ := dutifulHostCommandEnds s i hgo (dutiful_of_smooth hsd hp.turns)
  refine ⟨t, ht, ?_⟩
  rw [exec_eq_commandCycle, commandCycle, edge_startsCommand (s := offerCommand i s) hgo] at ht
  have hgo' : s.attended.startsCommand = true := attended_startsCommand hgo
  rw [exec_eq_commandCycle, commandCycle, edge_startsCommand (s := offerCommand i s.attended) hgo'] at hu
  exact runCommand_patient (c := enter .tok (offerCommand i s.attended)) hp rfl rfl ht hend hu hb

/-- Settles O56: both hosts are patient, and each run ends where that with the attentive host does. -/
theorem fragmentationHasNoEffect : Obligations.FragmentationHasNoEffect := by
  intro s i hgo hpatient hwf
  simp only [State.patient, Bool.and_eq_true] at hpatient
  obtain ⟨hturns, hlast⟩ := hpatient
  have hp : Patient s.levels s.script := by
    refine ⟨hturns, fun h => by simpa [State.lastLevels, h] using hlast, fun h hh => ?_⟩
    simpa [State.lastLevels, hh] using hlast
  have hservedp : Patient s.served.levels s.served.script := ⟨rfl, fun _ => hlast, by simp [State.served]⟩
  have hservedgo : s.served.startsCommand = true := by
    obtain ⟨-, -, hr, -, -, hsd⟩ := Levels.serving_iff.1 hlast
    simp_all [State.startsCommand, State.served]
  obtain ⟨v, hv, hb⟩ := exec_completes (attended_startsCommand hgo) rfl hwf
  obtain ⟨t, ht, htv⟩ := exec_patient hgo hp hv hb
  obtain ⟨u, hu, huv⟩ := exec_patient (s := s.served) hservedgo hservedp hv hb
  exact ⟨t, u, ht, hu, htv.trans (congrArg (withHost t.levels t.script) huv).symm⟩

end Sys2Proof.Machine

/-! PROOFS for the family of 41_shift_engine.md. First the lines and the sample at one edge; then the pacing, as runs of SH_RUN with
the levels held, of which a step, its line levels and the SHIFT of no bits are composed; then the duration of a shift, by a number
that every edge lowers by one; last what an accepted shift's events say of its writes, its samples and its reply. -/

namespace Sys2Proof.Machine

/-! ### The lines at an edge (R148) -/

/-- What a move that leaves TCK high has done: the TCK-high write of a step, or nothing to the lines. -/
theorem Move.lines_of_tck_high {s t : State} (h : Move s t) (ht : t.tckQ = true) :
    (s.fst = .shRun ∧ s.est = .eHigh ∧ t = highWrite s) ∨ t.lines = s.lines := by
  cases h with
  | high hf he => exact .inl ⟨hf, he, rfl⟩
  | startEmpty | start | low | rest => simp at ht
  | _ => exact .inr (by simp [State.lines])

/-- Settles O39: TMS and TDI are those of the step already at its TCK-low write. -/
theorem lineDiscipline : Obligations.LineDiscipline := by
  intro s t hinv hr h
  obtain ⟨-, -, -, hline⟩ := inv_iff.1 hinv
  obtain ⟨hr', -⟩ | ⟨-, hm⟩ := edge_cases h
  · simp [hr] at hr'
  have hkeep : t.lines = s.lines → t.tckQ = s.tckQ ∧ t.tmsQ = s.tmsQ ∧ t.tdiQ = s.tdiQ := by simp [State.lines]
  refine ⟨fun hs ht => ?_, fun ht => ?_⟩
  · obtain ⟨hf, he, -⟩ | hlines := hm.lines_of_tck_high ht
    · exact ⟨hf, he⟩
    · simp [(hkeep hlines).1, hs] at ht
  · obtain ⟨hf, he, rfl⟩ | hlines := hm.lines_of_tck_high ht
    · have hbits : s.tmsQ = s.tmsW.getLsbD 0 ∧ s.tdiQ = s.tdiW.getLsbD 0 := by
        simpa [State.lines] using congrArg Prod.snd ((hline.lines hf).2.1 he)
      simp [hbits]
    · exact (hkeep hlines).2

/-! ### The sample (R137, R139, R145) -/

/-- What the sample edge does to the registers that neither the chunk's end nor the next chunk's load touches. -/
structure Sampled (s t : State) : Prop where
  est : t.est = .eLow ∨ t.est = .eRest
  trace : t.trace = s.trace ++ [.sample (s.drawValue 0)]
  lines : t.lines = s.lines
  fst : t.fst = s.fst
  host : t.levels = s.levels ∧ t.script = s.script
  draws : t.tdoDraws = s.tdoDraws.tail ∧ t.draws = s.draws + 1
  delayR : t.delayR = s.delayR
  dlyCnt : t.dlyCnt = (tickDelay s).dlyCnt

theorem sampled_of_sampleEdge {s t : State} (h : sampleEdge s = .ok t) : Sampled s t := by
  obtain ⟨-, h⟩ | ⟨-, rfl⟩ := sampleEdge_cases h
  · obtain ⟨s1, hstore, h⟩ := chunkEnd_cases h
    obtain ⟨m, rfl, -⟩ := chunkStore_stored hstore
    obtain ⟨-, s2, hload, rfl⟩ | ⟨-, rfl⟩ := h
    · obtain ⟨tmsW, tdiW, rfl⟩ := chunkLoad_eq_startChunk hload
      constructor <;> simp [State.lines]
    · constructor <;> simp [State.lines]
  · constructor <;> simp [State.lines]

theorem Sampled.draw {s t : State} (h : Sampled s t) (k : Nat) : t.draw k = s.draw (k + 1) := by
  obtain ⟨hlist, hcount⟩ := h.draws
  simp only [State.draw, hlist, hcount, List.getElem?_tail, Nat.add_assoc, Nat.add_comm 1 k]

/-- A step is its chunk's last exactly when it makes the steps done those of the chunk. -/
theorem nstepR_le_iff {s : State} (h : s.stepR.toNat + 1 ≤ s.nstepR.toNat) :
    s.nstepR ≤ s.stepR + 1 ↔ s.stepR.toNat + 1 = s.nstepR.toNat := by
  have hstep : (s.stepR + 1).toNat = s.stepR.toNat + 1 := by bv_omega
  rw [BitVec.le_def, hstep]
  omega

theorem edge_of_shRun {s : State} (hf : s.fst = .shRun) (hr : s.levels.rst = false) :
    edge s = .ofExcept (engineEdge s) := by simp [edge, hf, hr]

theorem engineEdge_eSample {s : State} (he : s.est = .eSample) : engineEdge s = sampleEdge s := by simp [engineEdge, he]

/-- Settles O40: the chunk's end touches neither the lines nor the draws, and before it the edge only samples and shifts. -/
theorem sampleTakesTheDraw : Obligations.SampleTakesTheDraw := by
  intro s v hf he hr hv
  have hv : s.drawValue 0 = v := hv.symm
  rw [edge_of_shRun hf hr, engineEdge_eSample he]
  refine ⟨fun t h => ?_, fun hmore _ => ?_⟩
  · have hs := sampled_of_sampleEdge (Result.ofExcept_eq_next.1 h)
    exact ⟨hv ▸ hs.trace, hs.lines, hs.fst.trans hf, hs.est, hs.draws.2, hs.draw⟩
  · have hlast : ¬ s.nstepR ≤ s.stepR + 1 := by rw [nstepR_le_iff hmore.le]; omega
    have hstep : (s.stepR + 1).toNat = s.stepR.toNat + 1 := by bv_omega
    refine ⟨_, by rw [sampleEdge, if_neg hlast, Result.ofExcept_ok], fun i hi => ?_, rfl, hstep, rfl, rfl⟩
    rw [setEst_tdoW, sampleAndShift_tdoW, getLsbD_setBit _ _ hi, hv]

end Sys2Proof.Machine

namespace Sys2Proof.Machine

/-! ### The pacing of the engine (R138)

In SH_RUN with the host's levels held a turn of the clock is the engine's edge, so the turns of a delay, of a step and of a chunk's
end are counted by composing `Runs`. -/

/-- SH_RUN with the levels held and no reset. -/
structure State.Held (s : State) : Prop where
  fst : s.fst = .shRun
  script : s.script = []
  rst : s.levels.rst = false

/-- `DLY_CNT <- d`. -/
def setDly (d : Word) (s : State) : State := { s with dlyCnt := d }

/-- The engine states whose action waits for the delay to run out. -/
def Est.isPaced : Est → Bool
  | .eLow | .eHigh | .eRest | .eFinish => true
  | .eIdle | .eStart | .eSample => false

/-- The action of such a state: a pin write, or the completion report. -/
def State.pacedAction (s : State) : State :=
  match s.est with
  | .eLow => lowWrite s
  | .eHigh => highWrite s
  | .eRest => restWrite s
  | .eIdle | .eStart | .eSample | .eFinish => engineDone s

theorem engineEdge_of_isPaced {s : State} (hp : s.est.isPaced = true) :
    engineEdge s = afterDelay (fun s => .ok s.pacedAction) s := by
  cases he : s.est <;> simp only [he, Est.isPaced, Bool.false_eq_true] at hp <;>
    simp only [engineEdge, afterDelay, State.pacedAction, he]

section
variable {s t : State}

theorem tickDelay_eq_setDly (hd : s.dlyCnt ≠ 0) : tickDelay s = setDly (s.dlyCnt - 1) s := by
  rw [tickDelay, if_neg hd, setDly]

theorem Runs.of_eq {j k : Nat} (h : Runs j s t) (hk : j = k) : Runs k s t := hk ▸ h

theorem State.Held.of_eq (h : s.Held) (hf : t.fst = s.fst) (hs : t.script = s.script) (hl : t.levels = s.levels) : t.Held :=
  ⟨hf.trans h.fst, hs.trans h.script, hl ▸ h.rst⟩

theorem State.Held.withDly (h : s.Held) (d : Word) : (setDly d s).Held := h.of_eq rfl rfl rfl

/-- One turn of the clock in SH_RUN. -/
theorem State.Held.runs (h : s.Held) (he : engineEdge s = .ok t) : Runs 1 s t := by
  refine runs_edge (by simp [State.busy, h.fst, Fst.isBusy]) h.script ?_
    (by rw [edge_of_shRun h.fst h.rst, he, Result.ofExcept_ok])
  simp [State.waiting, State.txValid, h.fst, Fst.isRead, Fst.isReply]

theorem State.Held.runs_action (h : s.Held) (hp : s.est.isPaced = true) (hd : s.dlyCnt = 0) : Runs 1 s s.pacedAction :=
  h.runs (by rw [engineEdge_of_isPaced hp, afterDelay_zero hd])

/-- The turns of a delay only count. -/
theorem State.Held.runs_count (h : s.Held) (hp : s.est.isPaced = true) {k : Nat} (hk : k ≤ s.dlyCnt.toNat) :
    Runs k s (setDly (s.dlyCnt - BitVec.ofNat 32 k) s) := by
  induction k with
  | zero => simp [Runs, setDly]
  | succ k ih =>
    have hd : s.dlyCnt - BitVec.ofNat 32 k ≠ 0 := by bv_omega
    refine (ih (by omega)).trans ((h.withDly _).runs ?_)
    rw [engineEdge_of_isPaced (by exact hp), afterDelay_pos hd,
      show s.dlyCnt - BitVec.ofNat 32 (k + 1) = s.dlyCnt - BitVec.ofNat 32 k - 1 by bv_omega]
    exact congrArg Except.ok (tickDelay_eq_setDly (s := setDly (s.dlyCnt - BitVec.ofNat 32 k) s) hd)

/-- The delay run out, without the action that is then due. -/
theorem State.Held.runs_delay (h : s.Held) (hp : s.est.isPaced = true) : Runs s.dlyCnt.toNat s (setDly 0 s) := by
  simpa using h.runs_count hp le_rfl

theorem State.Held.runs_due (h : s.Held) (hp : s.est.isPaced = true) :
    Runs (s.dlyCnt.toNat + 1) s (setDly 0 s).pacedAction :=
  (h.runs_delay hp).trans ((h.withDly 0).runs_action hp rfl)

/-- After a sample the next action, a TCK-low write or the rest write, waits for the delay. -/
theorem Sampled.isPaced (h : Sampled s t) : t.est.isPaced = true := by
  obtain he | he := h.est <;> rw [he] <;> rfl

theorem Sampled.held (h : Sampled s t) (hs : s.Held) : t.Held := hs.of_eq h.fst h.host.2 h.host.1

theorem Sampled.pacedAction (h : Sampled s t) :
    (setDly 0 t).pacedAction = if t.est = .eLow then lowWrite (setDly 0 t) else restWrite (setDly 0 t) := by
  obtain he | he := h.est <;> simp [State.pacedAction, setDly, he]

/-- The sample's turn is the first of the delay of the TCK-high write, and the others only count. -/
theorem State.Held.runs_sample (h : s.Held) (he : s.est = .eSample) (hd : s.dlyCnt = s.delayR) (ht : sampleEdge s = .ok t)
    {k : Nat} (hk : k < s.delayR.toNat) : Runs (k + 1) s (setDly (s.delayR - BitVec.ofNat 32 (k + 1)) t) := by
  have hs := sampled_of_sampleEdge ht
  have hcount : t.dlyCnt = s.delayR - 1 := by
    rw [hs.dlyCnt, tickDelay_dlyCnt, hd, if_neg (by rintro h0; simp [h0] at hk)]
  have hrest := (hs.held h).runs_count hs.isPaced (k := k) (by rw [hcount]; bv_omega)
  rw [hcount, show s.delayR - 1 - BitVec.ofNat 32 k = s.delayR - BitVec.ofNat 32 (k + 1) by bv_omega] at hrest
  exact ((h.runs (engineEdge_eSample he ▸ ht)).trans hrest).of_eq (Nat.add_comm 1 k)

/-- After the sample the delay of the TCK-high write runs out, before the write that is then due. -/
theorem State.Held.runs_sample_delay (h : s.Held) (he : s.est = .eSample) (hd : s.dlyCnt = s.delayR) (hD : s.delayR ≠ 0)
    (ht : sampleEdge s = .ok t) : Runs s.delayR.toNat s (setDly 0 t) := by
  have hpos : 0 < s.delayR.toNat := Nat.pos_of_ne_zero fun h0 => hD (BitVec.eq_of_toNat_eq h0)
  have hlast := h.runs_sample he hd ht (k := s.delayR.toNat - 1) (by omega)
  rw [Nat.sub_add_cancel hpos] at hlast
  simpa using hlast

theorem State.Held.runs_sample_due (h : s.Held) (he : s.est = .eSample) (hd : s.dlyCnt = s.delayR) (hD : s.delayR ≠ 0)
    (ht : sampleEdge s = .ok t) : Runs (s.delayR.toNat + 1) s (setDly 0 t).pacedAction := by
  have hs := sampled_of_sampleEdge ht
  exact (h.runs_sample_delay he hd hD ht).trans (((hs.held h).withDly 0).runs_action hs.isPaced rfl)

end

/-- Settles O41: the runs of a delay, and of a sample and the delay after it, are turns of the clock. -/
theorem actionsAreDelayApart : Obligations.ActionsAreDelayApart := by
  intro s hf hscript hr
  have h : s.Held := ⟨hf, hscript, hr⟩
  refine ⟨fun he => ?_, fun he hd hD t ht => ?_⟩
  · have hp : s.est.isPaced = true := by obtain he | he | he | he := he <;> rw [he] <;> rfl
    refine ⟨fun k hk => (h.runs_count hp hk).ticks, (h.runs_due hp).ticks.trans ?_⟩
    obtain he | he | he | he := he <;> simp only [State.pacedAction, setDly, he]
  · rw [tick_nil hscript, edge_of_shRun hf hr, engineEdge_eSample he, Result.ofExcept_eq_next] at ht
    have hs := sampled_of_sampleEdge ht
    exact ⟨hs.trace, hs.lines, fun k hk => (h.runs_sample he hd ht hk).ticks,
      (h.runs_sample_due he hd hD ht).ticks.trans (congrArg _ hs.pacedAction)⟩

end Sys2Proof.Machine

namespace Sys2Proof.Machine

/-! ### One step of a shift (R139, R148) -/

section
variable {s t : State}

/-- `s` after the two writes of a step, at the edge that samples (R139). -/
@[simps] def State.risen (s : State) : State :=
  { s with
    est := .eSample, dlyCnt := s.delayR, tckQ := true, tmsQ := s.tmsW.getLsbD 0, tdiQ := s.tdiW.getLsbD 0,
    trace := s.trace ++ [.write false (s.tmsW.getLsbD 0) (s.tdiW.getLsbD 0), .write true (s.tmsW.getLsbD 0) (s.tdiW.getLsbD 0)] }

theorem highWrite_lowWrite : highWrite (setDly 0 (lowWrite s)) = s.risen := by
  simp [highWrite, lowWrite, setDly, setEst, startDelay, pinWrite, record, State.risen]

theorem State.Held.risen (h : s.Held) : s.risen.Held := h.of_eq rfl rfl rfl

theorem State.Held.runs_low (h : s.Held) (he : s.est = .eLow) (hd : s.dlyCnt = 0) : Runs 1 s (lowWrite s) := by
  have hrun := h.runs_action (he ▸ rfl) hd
  rwa [State.pacedAction, he] at hrun

theorem State.Held.runs_risen (h : s.Held) (he : s.est = .eLow) (hd : s.dlyCnt = 0) :
    Runs (s.delayR.toNat + 2) s s.risen := by
  have hhigh : Runs (s.delayR.toNat + 1) (lowWrite s) (highWrite (setDly 0 (lowWrite s))) :=
    State.Held.runs_due (s := lowWrite s) (h.of_eq rfl rfl rfl) rfl
  rw [highWrite_lowWrite] at hhigh
  exact ((h.runs_low he hd).trans hhigh).of_eq (by omega)

/-- A step, from its TCK-low write to the edge at which the next write is due, and that write. -/
theorem State.Held.runs_step (h : s.Held) (he : s.est = .eLow) (hd : s.dlyCnt = 0) (hD : s.delayR ≠ 0)
    (ht : sampleEdge s.risen = .ok t) :
    Runs (2 * (s.delayR.toNat + 1)) s (setDly 0 t) ∧
      Runs (2 * (s.delayR.toNat + 1) + 1) s
        (if t.est = .eLow then lowWrite (setDly 0 t) else restWrite (setDly 0 t)) := by
  have hrise := h.runs_risen he hd
  have hdelay : Runs s.delayR.toNat s.risen (setDly 0 t) := h.risen.runs_sample_delay rfl rfl hD ht
  have hdue : Runs (s.delayR.toNat + 1) s.risen (setDly 0 t).pacedAction := h.risen.runs_sample_due rfl rfl hD ht
  rw [(sampled_of_sampleEdge ht).pacedAction] at hdue
  exact ⟨(hrise.trans hdelay).of_eq (by omega), (hrise.trans hdue).of_eq (by omega)⟩

end

/-- Settles O43: the low write, the high write and the next write of the step's run, with counting between them. -/
theorem lineLevelsInAStep : Obligations.LineLevelsInAStep := by
  intro s hinv hf he hscript hr hd
  have h : s.Held := ⟨hf, hscript, hr⟩
  obtain ⟨-, -, hrun, hline⟩ := inv_iff.1 hinv
  have hD : s.delayR ≠ 0 := hline.delay (by simp [hf]) (by simp [hf])
  have hchunk : s.ChunkOk := (shiftPlace_iff_chunkOk (.inl he)).1 (hrun.place hf)
  obtain ⟨t, ht⟩ := sampleEdge_answers (s := s.risen) (hchunk.of_eq (by simp [State.risen])) (hrun.accepted.1 (by simp [hf]))
    (hrun.accepted.2 (by simp [hf])) (hrun.body.2 hf)
  have hs := sampled_of_sampleEdge ht
  refine ⟨fun k hk1 hk => ?_, fun k hk1 hk => ?_, ?_⟩
  · obtain ⟨j, rfl⟩ := Nat.exists_eq_add_of_le hk1
    have hcount := State.Held.runs_count (s := lowWrite s) (h.of_eq rfl rfl rfl) rfl (k := j)
      (by rw [lowWrite_dlyCnt]; omega)
    exact ⟨_, ((h.runs_low he hd).trans hcount).ticks, rfl⟩
  · obtain ⟨j, rfl⟩ := Nat.exists_eq_add_of_le hk1
    have hrise := h.runs_risen he hd
    cases j with
    | zero => exact ⟨_, hrise.ticks, rfl⟩
    | succ j =>
      have hcount := h.risen.runs_sample rfl rfl ht (k := j) (by show j < s.delayR.toNat; omega)
      exact ⟨_, (hrise.trans hcount).ticks, hs.lines⟩
  · refine ⟨_, (h.runs_step he hd hD ht).2.ticks, ?_⟩
    split <;> rfl

/-! ### A chunk's end does not depend on the pacing -/

/-- The engine's state and the delay set. -/
@[simps] def setPace (e : Est) (d : Word) (s : State) : State := { s with est := e, dlyCnt := d }

section
variable (e : Est) (d : Word) (s : State)

theorem memWrite_setPace (a k : Nat) (v : Word) :
    memWrite .result a k v (setPace e d s) = (memWrite .result a k v s).map (setPace e d) := by
  induction k generalizing a v s with
  | zero => rfl
  | succ k ih =>
    by_cases ha : a < s.params.maxNbytes
    · simp only [memWrite, writeByte_result (s := setPace e d s) ha, writeByte_result ha]
      exact ih (s := setResult (s.result.write a (byteOf v 0)) s) _ _
    · simp [memWrite, writeByte, State.bufSize, ha, Except.map]

theorem chunkStore_setPace : chunkStore (setPace e d s) = (chunkStore s).map (setPace e d) := by
  simp only [chunkStore, setPace_offR, setPace_bleftR, setPace_tdoW, memWrite_setPace]
  cases memWrite .result s.offR (chunkBytes s.bleftR) s.tdoW s <;> rfl

theorem chunkLoad_setPace : chunkLoad (setPace e d s) = (chunkLoad s).map (setPace e d) := by
  have hread : ∀ a k, memRead .scratch a k (setPace e d s) = memRead .scratch a k s := fun a k =>
    memRead_congr rfl fun _ _ _ => rfl
  have hn : (setPace e d s).nBytes = s.nBytes := rfl
  simp only [chunkLoad, setPace_offR, setPace_bleftR, hn, hread]
  cases memRead .scratch s.offR (chunkBytes s.bleftR) s with
  | error f => rfl
  | ok tmsW => cases memRead .scratch (s.nBytes + s.offR) (chunkBytes s.bleftR) s <;> rfl

variable {e d s}

/-- Once the delay has run out, what the pacing was before makes no difference. -/
theorem setDly_setEst_setPace {e' : Est} (hd : s.dlyCnt = 0) : setDly 0 (setEst e' (setPace e d s)) = setEst e' s := by
  simp [setDly, setEst, setPace, ← hd]

theorem chunkStore_dlyCnt {t : State} (h : chunkStore s = .ok t) : t.dlyCnt = s.dlyCnt := by
  obtain ⟨m, rfl, -⟩ := chunkStore_stored h
  rfl

theorem chunkLoad_dlyCnt {t : State} (h : chunkLoad s = .ok t) : t.dlyCnt = s.dlyCnt := by
  obtain ⟨tmsW, tdiW, rfl⟩ := chunkLoad_eq_startChunk h
  rfl

/-- The end of a chunk that leaves bits over, under any pacing. -/
theorem chunkEnd_setPace_more {s1 s2 : State} (hstore : chunkStore s = .ok s1) (hleft : 0 < s1.bleftR)
    (hload : chunkLoad s1 = .ok s2) : chunkEnd (setPace e d s) = .ok (setEst .eLow (setPace e d s2)) := by
  simp [chunkEnd, chunkStore_setPace, chunkLoad_setPace, hstore, hload, hleft, Except.map]

/-- The end of the last chunk, under any pacing. -/
theorem chunkEnd_setPace_last {s1 : State} (hstore : chunkStore s = .ok s1) (hleft : s1.bleftR = 0) :
    chunkEnd (setPace e d s) = .ok (setEst .eRest (setPace e d s1)) := by
  simp [chunkEnd, chunkStore_setPace, hstore, hleft, Except.map]

end

/-- Settles O42: at the sample's edge the registers are those of `u` but for the pacing, and the delay runs out after it. -/
theorem stepOfAShift : Obligations.StepOfAShift := by
  intro s u hf he hscript hr hd hD hu
  have h : s.Held := ⟨hf, hscript, hr⟩
  have hsample : sampleAndShift s.risen = setPace .eSample (s.delayR - 1) u := by
    have hv : s.risen.drawValue 0 = s.drawValue 0 := rfl
    subst hu
    simp [sampleAndShift, nextStep, tickDelay, sampleTdo, record, setPace, stepEvents, hv, show s.delayR ≠ 0#32 from hD]
  have hud : u.dlyCnt = 0 := by rw [hu, hd]
  refine ⟨fun hmore => ?_, fun hlast s1 hstore => ?_⟩
  · have hue : setEst .eLow u = u := by simp [setEst, hu, he]
    have ht : sampleEdge s.risen = .ok (setEst .eLow (setPace .eSample (s.delayR - 1) u)) := by
      rw [sampleEdge, if_neg (mt (nstepR_le_iff (s := s.risen) hmore.le).1 hmore.ne), hsample]
    obtain ⟨hstep, hnext⟩ := h.runs_step he hd hD ht
    rw [setDly_setEst_setPace hud, hue] at hstep hnext
    exact ⟨hstep.ticks, hnext.ticks⟩
  · have hend : sampleEdge s.risen = chunkEnd (setPace .eSample (s.delayR - 1) u) := by
      rw [sampleEdge, if_pos ((nstepR_le_iff (s := s.risen) hlast.le).2 hlast), hsample]
    have hd1 : s1.dlyCnt = 0 := (chunkStore_dlyCnt hstore).trans hud
    refine ⟨fun s2 hleft hload => ?_, fun hleft => ?_⟩
    · obtain ⟨hstep, hnext⟩ := h.runs_step he hd hD (hend.trans (chunkEnd_setPace_more hstore hleft hload))
      rw [setDly_setEst_setPace ((chunkLoad_dlyCnt hload).trans hd1)] at hstep hnext
      exact ⟨hstep.ticks, hnext.ticks⟩
    · obtain ⟨hstep, hnext⟩ := h.runs_step he hd hD (hend.trans (chunkEnd_setPace_last hstore hleft))
      rw [setDly_setEst_setPace hd1] at hstep hnext
      exact ⟨hstep.ticks, hnext.ticks⟩

end Sys2Proof.Machine

namespace Sys2Proof.Machine

/-! ### A SHIFT of no bits (R143) -/

section
variable {u : State}

/-- The check passes and the engine is started at once (R114). -/
theorem runs_noBody (hsteady : u.steady = true) (hf : u.fst = .shCheck) (hl : u.lenR = 0) :
    Runs 1 u (startEngine (setCnt 0 (latchBytes u))) := by
  obtain ⟨hscript, hserving⟩ := steady_iff.1 hsteady
  obtain ⟨-, hcheck⟩ := capacityCheckEdge u (rxOffer_rst_of_serving hserving).2
  refine runs_edge (by simp [State.busy, hf, Fst.isBusy]) hscript
    (not_waiting_of_serving hserving fun h => by simp [hf, Fst.isRead] at h) ?_
  rw [hcheck hf, if_neg (by simp [hl, ceilBytes]), if_pos hl]
  rfl

/-- The rest write, and the completion report once its delay has run out. -/
theorem runs_engineEmpty (hsteady : u.steady = true) (hf : u.fst = .shRun) (he : u.est = .eStart) (hl : u.lenR = 0) :
    Runs (u.delayR.toNat + 2) u (engineDone (setDly 0 (restWrite (beginShift u)))) := by
  obtain ⟨hscript, hserving⟩ := steady_iff.1 hsteady
  have h : u.Held := ⟨hf, hscript, (rxOffer_rst_of_serving hserving).2⟩
  have hrest : Runs 1 u (restWrite (beginShift u)) := h.runs (by rw [engineEdge, he]; exact engineStart_empty hl)
  have hdone : Runs (u.delayR.toNat + 1) (restWrite (beginShift u)) (engineDone (setDly 0 (restWrite (beginShift u)))) :=
    State.Held.runs_due (s := restWrite (beginShift u)) (h.of_eq rfl rfl rfl) rfl
  exact (hrest.trans hdone).of_eq (by omega)

/-- A reply of no bytes (R116; log 12). -/
theorem runs_emptyReply (hsteady : u.steady = true) (hf : u.fst = .shReply) (hn : u.nBytes = 0) :
    Runs 1 u (finish .cont .none u) := by
  obtain ⟨hscript, hserving⟩ := steady_iff.1 hsteady
  refine runs_edge (busy_of_isRead_or_isReply (.inr (by simp [hf, Fst.isReply]))) hscript
    (not_waiting_of_serving hserving fun h => by simp [hf, Fst.isRead] at h) ?_
  rw [edge_eq_replyEdge (rxOffer_rst_of_serving hserving).2 (by simp [hf, Fst.isReply])]
  simp [replyEdge, State.replyTotal, hf, hn]

end

/-- A command cycle has edges for one delay and more. -/
theorem le_cycleEdges (s : State) : 64 + (s.delayR.toNat + 2) ≤ cycleEdges s := by
  have hmul : s.delayR.toNat + 2 ≤ (8 * s.params.capacity + 8) * (s.delayR.toNat + 2) := Nat.le_mul_of_pos_left _ (by omega)
  unfold cycleEdges
  omega

/-- Settles O28: ten edges that read, the check, the rest write and its delay, the empty reply, and DONE. -/
theorem zeroLengthShiftCompletes : Obligations.ZeroLengthShiftCompletes := by
  intro s rem4 hgo hsteady hlen
  have hf : s.fst = .idle := by simp_all [State.startsCommand]
  have htoken := runs_token (u := enter .tok (offerCommand (.shift rem4 0 [] []) s)) (b0 := 0x73) (b1 := 0x68)
    (rest := rem4 ++ (wordBytes 0 ++ s.stream)) (f := .shSkip) rfl rfl hsteady (by simp [encode, tokenBytes, tokenShift])
    (by decide)
  have hskip := htoken.trans (runs_shSkip hsteady rfl rfl hlen rfl)
  have hlength := hskip.trans (runs_length hsteady rfl rfl rfl)
  have hengine := (hlength.trans (runs_noBody hsteady rfl rfl)).trans (runs_engineEmpty hsteady rfl rfl rfl)
  have hrun := (hengine.trans (runs_emptyReply hsteady rfl (show (nbytesOf 0).toNat = 0 by decide))).trans (runs_finish hsteady)
  have hfuel := le_cycleEdges s
  rw [exec_eq_commandCycle, commandCycle_of_runs (edge_startsCommand (s := offerCommand (.shift rem4 0 [] []) s) hgo) hrun rfl
    (show 2 + 4 + 4 + 1 + (s.delayR.toNat + 2) + 1 + 1 ≤ s.script.length + cycleEdges s by omega)]
  have hn : nbytesOf 0#32 = 0#30 := by decide
  simp [enter, setCnt, setFst, setTok, setLen, latchBytes, consumeBytes, offerCommand, setStream, startEngine, setEst, beginShift,
    restWrite, startDelay, pinWrite, engineDone, setDly, finish, record, hf, hn, encode, tokenOf, tokenBytes, tokenShift,
    wordBytes, CmdOutcome.code, Cause.code]

end Sys2Proof.Machine

namespace Sys2Proof.Machine

/-! ### How long a shift takes (R138, R144, R201) -/

/-- The pin writes still to come before the completion report (R144), each of which starts a delay. -/
def State.writesLeft (s : State) : Nat :=
  match s.est with
  | .eIdle | .eStart | .eFinish => 0
  | .eLow => 2 * (s.bleftR - s.stepR.toNat) + 1
  | .eHigh => 2 * (s.bleftR - s.stepR.toNat)
  | .eSample => 2 * (s.bleftR - s.stepR.toNat) - 1
  | .eRest => 1

/-- The edges from now to the completion report, its own the last of them: what is left of the delay under way, and
`DELAY_R + 1` edges for each write to come (R201). -/
def State.edgesLeft (s : State) : Nat := s.dlyCnt.toNat + (s.delayR.toNat + 1) * s.writesLeft + 1

/-- A shift after its first write. At an edge that samples, the delay of the TCK-high write has yet to run. -/
structure State.Shifting (s : State) : Prop where
  fst : s.fst = .shRun
  run : s.RunOk
  delay : s.delayR ≠ 0
  started : s.est ≠ .eStart
  sampling : s.est = .eSample → s.dlyCnt ≠ 0

section
variable {s t : State}

theorem State.ChunkOk.step_lt (h : s.ChunkOk) : s.stepR.toNat < s.bleftR := by
  obtain ⟨-, -, -, -, hn, hlt, -⟩ := h
  have := chunkSteps_le_left s.bleftR
  omega

/-- A write starts the delay again that has just run out. -/
theorem edgesLeft_of_write (hd : s.dlyCnt = 0) (hdly : t.dlyCnt = s.delayR) (hdelay : t.delayR = s.delayR)
    (hw : s.writesLeft = t.writesLeft + 1) : s.edgesLeft = t.edgesLeft + 1 := by
  have h0 : s.dlyCnt.toNat = 0 := by rw [hd]; rfl
  simp only [State.edgesLeft, h0, hdly, hdelay, hw, Nat.mul_succ]
  omega

/-- An edge that makes no write counts the delay. -/
theorem edgesLeft_of_count (hd : s.dlyCnt ≠ 0) (hdly : t.dlyCnt = (tickDelay s).dlyCnt) (hdelay : t.delayR = s.delayR)
    (hw : s.writesLeft = t.writesLeft) : s.edgesLeft = t.edgesLeft + 1 := by
  have hcount : (tickDelay s).dlyCnt.toNat + 1 = s.dlyCnt.toNat := by
    rw [tickDelay_dlyCnt, if_neg hd]; bv_omega
  simp only [State.edgesLeft, hdly, hdelay, hw, ← hcount]
  omega

/-- A sample makes no write, and whether its chunk ends or not the same writes follow. -/
theorem writesLeft_of_sampleEdge (he : s.est = .eSample) (hchunk : s.ChunkOk) (h : sampleEdge s = .ok t) :
    s.writesLeft = t.writesLeft := by
  have hlt := hchunk.step_lt
  obtain ⟨hlast, h⟩ | ⟨-, rfl⟩ := sampleEdge_cases h
  · have hsteps := nstepR_eq_of_last hchunk hlast
    obtain ⟨s1, hstore, h⟩ := chunkEnd_cases h
    obtain ⟨m, rfl, -⟩ := chunkStore_stored hstore
    obtain ⟨hleft, s2, hload, rfl⟩ | ⟨hleft, rfl⟩ := h
    · obtain ⟨tmsW, tdiW, rfl⟩ := chunkLoad_eq_startChunk hload
      simp [State.writesLeft, he, hsteps]
      omega
    · simp [hsteps] at hleft
      simp [State.writesLeft, he]
      omega
  · have hstep := toNat_stepR_succ hchunk
    simp only [State.writesLeft, he, setEst_est, setEst_bleftR, setEst_stepR, sampleAndShift_bleftR, sampleAndShift_stepR, hstep]
    omega

/-- Every edge of a shift under way brings the completion report one edge nearer, and the last one makes it. -/
theorem State.Shifting.edgesLeft_of_engineEdge (hs : s.Shifting) (h : engineEdge s = .ok t) :
    (s.edgesLeft = 1 ∧ t = engineDone s) ∨ (t.Shifting ∧ s.edgesLeft = t.edgesLeft + 1) := by
  obtain ⟨hf, hrun, hdelay, hstarted, hsampling⟩ := hs
  have hplace := hrun.place hf
  have hrun' := (move_of_engineEdge hf h).keeps_runOk hrun
  obtain ⟨he, -⟩ | ⟨he, h⟩ | ⟨hd, ⟨he, rfl⟩ | ⟨he, rfl⟩ | ⟨he, rfl⟩ | ⟨he, rfl⟩⟩ | ⟨hd, he, rfl⟩ := engineEdge_cases h
  · simp [State.ShiftPlace, he.resolve_right hstarted] at hplace
  · have hsample := sampled_of_sampleEdge h
    have hw := writesLeft_of_sampleEdge he ((shiftPlace_iff_chunkOk (.inr (.inr he))).1 hplace) h
    refine .inr ⟨⟨hsample.fst.trans hf, hrun', hsample.delayR ▸ hdelay, ?_, ?_⟩,
      edgesLeft_of_count (hsampling he) hsample.dlyCnt hsample.delayR hw⟩
    all_goals obtain he' | he' := hsample.est <;> simp [he']
  · exact .inr ⟨⟨by simpa using hf, hrun', by simpa using hdelay, by simp, by simp⟩,
      edgesLeft_of_write hd (by simp) (by simp) (by simp [State.writesLeft, he])⟩
  · have hlt := ((shiftPlace_iff_chunkOk (.inr (.inl he))).1 hplace).step_lt
    exact .inr ⟨⟨by simpa using hf, hrun', by simpa using hdelay, by simp, fun _ => by simpa using hdelay⟩,
      edgesLeft_of_write hd (by simp) (by simp) (by simp [State.writesLeft, he]; omega)⟩
  · exact .inr ⟨⟨by simpa using hf, hrun', by simpa using hdelay, by simp, by simp⟩,
      edgesLeft_of_write hd (by simp) (by simp) (by simp [State.writesLeft, he])⟩
  · exact .inl ⟨by simp [State.edgesLeft, State.writesLeft, he, hd], rfl⟩
  · have hne : s.est ≠ .eSample := by rintro hes; simp [hes] at he
    exact .inr ⟨⟨hf, hrun', hdelay, hstarted, fun hes => absurd hes hne⟩, edgesLeft_of_count hd rfl rfl rfl⟩

/-- In SH_RUN the turn of a dutiful host that does not reset is the engine's edge, under some levels. -/
theorem tick_of_shRun (hf : s.fst = .shRun) (hrun : s.RunOk) (hr : s.noReset = true)
    (hd : dutiful s.levels s.script = true) :
    ∃ l r t, tick s = .next t ∧ engineEdge { s with levels := l, script := r } = .ok t ∧ t.noReset = true ∧
      dutiful t.levels t.script = true := by
  obtain ⟨u, hu, hdu, -⟩ := hostTurn_dutiful hd
  obtain ⟨heq, hru⟩ := hostTurn_busy (by simp [State.busy, hf, Fst.isBusy]) hr hu
  have hfu : u.fst = .shRun := by rw [heq]; exact hf
  have hrst : u.levels.rst = false := by
    simp only [State.noReset, Bool.and_eq_true, Bool.not_eq_true'] at hru; exact hru.1
  obtain ⟨t, ht⟩ := engineEdge_answers (hostTurn_keeps_runOk hrun hu) hfu
  have hedge : edge u = .next t := by rw [edge_of_shRun hfu hrst, ht, Result.ofExcept_ok]
  obtain ⟨hlevels, hscript⟩ := edge_keeps_host hedge
  exact ⟨u.levels, u.script, t, by simp only [tick, hu, hedge], heq ▸ ht, by rw [State.noReset, hlevels, hscript]; exact hru,
    by rw [hlevels, hscript]; exact hdu⟩

/-- The host's side has no part in a shift under way. -/
theorem State.Shifting.withHost (hs : s.Shifting) (l : Levels) (r : List HostTurn) :
    State.Shifting { s with levels := l, script := r } :=
  ⟨hs.fst, ⟨hs.run.field, hs.run.accepted, hs.run.body, hs.run.place, hs.run.reply, hs.run.code⟩, hs.delay, hs.started,
    hs.sampling⟩

/-- A shift under way stays in SH_RUN until the completion report, `edgesLeft` turns from now (R146). -/
theorem State.Shifting.ticks {n : Nat} (hs : s.Shifting) (hr : s.noReset = true) (hd : dutiful s.levels s.script = true)
    (hn : s.edgesLeft = n) :
    (∃ t, ticks n s = .next t ∧ t.fst = .shReply ∧ t.est = .eIdle) ∧
      ∀ k < n, ∃ u, ticks k s = .next u ∧ u.fst = .shRun := by
  induction n generalizing s with
  | zero => simp [State.edgesLeft] at hn
  | succ n ih =>
    obtain ⟨l, r, t, ht, hedge, hrt, hdt⟩ := tick_of_shRun hs.fst hs.run hr hd
    have hedges : State.edgesLeft { s with levels := l, script := r } = n + 1 := hn
    have htick : ∀ k, Machine.ticks (k + 1) s = Machine.ticks k t := fun k => by simp only [Machine.ticks, ht]
    obtain ⟨hone, rfl⟩ | ⟨hst, hsucc⟩ := (hs.withHost l r).edgesLeft_of_engineEdge hedge
    · obtain rfl : n = 0 := by omega
      exact ⟨⟨_, htick 0, rfl, rfl⟩, fun k hk => ⟨s, by rw [Nat.lt_one_iff.1 hk]; rfl, hs.fst⟩⟩
    · obtain ⟨hend, hbefore⟩ := ih hst hrt hdt (by omega)
      refine ⟨by rw [htick]; exact hend, fun k hk => ?_⟩
      cases k with
      | zero => exact ⟨s, rfl, hs.fst⟩
      | succ k => rw [htick]; exact hbefore k (by omega)

/-- The first edge in SH_RUN makes the first write of the shift, and all the others are still to come (R131, R143). -/
theorem Move.of_eStart (h : Move s t) (hf : s.fst = .shRun) (he : s.est = .eStart) :
    (∃ w : Event, w.isWrite = true ∧ t.trace = s.trace ++ [w]) ∧ t.fst = .shRun ∧
      (t.est = .eLow ∨ t.est = .eFinish) ∧ t.dlyCnt = s.delayR ∧
      t.writesLeft + 1 = if s.lenR = 0 then 1 else 2 * s.lenR.toNat + 2 := by
  cases h with
  | startEmpty _ _ hl =>
    exact ⟨⟨.write false true false, rfl, by simp⟩, by simpa using hf, by simp, by simp, by simp [State.writesLeft, hl]⟩
  | start tms tdi tmsW tdiW _ _ hl =>
    rw [if_neg hl]
    exact ⟨⟨.write false tms tdi, rfl, by simp⟩, by simpa using hf, by simp, by simp, by simp [State.writesLeft]⟩
  | _ => simp_all [State.busy, Fst.isBusy, State.waiting, State.txValid, Fst.isRead, Fst.isReply]

end

/-- Settles O44: after the first write the delay begins, and `2 * len + 1` more writes, or none, are to come. -/
theorem shiftDuration : Obligations.ShiftDuration := by
  intro s s1 hinv hf he hr hd ht
  obtain ⟨-, -, -, hline⟩ := inv_iff.1 hinv
  have hdelay : s.delayR ≠ 0 := hline.delay (by simp [hf]) (by simp [hf])
  obtain ⟨l, r, t, ht', hedge, hrt, hdt⟩ := tick_of_shRun hf hinv.runOk hr hd
  obtain rfl : t = s1 := by simpa [ht] using ht'.symm
  have hm := move_of_engineEdge (s := { s with levels := l, script := r }) hf hedge
  obtain ⟨hwrite, hft, het, hdly, hleft⟩ := hm.of_eStart hf he
  have hkeep : t.delayR = s.delayR := hm.keeps_delayR
  have hs1 : t.Shifting := ⟨hft, tick_keeps_runOk hinv.runOk ht, hkeep ▸ hdelay,
    fun h => by simp [h] at het, fun h => by simp [h] at het⟩
  have hedges : t.edgesLeft = (if s.lenR = 0 then 1 else 2 * s.lenR.toNat + 2) * (s.delayR.toNat + 1) := by
    rw [State.edgesLeft, hdly, hkeep, ← hleft]
    ring
  obtain ⟨⟨u, hu, hfu, heu⟩, hbefore⟩ := hs1.ticks hrt hdt hedges
  exact ⟨hwrite, u, hu, hfu, heu, hbefore⟩

end Sys2Proof.Machine

namespace Sys2Proof.Machine

/-! ### The events and the reply of an accepted shift (R144, R149, R150) -/

section
variable (tms tdi : List Byte) (v : Nat → Bool) (n : Nat)

theorem shiftEvents_eq_shiftBegun :
    shiftEvents n tms tdi v = shiftBegun n tms tdi v n ++ [.write false true false] := rfl

theorem countP_isWrite_shiftBegun (k : Nat) :
    (shiftBegun n tms tdi v k).countP Event.isWrite = (if n = 0 then 0 else 1) + 2 * k := by
  induction k with
  | zero => by_cases h : n = 0 <;> simp [shiftBegun, h, Event.isWrite]
  | succ k ih => rw [shiftBegun_succ, List.countP_append, ih]; simp [stepEvents, List.countP_cons, Event.isWrite]; omega

theorem countP_isSample_shiftBegun (k : Nat) : (shiftBegun n tms tdi v k).countP Event.isSample = k := by
  induction k with
  | zero => by_cases h : n = 0 <;> simp [shiftBegun, h, Event.isSample]
  | succ k ih => rw [shiftBegun_succ, List.countP_append, ih]; simp [stepEvents, Event.isSample]

/-- Besides the two writes of each step there are the setup write, unless there is no bit, and the rest write (R144). -/
theorem countP_isWrite_shiftEvents :
    (shiftEvents n tms tdi v).countP Event.isWrite = if n = 0 then 1 else 2 * n + 2 := by
  rw [shiftEvents_eq_shiftBegun, List.countP_append, countP_isWrite_shiftBegun]
  split
  · simp [*, Event.isWrite]
  · simp [Event.isWrite]; omega

theorem countP_isSample_shiftEvents : (shiftEvents n tms tdi v).countP Event.isSample = n := by
  rw [shiftEvents_eq_shiftBegun, List.countP_append, countP_isSample_shiftBegun]
  rfl

/-- A shift's own events are all writes and samples. -/
theorem filter_shiftEvents :
    (shiftEvents n tms tdi v).filter (fun e => e.isWrite || e.isSample) = shiftEvents n tms tdi v := by
  refine List.filter_eq_self.2 fun e he => ?_
  simp only [shiftEvents, stepEvents, List.mem_append, List.mem_flatMap, List.mem_cons, List.not_mem_nil, or_false] at he
  obtain (he | ⟨i, -, rfl | rfl | rfl⟩) | rfl := he
  · split at he <;> simp_all [Event.isWrite]
  all_goals rfl

end

/-- No byte consumed or emitted is a write or a sample. -/
theorem filter_engineEvents_of_bytes (f : Byte → Event) (hf : f = .consume ∨ f = .emit) (bs : List Byte) :
    (bs.map f).filter (fun e => e.isWrite || e.isSample) = [] := by
  obtain rfl | rfl := hf <;> simp [Event.isWrite, Event.isSample]

/-- Settles O33: of the events of the flat form those of the bytes and `Done` fall out, and the rest are counted step by step. -/
theorem shiftEventCount : Obligations.ShiftEventCount := by
  intro s rem4 len tms tdi hgo hsteady hwf hfit
  obtain ⟨t, hexec, -, htrace, -⟩ := shiftCompletes s rem4 len tms tdi hgo hsteady hwf hfit
  have hengine : (eventsSince s t).filter (fun e => e.isWrite || e.isSample) = shiftEvents len.toNat tms tdi s.drawValue := by
    rw [eventsSince, htrace]
    simp only [List.append_assoc, List.drop_left, List.filter_append, filter_shiftEvents,
      filter_engineEvents_of_bytes _ (.inl rfl), filter_engineEvents_of_bytes _ (.inr rfl)]
    simp [Event.isWrite, Event.isSample]
  have hcount : ∀ p : Event → Bool, (∀ e, p e = true → (e.isWrite || e.isSample) = true) →
      (eventsSince s t).countP p = (shiftEvents len.toNat tms tdi s.drawValue).countP p := fun p hp => by
    rw [← hengine, List.countP_filter]
    refine List.countP_congr fun e _ => ?_
    simpa using hp e
  refine ⟨t, hexec, hengine, ?_, ?_⟩
  · rw [hcount _ (by simp +contextual), countP_isWrite_shiftEvents]
    exact if_congr (BitVec.toNat_inj (x := len) (y := 0)) rfl rfl
  · rw [hcount _ (by simp +contextual), countP_isSample_shiftEvents]

theorem vectorBit_tdoVector {n i : Nat} (f : Nat → Bool) (hi : i < 8 * ((n + 7) / 8)) :
    vectorBit (tdoVector n f) i = (decide (i < n) && f i) := by
  have hdiv : 8 * (i / 8) + i % 8 = i := Nat.div_add_mod i 8
  have hmod : i % 8 < 8 := Nat.mod_lt _ (by omega)
  have hbyte : (tdoVector n f).getD (i / 8) 0 = tdoByte n f (i / 8) := by
    rw [List.getD_eq_getElem?_getD, List.getElem?_eq_getElem (by rw [tdoVector_length]; omega)]
    simp [tdoVector]
  rw [vectorBit, hbyte, tdoByte]
  simp [hmod, hdiv]

/-- Vectors of as many bytes whose bits are the same are the same. -/
theorem eq_of_vectorBit {v w : List Byte} (hlen : v.length = w.length)
    (h : ∀ i < 8 * v.length, vectorBit v i = vectorBit w i) : v = w := by
  refine List.ext_getElem hlen fun j hj hj' => BitVec.eq_of_getLsbD_eq fun i hi => ?_
  have hbit := h (8 * j + i) (by omega)
  rw [vectorBit, vectorBit, show (8 * j + i) / 8 = j by omega, show (8 * j + i) % 8 = i by omega] at hbit
  simpa [hj, hj'] using hbit

/-- Settles O34: the reply is the TDO vector, and these are its bits. -/
theorem replyBitsAreSamples : Obligations.ReplyBitsAreSamples := by
  intro s rem4 len tms tdi hgo hsteady hwf hfit
  obtain ⟨t, hexec, -, htrace, -⟩ := shiftCompletes s rem4 len tms tdi hgo hsteady hwf hfit
  exact ⟨t, _, tdoVector len.toNat s.drawValue, hexec, htrace, tdoVector_length _ _, fun i hi => vectorBit_tdoVector _ hi⟩

/-- Settles O35: the reply's bits are the draws, which here are the bits of the TDI vector, and past them both are 0. -/
theorem identityTarget : Obligations.IdentityTarget := by
  intro s rem4 len tms tdi hgo hsteady hwf hfit htarget
  obtain ⟨t, before, reply, hexec, htrace, hlen, hbits⟩ := replyBitsAreSamples s rem4 len tms tdi hgo hsteady hwf hfit
  have hsame : ∀ i < len.toNat, vectorBit reply i = vectorBit tdi i := fun i hi => by
    rw [hbits i (by unfold ceilBytes; omega), decide_eq_true hi, Bool.true_and, htarget i hi]
  refine ⟨t, before, reply, hexec, htrace, hlen, hsame, fun hzero => eq_of_vectorBit ?_ fun i hi => ?_⟩
  · simp only [Instr.wellFormed, if_pos hfit, Bool.and_eq_true, decide_eq_true_eq] at hwf
    obtain ⟨-, -, htdi⟩ := hwf
    rw [hlen, htdi]
  · rw [hlen] at hi
    by_cases h : i < len.toNat
    · exact hsame i h
    · rw [hbits i hi, decide_eq_false h, Bool.false_and, hzero i (Nat.le_of_not_lt h) hi]

end Sys2Proof.Machine

/-! PROOFS for the family of 60_exceptions.md. What setup checks and what a condition leaves are the operations written out; the
terminal states and the phases follow from what one edge can do; last, where the level of `shutdown` has no part. -/

namespace Sys2Proof.Machine

/-! ### Setup and the conditions (R160 to R162, R170) -/

/-- Settles O9: the two tests of `initEdge`, `SETUP_FAIL` first. -/
theorem setupChecks : Obligations.SetupChecks := by
  intro s hf hr
  simp only [edge, hr, hf, Bool.false_eq_true, if_false]
  rfl

/-- Settles O18: the fields that `raiseCond` sets; the ports show them because it leaves the block in DONE. -/
theorem conditionCodes : Obligations.ConditionCodes := by
  refine ⟨fun x s => ?_, by decide⟩
  obtain ⟨-, -, -, -, hdone, hshown, -⟩ := outputPortLevels (raiseCond x s)
  obtain ⟨houtcome, hcause⟩ := hshown rfl
  exact ⟨rfl, hdone.2 rfl, houtcome, hcause⟩

/-! ### The terminal states and the phases (R177 to R179) -/

theorem edge_of_terminal {s : State} (hf : s.fst = .halt ∨ s.fst = .fatal) (hr : s.levels.rst = false) : edge s = .next s := by
  obtain hf | hf := hf <;> simp [edge, hf, hr]

theorem edge_levels_of_rst {s t : State} (hr : s.levels.rst = true) (h : edge s = .next t) : t.levels = s.levels := by
  obtain ⟨-, rfl⟩ | ⟨hr', -⟩ := edge_cases h
  · rfl
  · simp [hr] at hr'

/-- The host's turn changes nothing but the host's side. -/
theorem hostTurn_frame {s t : State} (h : hostTurn s = .next t) :
    t = { s with levels := t.levels, script := t.script, stream := t.stream } := by
  obtain ⟨-, rfl⟩ | ⟨turn, rest, -, rfl, -⟩ := hostTurn_cases h <;> rfl

theorem hostTurn_fst {s t : State} (h : hostTurn s = .next t) : t.fst = s.fst := by rw [hostTurn_frame h]

/-- A turn of the clock in HALT or FATAL that does not reset is the host's turn alone. -/
theorem hostTurn_of_tick_of_terminal {s t : State} (hf : s.fst = .halt ∨ s.fst = .fatal) (h : tick s = .next t)
    (hr : t.levels.rst = false) : hostTurn s = .next t := by
  obtain ⟨s1, hturn, hedge⟩ := tick_cases h
  have hr1 : s1.levels.rst = false := by
    by_contra hrst
    rw [edge_levels_of_rst (by simpa using hrst) hedge] at hr
    exact hrst hr
  rw [edge_of_terminal (hostTurn_fst hturn ▸ hf) hr1] at hedge
  cases hedge
  exact hturn

/-- Settles O11: the turn of the clock is the host's turn alone, and the ports are functions of `FST`. -/
theorem terminalStatesStay : Obligations.TerminalStatesStay := by
  intro s t hf h hr
  have hturn := hostTurn_of_tick_of_terminal hf h hr
  have hft := hostTurn_fst hturn
  refine ⟨hostTurn_frame hturn, ?_⟩
  obtain hf | hf := hf <;>
    simp [State.outputs, State.linkRelease, State.halted, State.fatal, State.rxReady, State.txValid, State.cmdDone, State.busy,
      Fst.isRead, Fst.isReply, Fst.isBusy, hft, hf]

/-! Without a reset no state leads to INIT, and few lead to HALT and FATAL (R25). -/

theorem Fst.init_notMem_next (f : Fst) : .init ∉ f.next := by cases f <;> simp [Fst.next]

theorem Fst.of_halt_mem_next {f : Fst} (h : .halt ∈ f.next) : f = .idle ∨ f = .done ∨ f = .halt := by
  cases f <;> simp [Fst.next] at h ⊢

theorem Fst.of_fatal_mem_next {f : Fst} (h : .fatal ∈ f.next) : f = .init ∨ f = .fatal := by
  cases f <;> simp [Fst.next] at h ⊢

theorem Fst.eq_of_mem_next_of_terminal {f g : Fst} (hf : f = .halt ∨ f = .fatal) (h : g ∈ f.next) : g = f := by
  obtain rfl | rfl := hf <;> simpa [Fst.next] using h

/-- Settles O13: a reset goes to INIT, and any other edge to a successor of the framer's state. -/
theorem phaseOrder : Obligations.PhaseOrder := by
  intro s t h hne
  obtain ⟨hr, rfl⟩ | ⟨-, hmove⟩ := edge_cases h
  · exact ⟨fun _ => hr, nofun, nofun, fun _ => rfl⟩
  have hnext := hmove.fst_mem_next
  refine ⟨fun hinit => ?_, fun hhalt => ?_, fun hfatal => ?_, fun hterm => ?_⟩
  · exact absurd (hinit ▸ hnext) (Fst.init_notMem_next _)
  · obtain hs | hs | hs := Fst.of_halt_mem_next (hhalt ▸ hnext)
    · exact .inl hs
    · exact .inr hs
    · exact absurd (hhalt.trans hs.symm) hne
  · obtain hs | hs := Fst.of_fatal_mem_next (hfatal ▸ hnext)
    · exact hs
    · exact absurd (hfatal.trans hs.symm) hne
  · exact absurd (Fst.eq_of_mem_next_of_terminal hterm hnext) hne

/-! ### Where `shutdown` has no part (R176) -/

section
variable {g : Levels → Levels} {k : List HostTurn → List HostTurn} {s : State}

/-- A reset examines no level but `cfg_delay` (R190). -/
theorem edge_mapHost_of_rst (hrst : s.levels.rst = true) (hr : (g s.levels).rst = true)
    (hdelay : (g s.levels).cfgDelay = s.levels.cfgDelay) :
    edge (mapHost g k id s) = (edge s).map (mapHost g k id) := by
  simp [edge, hrst, hr, resetEdge, hdelay, Result.map, mapHost]

/-- Setup examines no level but `link_acquired` (R170). -/
theorem edge_mapHost_of_init (hf : s.fst = .init) (hrst : s.levels.rst = false) (hr : (g s.levels).rst = false)
    (hlink : (g s.levels).linkAcquired = s.levels.linkAcquired) :
    edge (mapHost g k id s) = (edge s).map (mapHost g k id) := by
  simp only [edge, mapHost_levels, mapHost_fst, hr, hrst, hf, Bool.false_eq_true, if_false, initEdge, mapHost_delayR, hlink]
  split_ifs <;> rfl

/-- HALT and FATAL examine no level (R177, R178). -/
theorem edge_mapHost_of_terminal (hf : s.fst = .halt ∨ s.fst = .fatal) (hrst : s.levels.rst = false)
    (hr : (g s.levels).rst = false) : edge (mapHost g k id s) = (edge s).map (mapHost g k id) := by
  rw [edge_of_terminal hf hrst, edge_of_terminal (s := mapHost g k id s) hf hr]
  rfl

end

theorem State.busy_eq_false_iff {s : State} :
    s.busy = false ↔ s.fst = .init ∨ s.fst = .idle ∨ s.fst = .halt ∨ s.fst = .fatal := by
  cases hf : s.fst <;> simp [State.busy, Fst.isBusy, hf]

/-- Settles O60: a busy block examines `shutdown` in the read states only; of the others, only IDLE has a test of it. -/
theorem shutdownExaminedOnlyInIdleAndReads : Obligations.ShutdownExaminedOnlyInIdleAndReads := by
  intro s b hidle hread
  have hside : setShutdown b = mapHost (fun l => { l with shutdown := b }) id id := rfl
  rw [hside]
  cases hr : s.levels.rst
  case true => exact edge_mapHost_of_rst hr hr rfl
  cases hb : s.busy
  case true => exact edge_mapHost hb hr hr (fun hf => by simp [hf] at hread) fun _ => ⟨rfl, rfl⟩
  obtain hf | hf | hterm := State.busy_eq_false_iff.1 hb
  · exact edge_mapHost_of_init hf hr hr rfl
  · exact absurd hf hidle
  · exact edge_mapHost_of_terminal hterm hr hr

end Sys2Proof.Machine

/-! PROOFS for the family of 70_reset_and_hazards.md. With `rst = 1` the edge has no other case, and `resetEdge` writes every
register; what it keeps is the host's and the target's. -/

namespace Sys2Proof.Machine

/-- Reset comes before the rule of any framer state (R190). -/
theorem edge_of_rst {s : State} (hr : s.levels.rst = true) : edge s = .next (resetEdge s) := if_pos hr

/-- Settles O7: the edge is `resetEdge`, whose registers are those of `State.reset` but for `DELAY_R`, and whose trace is the
state's own. -/
theorem resetEdgeResetsEveryState : Obligations.ResetEdgeResetsEveryState := by
  intro s hr
  exact ⟨resetEdge s, edge_of_rst hr, rfl, rfl, rfl, rfl, rfl, rfl, rfl, rfl, rfl⟩

end Sys2Proof.Machine
